-- ==== Sys2Proof/Word.lean ====
section
/-! DEFINITION. The word types of the CBC chaining block and their plainest arithmetic: byte, 32-bit word,
word quad, 16-byte block (spec/00_scope.md R6, R7 and section 5). -/

namespace Sys2Proof

/-- A byte is 8 bits (00_scope.md section 5). -/
abbrev Byte := BitVec 8

/-- `WORD_BITS = 32` (00_scope.md R7). -/
abbrev Word := BitVec 32

/-- `BLOCK_BYTES = IV_BYTES = 16` (00_scope.md R6). -/
abbrev blockBytes : Nat := 16

/-- A *word quad* or register file of four words `q[0..3]` (00_scope.md R7 and section 5). -/
structure Quad where
  w0 : Word
  w1 : Word
  w2 : Word
  w3 : Word
deriving DecidableEq, Repr, Inhabited

namespace Quad

/-- Four zero words. -/
def zero : Quad := ⟨0, 0, 0, 0⟩

/-- Word `j` of a quad, `j` in 0 to 3 (00_scope.md section 5); no rule names another index. -/
def get (q : Quad) : Nat → Word
  | 0 => q.w0
  | 1 => q.w1
  | 2 => q.w2
  | _ => q.w3

/-- The XOR unit: word-wise and bit-wise (42_sequencer.md R165). -/
def xor (p q : Quad) : Quad :=
  ⟨p.w0 ^^^ q.w0, p.w1 ^^^ q.w1, p.w2 ^^^ q.w2, p.w3 ^^^ q.w3⟩

end Quad

/-- A *block*: a byte sequence of length 16, lowest address first (00_scope.md R6 and section 5). The length is
part of the value, which is the property XF_FIXED of 40_transform_port.md R124. -/
structure Block where
  bytes : List Byte := List.replicate 16 0
  length_eq : bytes.length = blockBytes := by rfl
deriving DecidableEq, Repr, Inhabited

end Sys2Proof
end

