-- ==== Sys2Proof/Config.lean ====
section
/-! DEFINITION. What an implementation, a platform or the provider fixes: the parameters of spec/00_scope.md
section 4 and the free values. An `opaque` constant has no body: nothing can evaluate it, so a claim about it
holds whatever it is. -/

namespace Sys2Proof

namespace Config

/-- The default of `AW`, the width of an address and of `LEN` (00_scope.md R8). `AW` itself is a parameter of an
instance, which State holds and no step changes; this is its value in the reset state. A value of AW bits (an address,
`LEN`, a handle) is a number below `2^AW`: AW is in no type, `fit` reduces modulo `2^AW` wherever a value is written,
and the invariant says that every such value fits. Log 1. -/
def addrWidth : Nat := 64

end Config

/-- The direction of a transform transaction, and the kind of a cipher context: "encrypt and decrypt are distinct
entities" (40_transform_port.md R121, R123). -/
inductive Dir where
  | enc
  | dec
deriving DecidableEq, Repr

/-- One cipher context behind the transform port (10_state.md R43): the handle that names it, the `init` that
created it, and its opaque byte buffer, which the block never reads (40_transform_port.md R122). -/
structure Context where
  dir : Dir
  handle : Nat
  state : List Byte
deriving DecidableEq, Repr

/-- Where the bytes of a partial word sit (00_scope.md R11). -/
inductive Justify where
  /-- byte `k` always in word `k div 4`, lane `k mod 4` from the top: the value this hardware takes -/
  | msb
  /-- the bytes of the last, incomplete word right-justified: the rejected reading of 92_eei_decisions.md D6 -/
  | lsb
deriving DecidableEq, Repr

namespace Config

/-- `PARTIAL_JUSTIFY` (00_scope.md R11): "Value taken by this hardware: `MSB`"; log 13. -/
def partialJustify : Justify := .msb

/-- `CTX_MAX`, the capacity of a context buffer in bytes (00_scope.md R9): OPEN, log 17. -/
opaque ctxMax : Nat

/-- `CTX_SIZE`, the provider's actual required size in bytes (00_scope.md R9): OPEN, log 17. -/
opaque ctxSize : Nat

/-- `XF_ENC` (00_scope.md R10, 40_transform_port.md R121): from the provider's state, a handle and a 16-byte
block to a 16-byte block and the new context state of that handle. OPEN, log 7: nothing is known of it but that
it is total (XF_TOTAL) and answers 16 bytes (XF_FIXED), R124. -/
opaque xfEnc : List Context → Nat → Block → Block × List Byte

/-- `XF_DEC` (00_scope.md R10, 40_transform_port.md R121): as `xfEnc`. OPEN, log 7. -/
opaque xfDec : List Context → Nat → Block → Block × List Byte

/-- Free values: what a reset event leaves in `CV`, `TIN`, `TOUT` (10_state.md R38, R46), log 5. -/
opaque freeQuad : Nat → Quad

/-- Free values: what a reset event leaves in `NLEFT`, before its reduction to `AW - 4` bits (R46), log 5. -/
opaque freeNleft : Nat → Nat

/-- Free values: what a reset event leaves in `RLEN` (10_state.md R46), log 5. -/
opaque freeRlen : Nat → BitVec 4

end Config

end Sys2Proof
end

