-- ==== Sys2Proof/Syntax.lean ====
section
/-! DEFINITION. The block's instructions are its six commands (spec/30_encoding.md R93), and a command word that is
not one of them is rejected with a code (spec/60_exceptions.md R231). -/

namespace Sys2Proof

/-- The commands of 30_encoding.md R93, one constructor per row of spec/opcode_table.json. All operands but `CNT`
are implicit registers (R100). -/
inductive Instr where
  /-- `CBC.ENC` (43_cbc_encrypt.md R190) -/
  | cbcEnc
  /-- `CBC.DEC` (44_cbc_decrypt.md R210) -/
  | cbcDec
  /-- `PACK.B` (41_marshaller.md R144) -/
  | packB
  /-- `PACK.P cnt` (41_marshaller.md R145) -/
  | packP (cnt : BitVec 5)
  /-- `UNPACK.B` (41_marshaller.md R146) -/
  | unpackB
  /-- `UNPACK.P cnt` (41_marshaller.md R147) -/
  | unpackP (cnt : BitVec 5)
deriving DecidableEq, Repr

/-- The causes of a rejection, in their order of priority (60_exceptions.md R231, R234). -/
inductive ErrCode where
  | illegalOp
  | reservedBits
  | badCount
  | addrRange
  | badCtx
deriving DecidableEq, Repr

/-- What decoding a command word gives: a command, or the code it is rejected with (30_encoding.md R94). -/
inductive Decoded where
  | command (i : Instr)
  | reject (code : ErrCode)
deriving DecidableEq, Repr

end Sys2Proof
end

