-- ==== Sys2Proof/WellFormed.lean ====
section
/-! DEFINITION. Which terms of `Instr` are commands: the count of a partial marshaller command is 1 to 16
(spec/30_encoding.md R92). -/

namespace Sys2Proof

/-- "The legal values are 1 to 16 inclusive in `PACK.P` and `UNPACK.P`" (30_encoding.md R92). -/
def countLegal (cnt : BitVec 5) : Bool :=
  decide (1 ≤ cnt.toNat ∧ cnt.toNat ≤ 16)

/-- A command the block can be given: the count, where there is one, is legal (30_encoding.md R92, R95). -/
def Instr.wf : Instr → Bool
  | .cbcEnc => true
  | .cbcDec => true
  | .packB => true
  | .packP cnt => countLegal cnt
  | .unpackB => true
  | .unpackP cnt => countLegal cnt

end Sys2Proof
end

