-- ==== Sys2Proof/Decode.lean ====
section
/-! DEFINITION. The decoder of command words, total on all `2^32` of them (spec/30_encoding.md R94), the table of
R93 as data, and the encoder, written from the field layout of R90 and R101. -/

namespace Sys2Proof

/-- The `OP` field, bits 3:0 (30_encoding.md R90). -/
def opField (w : Word) : BitVec 4 := w.extractLsb' 0 4

/-- The `CNT` field, bits 8:4 (30_encoding.md R90). -/
def cntField (w : Word) : BitVec 5 := w.extractLsb' 4 5

/-- The `RSV` field, bits 31:9, which must be 0 (30_encoding.md R90). -/
def rsvField (w : Word) : BitVec 23 := w.extractLsb' 9 23

/-- Decoding a command word: the tests of 30_encoding.md R94 in their order, the first that fails deciding the code.
It reads nothing but the word. -/
def decode (w : Word) : Decoded :=
  let op := opField w
  let cnt := cntField w
  let rsv := rsvField w
  if ¬ (op = 1 ∨ op = 2 ∨ op = 4 ∨ op = 5 ∨ op = 6 ∨ op = 7) then .reject .illegalOp
  else if rsv ≠ 0 then .reject .reservedBits
  else if (op = 1 ∨ op = 2 ∨ op = 4 ∨ op = 6) ∧ cnt ≠ 0 then .reject .reservedBits
  else if (op = 5 ∨ op = 7) ∧ countLegal cnt = false then .reject .badCount
  else if op = 1 then .command .cbcEnc
  else if op = 2 then .command .cbcDec
  else if op = 4 then .command .packB
  else if op = 5 then .command (.packP cnt)
  else if op = 6 then .command .unpackB
  else .command (.unpackP cnt)

/-- The opcode of a command (30_encoding.md R91). -/
def opcode : Instr → BitVec 4
  | .cbcEnc => 1
  | .cbcDec => 2
  | .packB => 4
  | .packP _ => 5
  | .unpackB => 6
  | .unpackP _ => 7

/-- The `CNT` field of a command: its count, or 0 where it has none (30_encoding.md R92). -/
def countField : Instr → BitVec 5
  | .cbcEnc => 0
  | .cbcDec => 0
  | .packB => 0
  | .packP cnt => cnt
  | .unpackB => 0
  | .unpackP cnt => cnt

/-- The word of a command: `OP | (CNT << 4)`, bits 31:9 zero (30_encoding.md R90, R101). -/
def encode (i : Instr) : Word :=
  ((countField i).setWidth 32 <<< 4) ||| (opcode i).setWidth 32

/-- One row of the command table: a word `w` is the command when `(w & mask) == match` (30_encoding.md R93). -/
structure TableRow where
  mnemonic : String
  mask : Word
  pattern : Word
deriving DecidableEq, Repr

/-- The command table of 30_encoding.md R93. -/
def commandTable : List TableRow :=
  [⟨"CBC.ENC", 0xFFFFFFFF, 0x00000001⟩,
   ⟨"CBC.DEC", 0xFFFFFFFF, 0x00000002⟩,
   ⟨"PACK.B", 0xFFFFFFFF, 0x00000004⟩,
   ⟨"PACK.P", 0xFFFFFE0F, 0x00000005⟩,
   ⟨"UNPACK.B", 0xFFFFFFFF, 0x00000006⟩,
   ⟨"UNPACK.P", 0xFFFFFE0F, 0x00000007⟩]

/-- `w` is in a row of the table. -/
def TableRow.covers (r : TableRow) (w : Word) : Bool := w &&& r.mask == r.pattern

/-- The mnemonic of a command (30_encoding.md R93). -/
def mnemonic : Instr → String
  | .cbcEnc => "CBC.ENC"
  | .cbcDec => "CBC.DEC"
  | .packB => "PACK.B"
  | .packP _ => "PACK.P"
  | .unpackB => "UNPACK.B"
  | .unpackP _ => "UNPACK.P"

/-- The command word that the number `w` of `nbits` bits stands for: bits above `nbits` are 0. A command is a number
written to a register, with no byte order (91_not_in_source.md N8); log 23. -/
def tableWord (nbits w : Nat) : Word := BitVec.ofNat 32 (w % 2 ^ nbits)

/-- The instruction the decoder reads from a row's bits, none where the word is rejected. -/
def decodeTableWord (nbits w : Nat) : Option Instr :=
  match decode (tableWord nbits w) with
  | .command i => some i
  | .reject _ => none

end Sys2Proof
end

