-- ==== Sys2Proof/Machine/State.lean ====
section
/-! DEFINITION. The state of one instance of the block, of what it reaches (caller memory, provider contexts, the
fatal input) and of the outside world that acts on it, all as plain data (spec/10_state.md R20). -/

namespace Sys2Proof.Machine

/-- The sequencer's control state (10_state.md R41); value 6 of the 3-bit field is never taken. -/
inductive Phase where
  | idle
  | loadIv
  | block
  | partialBlock
  | storeIv
  | marshal
  | halt
deriving DecidableEq, Repr

/-- The twelve host-visible registers (10_state.md R21). -/
inductive Reg where
  | cmd
  | status
  | inAddr
  | outAddr
  | ivAddr
  | len
  | ctx
  | errInfo
  | w0
  | w1
  | w2
  | w3
deriving DecidableEq, Repr

/-- The two kinds of byte access the block makes (00_scope.md R12). -/
inductive Access where
  | read
  | write
deriving DecidableEq, Repr

/-- A range `[lo, lo + size)` of byte addresses at which the platform's memory does not admit the block's accesses
of one kind: `MEM_ADMIT` as data (00_scope.md R12), log 10. -/
structure Denial where
  lo : Nat
  size : Nat
  access : Access
deriving DecidableEq, Repr

/-- Caller memory: (address, byte) pairs, addresses rising, none equal to what an unlisted address reads as
(10_state.md R45, 20_memory.md R60). `Memory.wf` in Machine/Ops.lean is that form. -/
abbrev Memory := List Host.Cell

/-- What the host and the environment can do, one event each, between two sequencer steps (42_sequencer.md R160,
R173; 00_scope.md section 6); log 2. -/
inductive Input where
  /-- a host write of `value`, which the register truncates to its width, to the register at `offset` from `REG_BASE`
  (10_state.md R21, R31 to R33) -/
  | hostWrite (offset : Nat) (value : Nat)
  /-- a host read of the register at `offset` from `REG_BASE` (10_state.md R30) -/
  | hostRead (offset : Nat)
  /-- "repeat rd STATUS until BUSY = 0" (30_encoding.md R101) -/
  | wait
  /-- the sequencer is the one to move: it takes its step, if it has one (42_sequencer.md R160) -/
  | sequencer
  /-- the reset event of the block (70_reset_and_hazards.md R260) -/
  | reset
  /-- the adapter drives `fatal_in` to 1 (10_state.md R44) -/
  | fatalRise
  /-- reset of the adapter, after which `fatal_in` is 0 (10_state.md R44) -/
  | adapterReset
  /-- the host has the adapter create a context, `init_encrypt` or `init_decrypt`, which leaves `state` in its buffer
  (40_transform_port.md R123, R126, R127; 70_reset_and_hazards.md R264); of a handle already valid for `dir`, log 27 -/
  | initContext (dir : Dir) (handle : Nat) (state : List Byte)
  /-- the caller discards a context (40_transform_port.md R123, R128); of a handle that names none, log 27 -/
  | discardContext (dir : Dir) (handle : Nat)
  /-- the host stores one byte in caller memory, which it owns (10_state.md R45) -/
  | memWrite (addr : Nat) (value : Byte)
  /-- another agent stores one byte in caller memory (20_memory.md R75) -/
  | agentWrite (addr : Nat) (value : Byte)
deriving DecidableEq, Repr

/-- Why the machine stops. The spec's own abnormal outcomes (rejection, fatal halt, stuck: 60_exceptions.md R230)
are next states, not faults; these two are of states that no run reaches; log 12. -/
inductive Fault where
  /-- Raised by a sequencer step whose read or write range runs past `2^AW`: `MemRead` and `MemWrite` are defined
  for `addr + n <= 2^AW` only (20_memory.md R62, R63). Safe: the model stops where the spec defines nothing. -/
  | pastTop
  /-- Raised by a sequencer turn in a phase that has no step for the accepted command, or with no block left in
  BLOCK, or no remainder in PARTIAL (42_sequencer.md R160, R169; 10_state.md R39). Safe: the model stops where the
  spec gives no step. -/
  | noEnabledStep
deriving DecidableEq, Repr

/-- Why an instruction has no meaning here. -/
inductive Refusal where
  /-- Raised only by an arm of `exec` that has no meaning yet, with the mnemonic of its row; no arm is one. Safe:
  nothing is claimed of it. -/
  | notModelled (mnemonic : String)
deriving DecidableEq, Repr

/-- The complete state (10_state.md R20). -/
structure State where
  /-- `AW`, the width in bits of an address and of `LEN`: a parameter of the instance (00_scope.md R8); log 1 -/
  addrWidth : Nat
  /-- `CMD`, the last accepted command word (R22) -/
  cmd : Word
  /-- `STATUS.DONE` (R23) -/
  done : Bool
  /-- `STATUS.ERR` with `STATUS.ERRCODE`: ERR = 1 with the code it holds, or ERR = 0 and ERRCODE = 0 (R23); log 22 -/
  err : Option ErrCode
  /-- `IN_ADDR`, the input cursor, AW bits (R24) -/
  inAddr : Nat
  /-- `OUT_ADDR`, the output cursor, AW bits (R25) -/
  outAddr : Nat
  /-- `IV_ADDR`, AW bits (R26) -/
  ivAddr : Nat
  /-- `LEN`, AW bits (R27) -/
  len : Nat
  /-- `CTX`, the context handle, AW bits (R28) -/
  ctx : Nat
  /-- `ERRINFO`, the word of the last rejection (R29) -/
  errInfo : Word
  /-- `W[0..3]` (R34) -/
  w : Quad
  /-- `CV[0..3]`, the chaining value (R35) -/
  cv : Quad
  /-- `TIN[0..3]` (R36) -/
  tin : Quad
  /-- `TOUT[0..3]` (R37) -/
  tout : Quad
  /-- `PHASE` (R41); BUSY and FATAL are views of it (R23) -/
  phase : Phase
  /-- `NLEFT`, the full blocks still to process, `AW - 4` bits (R39) -/
  nleft : Nat
  /-- `RLEN`, the length of the partial block (R40) -/
  rlen : BitVec 4
  /-- caller memory (R45) -/
  mem : Memory
  /-- the provider's context state (R43) -/
  contexts : List Context
  /-- `fatal_in` (R44) -/
  fatalIn : Bool
  /-- the accesses `MEM_ADMIT` does not admit (00_scope.md R12); log 10 -/
  denied : List Denial
  /-- the model's own: what the outside world does next, first event first; log 2 -/
  inputs : List Input
  /-- the model's own: the value the last host read returned (R30); log 16 -/
  rdData : Nat
  /-- the model's own: counts the free values drawn; log 5 -/
  freeIx : Nat
deriving DecidableEq, Repr

/-- The state right after reset (10_state.md R46) of the spec's default instance, AW = 64 (log 1): every visible
register 0, `PHASE` = IDLE. The hidden registers, which the spec leaves unspecified, are 0 by log 5; what lies outside
the block is as logs 4, 6 and 10 say. -/
def State.reset : State where
  addrWidth := Config.addrWidth
  cmd := 0
  done := false
  err := none
  inAddr := 0
  outAddr := 0
  ivAddr := 0
  len := 0
  ctx := 0
  errInfo := 0
  w := Quad.zero
  cv := Quad.zero
  tin := Quad.zero
  tout := Quad.zero
  phase := .idle
  nleft := 0
  rlen := 0
  mem := []
  contexts := []
  fatalIn := false
  denied := []
  inputs := []
  rdData := 0
  freeIx := 0

end Sys2Proof.Machine
end

