-- ==== Sys2Proof/Machine/Operands.lean ====
section
/-! DEFINITION. Operand forms: the marshaller's `pack` and `unpack` (spec/41_marshaller.md R140 to R142), the length
split and the effective count (spec/30_encoding.md R98, R99), address ranges (spec/42_sequencer.md R166) and the
implicit ranges of each command (spec/30_encoding.md R100). -/

namespace Sys2Proof.Machine

/-- Where byte `k` of a group of `c` bytes sits in word `k div 4`: the lowest of its eight bit positions. Under `msb`
it is `24 - 8*(k mod 4)` for every `c` (41_marshaller.md R140); under `lsb` the bytes of the last, incomplete word
are right-justified (92_eei_decisions.md D6). -/
def laneShift (j : Justify) (c k : Nat) : Nat :=
  match j with
  | .msb => 24 - 8 * (k % 4)
  | .lsb => if k / 4 = c / 4 then 8 * (c % 4 - 1 - k % 4) else 24 - 8 * (k % 4)

/-- The contribution of byte `k` of `s` to its word; lanes beyond the bytes are zero (41_marshaller.md R141). -/
def lane (j : Justify) (s : List Byte) (k : Nat) : Word :=
  if k < s.length then (s.getD k 0).setWidth 32 <<< laneShift j s.length k else 0

/-- Word `i` of the packed quad (41_marshaller.md R140). -/
def packWord (j : Justify) (s : List Byte) (i : Nat) : Word :=
  lane j s (4 * i) ||| lane j s (4 * i + 1) ||| lane j s (4 * i + 2) ||| lane j s (4 * i + 3)

/-- `pack` under either value of `PARTIAL_JUSTIFY`; the count is the length of the byte sequence. -/
def packAs (j : Justify) (s : List Byte) : Quad :=
  ⟨packWord j s 0, packWord j s 1, packWord j s 2, packWord j s 3⟩

/-- `pack(s, c)` with `c` the length of `s` (41_marshaller.md R140). -/
def pack (s : List Byte) : Quad := packAs Config.partialJustify s

/-- Byte `k` of the `c` bytes of a quad. -/
def unpackByte (j : Justify) (q : Quad) (c k : Nat) : Byte :=
  (q.get (k / 4) >>> laneShift j c k).setWidth 8

/-- `unpack` under either value of `PARTIAL_JUSTIFY`. -/
def unpackAs (j : Justify) (q : Quad) (c : Nat) : List Byte :=
  (List.range c).map (unpackByte j q c)

/-- `unpack(q, c)` (41_marshaller.md R142): exactly `c` bytes. -/
def unpack (q : Quad) (c : Nat) : List Byte := unpackAs Config.partialJustify q c

/-- `unpack(q, c)` has exactly `c` bytes (41_marshaller.md R142). -/
theorem length_unpack (q : Quad) (c : Nat) : (unpack q c).length = c := by
  simp [unpack, unpackAs]

/-- `unpack(q, 16)` as a block, the form the provider's primitive is applied to (40_transform_port.md R121). -/
def quadBlock (q : Quad) : Block := ⟨unpack q 16, length_unpack q 16⟩

/-- `LEN div 16`, the number of full blocks (30_encoding.md R98). -/
def blockCount (len : Nat) : Nat := len / 16

/-- `LEN mod 16`, the partial remainder (30_encoding.md R98). -/
def remainder (len : Nat) : BitVec 4 := BitVec.ofNat _ (len % 16)

/-- An integer as a value of `aw` bits: modulo `2^aw` (00_scope.md section 5). -/
def fit (aw n : Nat) : Nat := n % 2 ^ aw

/-- A range of `n` bytes from `a` is *in range* when `a + n <= 2^AW` as integers (42_sequencer.md R166). -/
def inRange (aw : Nat) (a : Nat) (n : Nat) : Bool := decide (a + n ≤ 2 ^ aw)

/-- The effective count of a marshaller command (30_encoding.md R99). -/
def effectiveCount (cnt : BitVec 5) : Nat := cnt.toNat

/-- The cursor after `n` bytes: `addr + n` modulo `2^AW` (41_marshaller.md R149). -/
def advance (aw : Nat) (a : Nat) (n : Nat) : Nat := fit aw (a + n)

/-- `next(n, r)`, the transition after LOAD_IV and after each BLOCK step (42_sequencer.md R169). -/
def nextPhase (n : Nat) (r : BitVec 4) : Phase :=
  if n ≠ 0 then .block else if r ≠ 0 then .partialBlock else .storeIv

/-- The offset of a register from `REG_BASE` (10_state.md R21). -/
def regOffset : Reg → Nat
  | .cmd => 0x00
  | .status => 0x08
  | .inAddr => 0x10
  | .outAddr => 0x18
  | .ivAddr => 0x20
  | .len => 0x28
  | .ctx => 0x30
  | .errInfo => 0x38
  | .w0 => 0x40
  | .w1 => 0x48
  | .w2 => 0x50
  | .w3 => 0x58

/-- All twelve registers (10_state.md R21). -/
def allRegs : List Reg :=
  [.cmd, .status, .inAddr, .outAddr, .ivAddr, .len, .ctx, .errInfo, .w0, .w1, .w2, .w3]

/-- The register at an offset; none at an offset not in the table (10_state.md R33). -/
def regAt (offset : Nat) : Option Reg := allRegs.find? fun r => regOffset r == offset

end Sys2Proof.Machine
end

