-- ==== Sys2Proof/Machine/Flags.lean ====
section
/-! DEFINITION. The status flags and the `STATUS` register, which is a view of them (spec/10_state.md R23, R41, R42;
spec/60_exceptions.md R231). -/

namespace Sys2Proof.Machine

/-- The number of a phase in `STATUS[10:8]` (10_state.md R41). -/
def phaseCode : Phase → BitVec 3
  | .idle => 0
  | .loadIv => 1
  | .block => 2
  | .partialBlock => 3
  | .storeIv => 4
  | .marshal => 5
  | .halt => 7

/-- The number of a rejection in `STATUS.ERRCODE` (60_exceptions.md R231). -/
def errNumber : ErrCode → BitVec 4
  | .illegalOp => 1
  | .reservedBits => 2
  | .badCount => 3
  | .addrRange => 4
  | .badCtx => 5

/-- BUSY is 1 exactly in LOAD_IV, BLOCK, PARTIAL, STORE_IV and MARSHAL (10_state.md R23). -/
def Phase.busy : Phase → Bool
  | .idle => false
  | .loadIv => true
  | .block => true
  | .partialBlock => true
  | .storeIv => true
  | .marshal => true
  | .halt => false

/-- `STATUS.BUSY` (10_state.md R23). -/
def State.busy (s : State) : Bool := s.phase.busy

/-- `STATUS.FATAL`: 1 exactly when `PHASE` is HALT (10_state.md R23). -/
def State.fatal (s : State) : Bool := decide (s.phase = .halt)

/-- `STATUS.ERRCODE`: 0 whenever ERR = 0 (10_state.md R23). -/
def State.errCode (s : State) : BitVec 4 :=
  match s.err with
  | none => 0
  | some c => errNumber c

/-- The `STATUS` register (10_state.md R23): PHASE, ERRCODE, FATAL, ERR, DONE, BUSY from bit 10 down; bits 31:11
read as 0. -/
def State.status (s : State) : Word :=
  ((phaseCode s.phase).setWidth 32 <<< 8) ||| (s.errCode.setWidth 32 <<< 4)
    ||| ((BitVec.ofBool s.fatal).setWidth 32 <<< 3) ||| ((BitVec.ofBool s.err.isSome).setWidth 32 <<< 2)
    ||| ((BitVec.ofBool s.done).setWidth 32 <<< 1) ||| (BitVec.ofBool s.busy).setWidth 32

end Sys2Proof.Machine
end

