-- ==== Sys2Proof/Machine/Ops.lean ====
section
/-! DEFINITION. The named operations over memory, the register file and the transform port, and the three abnormal
outcomes as shared operations: rejection, fatal halt, stuck (spec/60_exceptions.md R230). -/

namespace Sys2Proof.Machine

/-! ## Caller memory -/

namespace Memory

/-- What an address that memory does not list reads as. DESIGN CHOICE, log 4: the spec gives no initial contents. -/
def unlisted : Byte := 0

/-- The byte at an address. -/
def read : Memory → Nat → Byte
  | [], _ => unlisted
  | (k, v) :: m, a => if k = a then v else read m a

/-- Putting a byte before a memory whose addresses are all higher, keeping the canonical form. -/
def cons (a : Nat) (b : Byte) (m : Memory) : Memory :=
  if b = unlisted then m else (a, b) :: m

/-- Storing one byte, keeping the canonical form: the byte an unlisted address reads as is not listed. -/
def write : Memory → Nat → Byte → Memory
  | [], a, b => cons a b []
  | (k, v) :: m, a, b =>
    if a < k then cons a b ((k, v) :: m)
    else if a = k then cons a b m
    else (k, v) :: write m a b

/-- `MemRead(addr, n)`: the bytes at `addr`, `addr+1`, …, ascending (20_memory.md R62). -/
def readBytes (m : Memory) (a n : Nat) : List Byte :=
  (List.range n).map fun k => read m (a + k)

/-- `MemWrite(addr, n, s)`, with `n` the length of `s`: byte by byte, ascending, and nothing else
(20_memory.md R63). -/
def writeBytes : Memory → Nat → List Byte → Memory
  | m, _, [] => m
  | m, a, b :: s => writeBytes (write m a b) (a + 1) s

/-- Every address of the memory is at least `lo` and below `2^AW`, the addresses rise, and no entry equals what an
unlisted address reads as. -/
def wfFrom (aw : Nat) : Nat → Memory → Bool
  | _, [] => true
  | lo, (k, v) :: m => decide (lo ≤ k) && decide (k < 2 ^ aw) && decide (v ≠ unlisted) && wfFrom aw (k + 1) m

/-- The canonical form of a memory of `2^aw` bytes (20_memory.md R60: addresses `0` to `2^AW - 1`). -/
def wf (m : Memory) (aw : Nat) : Bool := wfFrom aw 0 m

end Memory

/-! ## What the platform admits (20_memory.md R66) -/

/-- `MEM_ADMIT`: whether the platform admits a byte access (00_scope.md R12); log 10. -/
def State.admits (s : State) (acc : Access) (a : Nat) : Bool :=
  !s.denied.any fun d => d.access == acc && decide (d.lo ≤ a) && decide (a < d.lo + d.size)

/-- All `n` byte accesses from `a` are admitted. -/
def State.admitsAll (s : State) (acc : Access) (a : Nat) (n : Nat) : Bool :=
  (List.range n).all fun k => s.admits acc (a + k)

/-- One sequencer step that reads the bytes of the range `rd`, writes those of `wr` and leaves `after`. "Admission of
all bytes of a step is tested before the step's first access": where one is not admitted the step does not happen
and the block is stuck, which is a state in which nothing has changed (20_memory.md R66); log 11. A range past the
top of the address space, which no accepted command has (42_sequencer.md R166), is a fault; log 12. -/
def State.sequencerStep (s : State) (rd wr : Nat × Nat) (after : State) : Host.Outcome State Fault Refusal :=
  if inRange s.addrWidth rd.1 rd.2 && inRange s.addrWidth wr.1 wr.2 then
    if s.admitsAll .read rd.1 rd.2 && s.admitsAll .write wr.1 wr.2 then .next after else .next s
  else .fault .pastTop

/-! ## The transform port (40_transform_port.md) -/

/-- The provider's function for a direction (40_transform_port.md R121). -/
def xf (d : Dir) : List Context → Nat → Block → Block × List Byte :=
  match d with
  | .enc => Config.xfEnc
  | .dec => Config.xfDec

/-- `XF_VALID(dir, h)`: `h` names a context that the `init` of that direction has created and the caller has not
discarded (40_transform_port.md R123); log 8. -/
def xfValid (P : List Context) (d : Dir) (h : Nat) : Bool :=
  P.any fun c => c.dir == d && c.handle == h

/-- The provider's state with the context of `h` for `d` holding `bytes`; no other context changes
(40_transform_port.md R121). -/
def setContext (P : List Context) (d : Dir) (h : Nat) (bytes : List Byte) : List Context :=
  P.map fun c => if c.dir = d ∧ c.handle = h then { c with state := bytes } else c

/-- The provider's state without the context of `h` for `d` (40_transform_port.md R128). -/
def dropContext (P : List Context) (d : Dir) (h : Nat) : List Context :=
  P.filter fun c => !(c.dir == d && c.handle == h)

/-- `XF(dir, h, q)`: the output quad and the provider's new state (40_transform_port.md R121); logs 7, 9. -/
def transform (P : List Context) (d : Dir) (h : Nat) (q : Quad) : Quad × List Context :=
  let y := xf d P h (quadBlock q)
  (pack y.1.bytes, setContext P d h y.2)

/-! ## Abnormal outcomes and acceptance -/

/-- `raise Reject(code)` for the written word `w` (60_exceptions.md R233). -/
def State.reject (s : State) (code : ErrCode) (w : Word) : State :=
  { s with err := some code, done := false, errInfo := w }

/-- Entry to the fatal halt (60_exceptions.md R240): `PHASE <- HALT` and nothing else. -/
def State.enterHalt (s : State) : State := { s with phase := .halt }

/-- What every acceptance does (42_sequencer.md R164): `CMD <- w`, DONE, ERR and ERRCODE cleared, the next phase. -/
def State.accept (s : State) (w : Word) (p : Phase) : State :=
  { s with cmd := w, done := false, err := none, phase := p }

/-- The register checks of a CBC command and its acceptance (42_sequencer.md R162 rows 4 and 5, R164, R166, R167). -/
def State.commandCbc (s : State) (d : Dir) (w : Word) : State :=
  if !(inRange s.addrWidth s.inAddr s.len && inRange s.addrWidth s.outAddr s.len &&
      inRange s.addrWidth s.ivAddr 16) then
    s.reject .addrRange w
  else if !xfValid s.contexts d s.ctx then s.reject .badCtx w
  else { s.accept w .loadIv with nleft := blockCount s.len, rlen := remainder s.len }

/-- The checks of a marshaller command whose cursor is `a` and count `c`, and its acceptance (42_sequencer.md R162
rows 3 and 4, R164, R166). -/
def State.commandMarshal (s : State) (legal : Bool) (a : Nat) (c : Nat) (w : Word) : State :=
  if !legal then s.reject .badCount w
  else if !inRange s.addrWidth a c then s.reject .addrRange w
  else s.accept w .marshal

/-- Completion: `PHASE <- IDLE`, `DONE <- 1` (42_sequencer.md R171). -/
def State.complete (s : State) : State := { s with phase := .idle, done := true }

/-! ## The host-visible register file (10_state.md R21, R30, R31) -/

/-- The value of a register; as a number it is zero-extended to any width (10_state.md R21, R30). -/
def State.readReg (s : State) : Reg → Nat
  | .cmd => s.cmd.toNat
  | .status => s.status.toNat
  | .inAddr => s.inAddr
  | .outAddr => s.outAddr
  | .ivAddr => s.ivAddr
  | .len => s.len
  | .ctx => s.ctx
  | .errInfo => s.errInfo.toNat
  | .w0 => s.w.w0.toNat
  | .w1 => s.w.w1.toNat
  | .w2 => s.w.w2.toNat
  | .w3 => s.w.w3.toNat

/-- What a read at an offset returns; 0 at an offset that is no register's (10_state.md R33). -/
def State.readOffset (s : State) (offset : Nat) : Nat :=
  match regAt offset with
  | some r => s.readReg r
  | none => 0

/-- A write to `STATUS` while IDLE: write-one-to-clear on DONE (bit 1) and on ERR (bit 2), with which ERRCODE falls
to 0 (10_state.md R23). -/
def State.writeStatus (s : State) (v : Word) : State :=
  { s with done := s.done && !v.getLsbD 1, err := if v.getLsbD 2 then none else s.err }

/-- A host write to a register other than `CMD` while IDLE: the value truncated to the register's width is stored;
`STATUS` clears flags; `ERRINFO` ignores it (10_state.md R31). A write to `CMD` is `considerWrite`. -/
def State.writeReg (s : State) (r : Reg) (v : Nat) : State :=
  match r with
  | .cmd => s
  | .status => s.writeStatus (BitVec.ofNat 32 v)
  | .inAddr => { s with inAddr := fit s.addrWidth v }
  | .outAddr => { s with outAddr := fit s.addrWidth v }
  | .ivAddr => { s with ivAddr := fit s.addrWidth v }
  | .len => { s with len := fit s.addrWidth v }
  | .ctx => { s with ctx := fit s.addrWidth v }
  | .errInfo => s
  | .w0 => { s with w := { s.w with w0 := BitVec.ofNat 32 v } }
  | .w1 => { s with w := { s.w with w1 := BitVec.ofNat 32 v } }
  | .w2 => { s with w := { s.w with w2 := BitVec.ofNat 32 v } }
  | .w3 => { s with w := { s.w with w3 := BitVec.ofNat 32 v } }

/-! ## Events of the host and the environment -/

/-- A store of one byte in caller memory by an agent other than the block (10_state.md R45, 20_memory.md R75), at an
address of AW bits (log 1). -/
def State.storeByte (s : State) (a : Nat) (b : Byte) : State :=
  { s with mem := s.mem.write (fit s.addrWidth a) b }

/-- The reset event (70_reset_and_hazards.md R260, 10_state.md R46): every visible register 0, `PHASE` = IDLE, flags
clear; `CV`, `TIN`, `TOUT`, `NLEFT`, `RLEN` unspecified, hence free values (log 5); caller memory, provider state and
`fatal_in` untouched. -/
def State.resetEvent (s : State) : State :=
  { s with
    cmd := 0, done := false, err := none, inAddr := 0, outAddr := 0, ivAddr := 0, len := 0, ctx := 0,
    errInfo := 0, w := Quad.zero, phase := .idle,
    cv := Config.freeQuad s.freeIx, tin := Config.freeQuad (s.freeIx + 1), tout := Config.freeQuad (s.freeIx + 2),
    nleft := fit (s.addrWidth - 4) (Config.freeNleft s.freeIx),
    rlen := Config.freeRlen s.freeIx, freeIx := s.freeIx + 3 }

/-- `init_encrypt` or `init_decrypt` by the host with the adapter (40_transform_port.md R126, R127): where the
provider's context size fits the maximum a context results, under a handle of AW bits (10_state.md R28), else the
adapter reports the fatal condition; log 17. DESIGN CHOICE, log 27: where the handle is already valid for the direction
the new bytes replace the old context's. The spec only names "re-initialise" (70_reset_and_hazards.md R266). -/
def State.initContext (s : State) (d : Dir) (h : Nat) (bytes : List Byte) : State :=
  if Config.ctxSize ≤ Config.ctxMax then
    let h := fit s.addrWidth h
    { s with contexts := ⟨d, h, bytes⟩ :: dropContext s.contexts d h }
  else { s with fatalIn := true }

end Sys2Proof.Machine
end

