-- ==== Sys2Proof/Machine/Sequencer.lean ====
section
/-! DEFINITION. The steps common to both CBC engines: LOAD_IV, STORE_IV, and what a BLOCK and a PARTIAL step do
around an engine's pass (spec/42_sequencer.md R168 to R172). -/

namespace Sys2Proof.Machine

/-- What the LOAD_IV step leaves (42_sequencer.md R168). -/
def State.loadIvBody (s : State) : State :=
  { s with cv := pack (s.mem.readBytes s.ivAddr 16), phase := nextPhase s.nleft s.rlen }

/-- The LOAD_IV step (42_sequencer.md R168): it reads exactly the 16 IV bytes and writes no memory. -/
def State.loadIvStep (s : State) : Host.Outcome State Fault Refusal :=
  s.sequencerStep (s.ivAddr, 16) (s.ivAddr, 0) s.loadIvBody

/-- What the STORE_IV step leaves (42_sequencer.md R170). -/
def State.storeIvBody (s : State) : State :=
  { s with mem := s.mem.writeBytes s.ivAddr (unpack s.cv 16) }.complete

/-- The STORE_IV step (42_sequencer.md R170): all 16 bytes are written every time. -/
def State.storeIvStep (s : State) : Host.Outcome State Fault Refusal :=
  s.sequencerStep (s.ivAddr, 0) (s.ivAddr, 16) s.storeIvBody

/-- The end of a BLOCK step: `NLEFT <- NLEFT - 1`, `PHASE <- next(NLEFT, RLEN)` with the new `NLEFT`
(43_cbc_encrypt.md R191, 44_cbc_decrypt.md R211). -/
def State.endBlock (s : State) : State :=
  { s with nleft := s.nleft - 1, phase := nextPhase (s.nleft - 1) s.rlen }

/-- The end of a PARTIAL step: `PHASE <- STORE_IV` (43_cbc_encrypt.md R192, 44_cbc_decrypt.md R212). -/
def State.endPartial (s : State) : State := { s with phase := .storeIv }

/-- A BLOCK step around the engine's pass over 16 bytes; it is taken only when `NLEFT > 0` (42_sequencer.md R169,
10_state.md R39; log 12). -/
def State.blockStep (s : State) (pass : State) : Host.Outcome State Fault Refusal :=
  if s.nleft = 0 then .fault .noEnabledStep
  else s.sequencerStep (s.inAddr, 16) (s.outAddr, 16) pass.endBlock

/-- A PARTIAL step around the engine's pass over `RLEN` bytes; it is taken only when `RLEN` is not 0
(42_sequencer.md R169; log 12). -/
def State.partialStep (s : State) (pass : State) : Host.Outcome State Fault Refusal :=
  if s.rlen = 0 then .fault .noEnabledStep
  else s.sequencerStep (s.inAddr, s.rlen.toNat) (s.outAddr, s.rlen.toNat) pass.endPartial

end Sys2Proof.Machine
end

