-- ==== Sys2Proof/Machine/CbcDecrypt.lean ====
section
/-! DEFINITION. The CBC decryption engine and its command (spec/44_cbc_decrypt.md R210 to R212). -/

namespace Sys2Proof.Machine

/-- One pass of the decryption engine over the next `c` input bytes: read, transform the ciphertext itself, XOR with
the mask, write the first `c` bytes, carry the ciphertext as read (44_cbc_decrypt.md R211 with `c = 16`, R212 with
`c = RLEN`). -/
def State.decPass (s : State) (c : Nat) : State :=
  let tin := pack (s.mem.readBytes s.inAddr c)
  let t := transform s.contexts .dec s.ctx tin
  let y := t.1.xor s.cv
  { s with
    tin := tin
    inAddr := advance s.addrWidth s.inAddr c
    tout := t.1
    contexts := t.2
    mem := s.mem.writeBytes s.outAddr (unpack y c)
    outAddr := advance s.addrWidth s.outAddr c
    cv := tin }

/-- `CBC.DEC` (44_cbc_decrypt.md R210): while IDLE the checks and the acceptance; then one step per phase. -/
def execCbcDec (s : State) : Host.Outcome State Fault Refusal :=
  match s.phase with
  | .idle => .next (s.commandCbc .dec (encode .cbcDec))
  | .loadIv => s.loadIvStep
  | .block => s.blockStep (s.decPass 16)
  | .partialBlock => s.partialStep (s.decPass s.rlen.toNat)
  | .storeIv => s.storeIvStep
  | .halt => .next s
  | .marshal => .fault .noEnabledStep

end Sys2Proof.Machine
end

