-- ==== Sys2Proof/Machine/CbcEncrypt.lean ====
section
/-! DEFINITION. The CBC encryption engine and its command (spec/43_cbc_encrypt.md R190 to R192). -/

namespace Sys2Proof.Machine

/-- One pass of the encryption engine over the next `c` input bytes: read, XOR with the chaining value, transform,
write the first `c` bytes of the result, carry the whole result (43_cbc_encrypt.md R191 with `c = 16`, R192 with
`c = RLEN`). -/
def State.encPass (s : State) (c : Nat) : State :=
  let tin := pack (s.mem.readBytes s.inAddr c)
  let x := tin.xor s.cv
  let t := transform s.contexts .enc s.ctx x
  { s with
    tin := tin
    inAddr := advance s.addrWidth s.inAddr c
    tout := t.1
    contexts := t.2
    mem := s.mem.writeBytes s.outAddr (unpack t.1 c)
    outAddr := advance s.addrWidth s.outAddr c
    cv := t.1 }

/-- `CBC.ENC` (43_cbc_encrypt.md R190): while IDLE the checks and the acceptance; then one step per phase. -/
def execCbcEnc (s : State) : Host.Outcome State Fault Refusal :=
  match s.phase with
  | .idle => .next (s.commandCbc .enc (encode .cbcEnc))
  | .loadIv => s.loadIvStep
  | .block => s.blockStep (s.encPass 16)
  | .partialBlock => s.partialStep (s.encPass s.rlen.toNat)
  | .storeIv => s.storeIvStep
  | .halt => .next s
  | .marshal => .fault .noEnabledStep

end Sys2Proof.Machine
end

