-- ==== Sys2Proof/Machine/Marshaller.lean ====
section
/-! DEFINITION. The four marshaller commands (spec/41_marshaller.md R144 to R148). While IDLE a command is checked and
accepted; in MARSHAL the one step performs it whole and completes. -/

namespace Sys2Proof.Machine

/-- The body of the MARSHAL step of `PACK.*` with `c` bytes (41_marshaller.md R144, R145). -/
def State.packBody (s : State) (c : Nat) : State :=
  { s with w := pack (s.mem.readBytes s.inAddr c), inAddr := advance s.addrWidth s.inAddr c }.complete

/-- The body of the MARSHAL step of `UNPACK.*` with `c` bytes (41_marshaller.md R146, R147). -/
def State.unpackBody (s : State) (c : Nat) : State :=
  { s with mem := s.mem.writeBytes s.outAddr (unpack s.w c), outAddr := advance s.addrWidth s.outAddr c }.complete

/-- `PACK.B` (41_marshaller.md R144). -/
def execPackB (s : State) : Host.Outcome State Fault Refusal :=
  match s.phase with
  | .idle => .next (s.commandMarshal true s.inAddr 16 (encode .packB))
  | .marshal => s.sequencerStep (s.inAddr, 16) (s.inAddr, 0) (s.packBody 16)
  | .halt => .next s
  | .loadIv => .fault .noEnabledStep
  | .block => .fault .noEnabledStep
  | .partialBlock => .fault .noEnabledStep
  | .storeIv => .fault .noEnabledStep

/-- `PACK.P cnt` (41_marshaller.md R145). -/
def execPackP (cnt : BitVec 5) (s : State) : Host.Outcome State Fault Refusal :=
  let c := effectiveCount cnt
  match s.phase with
  | .idle => .next (s.commandMarshal (countLegal cnt) s.inAddr c (encode (.packP cnt)))
  | .marshal => s.sequencerStep (s.inAddr, c) (s.inAddr, 0) (s.packBody c)
  | .halt => .next s
  | .loadIv => .fault .noEnabledStep
  | .block => .fault .noEnabledStep
  | .partialBlock => .fault .noEnabledStep
  | .storeIv => .fault .noEnabledStep

/-- `UNPACK.B` (41_marshaller.md R146). -/
def execUnpackB (s : State) : Host.Outcome State Fault Refusal :=
  match s.phase with
  | .idle => .next (s.commandMarshal true s.outAddr 16 (encode .unpackB))
  | .marshal => s.sequencerStep (s.outAddr, 0) (s.outAddr, 16) (s.unpackBody 16)
  | .halt => .next s
  | .loadIv => .fault .noEnabledStep
  | .block => .fault .noEnabledStep
  | .partialBlock => .fault .noEnabledStep
  | .storeIv => .fault .noEnabledStep

/-- `UNPACK.P cnt` (41_marshaller.md R147). -/
def execUnpackP (cnt : BitVec 5) (s : State) : Host.Outcome State Fault Refusal :=
  let c := effectiveCount cnt
  match s.phase with
  | .idle => .next (s.commandMarshal (countLegal cnt) s.outAddr c (encode (.unpackP cnt)))
  | .marshal => s.sequencerStep (s.outAddr, 0) (s.outAddr, c) (s.unpackBody c)
  | .halt => .next s
  | .loadIv => .fault .noEnabledStep
  | .block => .fault .noEnabledStep
  | .partialBlock => .fault .noEnabledStep
  | .storeIv => .fault .noEnabledStep

end Sys2Proof.Machine
end

