-- ==== Sys2Proof/Machine/Dispatch.lean ====
section
/-! DEFINITION. One arm per command: what the block does next about command `i`, which `PHASE` decides. While IDLE it
is the considered write of `i`'s word to `CMD` (spec/42_sequencer.md R161 to R164); while BUSY it is the one enabled
sequencer step of the accepted command `i` (R160); log 21. -/

namespace Sys2Proof.Machine

def exec (i : Instr) (s : State) : Host.Outcome State Fault Refusal :=
  match i with
  -- the CBC engines
  | .cbcEnc => Sys2Proof.Machine.execCbcEnc s
  | .cbcDec => Sys2Proof.Machine.execCbcDec s
  -- the marshaller
  | .packB => Sys2Proof.Machine.execPackB s
  | .packP cnt => Sys2Proof.Machine.execPackP cnt s
  | .unpackB => Sys2Proof.Machine.execUnpackB s
  | .unpackP cnt => Sys2Proof.Machine.execUnpackP cnt s

end Sys2Proof.Machine
end

