-- ==== Sys2Proof/Machine/HostPort.lean ====
section
/-! DEFINITION. The machine's turn: the considered write to `CMD`, the sequencer's turn, and every event of the host and
the environment (spec/42_sequencer.md R160, R161; spec/10_state.md R30 to R33; spec/70_reset_and_hazards.md R260);
then the host programs of spec/30_encoding.md R101 and R102 as lists of events. -/

namespace Sys2Proof.Machine

/-- A host write of `w` to `CMD` (42_sequencer.md R161): ignored unless `PHASE` = IDLE; with `fatal_in` = 1 the block
halts instead (60_exceptions.md R240); else the word is decoded and rejected or given to its command. -/
def considerWrite (w : Word) (s : State) : Host.Outcome State Fault Refusal :=
  if s.phase ≠ .idle then .next s
  else if s.fatalIn then .next s.enterHalt
  else
    match decode w with
    | .command i => exec i s
    | .reject code => .next (s.reject code w)

/-- The sequencer's turn (42_sequencer.md R160): none while IDLE or HALT; with `fatal_in` = 1 the halt instead of the
step (60_exceptions.md R240, sampled first: log 11); else the step of the accepted command. -/
def sequencerTurn (s : State) : Host.Outcome State Fault Refusal :=
  if s.busy = false then .next s
  else if s.fatalIn then .next s.enterHalt
  else
    match decode s.cmd with
    | .command i => exec i s
    | .reject _ => .fault .noEnabledStep

/-- A host write at an offset (10_state.md R31 to R33): to `CMD` as `considerWrite`; to another register only while
IDLE; ignored where no register is. -/
def hostWrite (offset : Nat) (v : Nat) (s : State) : Host.Outcome State Fault Refusal :=
  match regAt offset with
  | some .cmd => considerWrite (BitVec.ofNat 32 v) s
  | some r => if s.phase = .idle then .next (s.writeReg r v) else .next s
  | none => .next s

/-- A host read at an offset (10_state.md R30): the value is returned and nothing of the block changes. -/
def hostRead (offset : Nat) (s : State) : State := { s with rdData := s.readOffset offset }

/-- One round of `wait` (30_encoding.md R101): read `STATUS`; while BUSY the sequencer takes its turn and the `wait`
goes on (weak fairness, 42_sequencer.md R160), else the `wait` is over. -/
def waitRound (s : State) (rest : List Input) : Host.Outcome State Fault Refusal :=
  let s' := hostRead (regOffset .status) s
  if s.busy then sequencerTurn { s' with inputs := .wait :: rest } else .next { s' with inputs := rest }

/-- One event of the outside world, already taken off the list; `rest` is what is left of it. A handle or an address an
event names is one of AW bits, as a register of the host's would hold it (log 1). -/
def takeInput (e : Input) (rest : List Input) (s : State) : Host.Outcome State Fault Refusal :=
  let t : State := { s with inputs := rest }
  match e with
  | .hostWrite offset v => hostWrite offset v t
  | .hostRead offset => .next (hostRead offset t)
  | .wait => waitRound t rest
  | .sequencer => sequencerTurn t
  | .reset => .next t.resetEvent
  | .fatalRise => .next { t with fatalIn := true }
  | .adapterReset => .next { t with fatalIn := false }
  | .initContext d h bytes => .next (t.initContext d h bytes)
  | .discardContext d h => .next { t with contexts := dropContext t.contexts d (fit t.addrWidth h) }
  | .memWrite a b => .next (t.storeByte a b)
  | .agentWrite a b => .next (t.storeByte a b)

/-- The machine's turn: the next event, or, where none is listed, the sequencer's turn; logs 2, 18. -/
def turn (s : State) : Host.Outcome State Fault Refusal :=
  match s.inputs with
  | [] => sequencerTurn s
  | e :: rest => takeInput e rest s

/-- The state in which the next turn is the write of `w` to `CMD`, considered: the block IDLE and not fatal, the write
the next event; log 3. -/
def State.withCommandWrite (s : State) (w : Word) : State :=
  { s with phase := .idle, fatalIn := false, inputs := .hostWrite (regOffset .cmd) w.toNat :: s.inputs }

/-! ## Host programs (30_encoding.md R101, R102) -/

/-- `wr <REG>, <value>`. -/
def wr (r : Reg) (v : Nat) : Input := .hostWrite (regOffset r) v

/-- `rd <REG>`. -/
def rd (r : Reg) : Input := .hostRead (regOffset r)

/-- A command line: the write of the command's word to `CMD`; none where the assembler must refuse the count. -/
def assemble (i : Instr) : Option Input :=
  if i.wf then some (wr .cmd (encode i).toNat) else none

/-- The write of a command's word to `CMD`. -/
def command (i : Instr) : Input := wr .cmd (encode i).toNat

/-- `encrypt_cbc in, out, iv, len, ctx`. -/
def encryptCbc (inA outA iv len ctx : Nat) : List Input :=
  [wr .inAddr inA, wr .outAddr outA, wr .ivAddr iv, wr .len len, wr .ctx ctx, command .cbcEnc, .wait]

/-- `decrypt_cbc in, out, iv, len, ctx`. -/
def decryptCbc (inA outA iv len ctx : Nat) : List Input :=
  [wr .inAddr inA, wr .outAddr outA, wr .ivAddr iv, wr .len len, wr .ctx ctx, command .cbcDec, .wait]

/-- `bytes_to_words_be buf, cnt`. -/
def bytesToWordsBe (buf : Nat) (cnt : BitVec 5) : List Input :=
  [wr .inAddr buf, command (.packP cnt), .wait]

/-- `words_to_bytes_be w0, w1, w2, w3, buf, cnt`. -/
def wordsToBytesBe (w0 w1 w2 w3 buf : Nat) (cnt : BitVec 5) : List Input :=
  [wr .w0 w0, wr .w1 w1, wr .w2 w2, wr .w3 w3, wr .outAddr buf, command (.unpackP cnt), .wait]

/-- `continue_cbc.enc len`: cursors and IV carry over. -/
def continueCbcEnc (len : Nat) : List Input := [wr .len len, command .cbcEnc, .wait]

/-- `continue_cbc.dec len`. -/
def continueCbcDec (len : Nat) : List Input := [wr .len len, command .cbcDec, .wait]

end Sys2Proof.Machine
end

