-- ==== Sys2Proof/Machine/Step.lean ====
section
/-! DEFINITION. One step of the machine, and the state in which a given command word is the next thing it runs. -/

namespace Sys2Proof.Machine

/-- One step: the next event of the outside world, or the sequencer's turn where none is listed
(spec/42_sequencer.md R160, R173). -/
def step (s : State) : Host.Outcome State Fault Refusal := turn s

/-- `s` with the write of the word `w` to `CMD` as its next event and the block ready to consider it; log 3. -/
def State.withFetchWord (s : State) (nbits w : Nat) : State := s.withCommandWrite (tableWord nbits w)

end Sys2Proof.Machine
end

