-- ==== Sys2Proof/Safety.lean ====
section
/-! DEFINITION. The terms that claims about runs are made in: the invariant of reachable states, the outcomes of a run,
the named properties of the provider, and the closed forms of the two CBC commands on byte sequences, written from
spec/43_cbc_encrypt.md R193 and spec/44_cbc_decrypt.md R213 without the block's own word operations. -/

namespace Sys2Proof.Machine

/-- The command of a direction. -/
def cbcCommand : Dir → Instr
  | .enc => .cbcEnc
  | .dec => .cbcDec

/-! ## The checks at accept -/

/-- The checks of a CBC command pass (42_sequencer.md R162, R166, R167). -/
def State.cbcChecksPass (s : State) (d : Dir) : Prop :=
  inRange s.addrWidth s.inAddr s.len = true ∧ inRange s.addrWidth s.outAddr s.len = true ∧
  inRange s.addrWidth s.ivAddr 16 = true ∧
  xfValid s.contexts d s.ctx = true

/-- The checks of a marshaller command pass: its count is legal and its cursor range lies in the address space
(42_sequencer.md R162, R166). -/
def State.marshalReady (s : State) : Instr → Prop
  | .packB => inRange s.addrWidth s.inAddr 16 = true
  | .packP cnt => countLegal cnt = true ∧ inRange s.addrWidth s.inAddr (effectiveCount cnt) = true
  | .unpackB => inRange s.addrWidth s.outAddr 16 = true
  | .unpackP cnt => countLegal cnt = true ∧ inRange s.addrWidth s.outAddr (effectiveCount cnt) = true
  | .cbcEnc => False
  | .cbcDec => False

/-! ## The invariant -/

/-- The command word is that of a CBC command. -/
def State.runsCbc (s : State) : Prop :=
  decode s.cmd = .command .cbcEnc ∨ decode s.cmd = .command .cbcDec

/-- What is left of a CBC command fits: `RLEN` is the remainder of `LEN`, no more is left than `LEN`, and neither
cursor can pass the top of the address space (42_sequencer.md R164, R166; 20_memory.md R76). -/
def State.fits (s : State) : Prop :=
  s.rlen = remainder s.len ∧
  16 * s.nleft + s.rlen.toNat ≤ s.len ∧
  inRange s.addrWidth s.inAddr (16 * s.nleft + s.rlen.toNat) = true ∧
  inRange s.addrWidth s.outAddr (16 * s.nleft + s.rlen.toNat) = true

/-- The accepted marshaller command and its range (41_marshaller.md R148, 42_sequencer.md R166). -/
def State.runsMarshal (s : State) : Prop :=
  (decode s.cmd = .command .packB ∧ inRange s.addrWidth s.inAddr 16 = true) ∨
  (∃ cnt, decode s.cmd = .command (.packP cnt) ∧ inRange s.addrWidth s.inAddr (effectiveCount cnt) = true) ∨
  (decode s.cmd = .command .unpackB ∧ inRange s.addrWidth s.outAddr 16 = true) ∨
  (∃ cnt, decode s.cmd = .command (.unpackP cnt) ∧ inRange s.addrWidth s.outAddr (effectiveCount cnt) = true)

/-- What holds of the sequencer's registers in each phase (42_sequencer.md R160, R169, R172). -/
def State.phaseInv (s : State) : Prop :=
  match s.phase with
  | .idle => True
  | .halt => True
  | .loadIv => s.runsCbc ∧ inRange s.addrWidth s.ivAddr 16 = true ∧ s.fits
  | .block => s.runsCbc ∧ inRange s.addrWidth s.ivAddr 16 = true ∧ s.fits ∧ s.nleft ≠ 0
  | .partialBlock => s.runsCbc ∧ inRange s.addrWidth s.ivAddr 16 = true ∧ s.fits ∧ s.nleft = 0 ∧ s.rlen ≠ 0
  | .storeIv => s.runsCbc ∧ inRange s.addrWidth s.ivAddr 16 = true ∧ s.nleft = 0
  | .marshal => s.runsMarshal

/-- Every register of AW bits holds a value below `2^AW`, `NLEFT` one below `2^(AW-4)`, and every handle of a context is
one of AW bits (00_scope.md R8; 10_state.md R24 to R28, R39); log 1. -/
def State.valuesFit (s : State) : Prop :=
  s.inAddr < 2 ^ s.addrWidth ∧ s.outAddr < 2 ^ s.addrWidth ∧ s.ivAddr < 2 ^ s.addrWidth ∧ s.len < 2 ^ s.addrWidth ∧
  s.ctx < 2 ^ s.addrWidth ∧ s.nleft < 2 ^ (s.addrWidth - 4) ∧ ∀ c ∈ s.contexts, c.handle < 2 ^ s.addrWidth

/-- The invariant of reachable states: memory in its canonical form; every value of AW bits fits; DONE and
ERR never both 1; neither of them 1 while BUSY; `CMD` holds 0 or a command; and the phase agrees with the accepted
command. -/
def State.Inv (s : State) : Prop :=
  s.mem.wf s.addrWidth = true ∧
  s.valuesFit ∧
  (s.done = true → s.err = none) ∧
  (s.busy = true → s.done = false ∧ s.err = none) ∧
  (s.cmd = 0 ∨ ∃ i, decode s.cmd = .command i) ∧
  s.phaseInv

/-! ## Runs -/

/-- `t` is reached from `s` in `k` steps. -/
def State.runsTo (s : State) (k : Nat) (t : State) : Prop := core.run k s = .next t

/-- The event is an action of the host (00_scope.md section 6): an access of a register, a `wait`, a store in its
memory, a context created or discarded (70_reset_and_hazards.md R264). The others are the sequencer's, the
environment's (the reset, `fatal_in`, the adapter's reset) and another agent's; log 26. -/
def Input.byHost : Input → Bool
  | .hostWrite _ _ => true
  | .hostRead _ => true
  | .wait => true
  | .initContext _ _ _ => true
  | .discardContext _ _ => true
  | .memWrite _ _ => true
  | .sequencer => false
  | .reset => false
  | .fatalRise => false
  | .adapterReset => false
  | .agentWrite _ _ => false

/-- A run of a host program is *over* when the host has no further action and the block is IDLE, whatever else is
still to come (70_reset_and_hazards.md R279). -/
def State.over (s : State) : Bool := !s.inputs.any Input.byHost && decide (s.phase = .idle)

/-- A run is over *well* if in addition FATAL = 0 and the last command's DONE = 1 (70_reset_and_hazards.md R279). -/
def State.overWell (s : State) : Bool := s.over && !s.fatal && s.done

/-- The platform admits every access of the block, the spec's default of `MEM_ADMIT` (00_scope.md R12). -/
def State.admitsEverything (s : State) : Prop := s.denied = []

/-- The bytes the next sequencer step of a CBC command reads, by phase (20_memory.md R71). -/
def State.cbcReads (s : State) : Nat × Nat :=
  match s.phase with
  | .loadIv => (s.ivAddr, 16)
  | .block => (s.inAddr, 16)
  | .partialBlock => (s.inAddr, s.rlen.toNat)
  | _ => (s.ivAddr, 0)

/-- The bytes the next sequencer step of a CBC command writes, by phase (20_memory.md R71). -/
def State.cbcWrites (s : State) : Nat × Nat :=
  match s.phase with
  | .block => (s.outAddr, 16)
  | .partialBlock => (s.outAddr, s.rlen.toNat)
  | .storeIv => (s.ivAddr, 16)
  | _ => (s.ivAddr, 0)

/-- The bytes the next step of command `i` reads (20_memory.md R71). -/
def State.readsOf (s : State) (i : Instr) : Nat × Nat :=
  match i with
  | .cbcEnc => s.cbcReads
  | .cbcDec => s.cbcReads
  | .packB => (s.inAddr, if s.phase = .marshal then 16 else 0)
  | .packP cnt => (s.inAddr, if s.phase = .marshal then effectiveCount cnt else 0)
  | .unpackB => (s.outAddr, 0)
  | .unpackP _ => (s.outAddr, 0)

/-- The bytes the next step of command `i` writes (20_memory.md R71). -/
def State.writesOf (s : State) (i : Instr) : Nat × Nat :=
  match i with
  | .cbcEnc => s.cbcWrites
  | .cbcDec => s.cbcWrites
  | .packB => (s.inAddr, 0)
  | .packP _ => (s.inAddr, 0)
  | .unpackB => (s.outAddr, if s.phase = .marshal then 16 else 0)
  | .unpackP cnt => (s.outAddr, if s.phase = .marshal then effectiveCount cnt else 0)

/-- Address `a` is one of the `n` bytes from `r.1`. -/
def inBytes (r : Nat × Nat) (a : Nat) : Prop := r.1 ≤ a ∧ a < r.1 + r.2

/-- The event is the sequencer's turn: no event is listed (log 18), the list says that the sequencer moves, or the host
waits (42_sequencer.md R160, 30_encoding.md R101). -/
def State.sequencerMoves (s : State) : Prop :=
  s.inputs = [] ∨ ∃ rest, s.inputs = .sequencer :: rest ∨ s.inputs = .wait :: rest

/-- Every transition of `PHASE` in one step of the machine, row by row, each with its event and its condition
(42_sequencer.md R172); a step that takes no row leaves `PHASE` as it was. -/
inductive PhaseEdge (s : State) : Phase → Prop where
  /-- IDLE, host write to `CMD`, checks pass, a CBC command -/
  | acceptCbc (v : Nat) (rest : List Input) (d : Dir) (h : s.phase = .idle) (hf : s.fatalIn = false)
      (hi : s.inputs = wr .cmd v :: rest) (hd : decode (BitVec.ofNat 32 v) = .command (cbcCommand d))
      (hc : s.cbcChecksPass d) : PhaseEdge s .loadIv
  /-- IDLE, host write to `CMD`, checks pass, a marshaller command -/
  | acceptMarshal (v : Nat) (rest : List Input) (i : Instr) (h : s.phase = .idle) (hf : s.fatalIn = false)
      (hi : s.inputs = wr .cmd v :: rest) (hd : decode (BitVec.ofNat 32 v) = .command i)
      (hm : s.marshalReady i) : PhaseEdge s .marshal
  /-- LOAD_IV, step: `next(NLEFT, RLEN)` -/
  | loadIv (h : s.phase = .loadIv) (hf : s.fatalIn = false) (hi : s.sequencerMoves) :
      PhaseEdge s (nextPhase s.nleft s.rlen)
  /-- BLOCK, step: `next(NLEFT - 1, RLEN)` -/
  | block (h : s.phase = .block) (hf : s.fatalIn = false) (hi : s.sequencerMoves) (hn : s.nleft ≠ 0) :
      PhaseEdge s (nextPhase (s.nleft - 1) s.rlen)
  /-- PARTIAL, step -/
  | partialBlock (h : s.phase = .partialBlock) (hf : s.fatalIn = false) (hi : s.sequencerMoves) : PhaseEdge s .storeIv
  /-- STORE_IV, step -/
  | storeIv (h : s.phase = .storeIv) (hf : s.fatalIn = false) (hi : s.sequencerMoves) : PhaseEdge s .idle
  /-- MARSHAL, step -/
  | marshal (h : s.phase = .marshal) (hf : s.fatalIn = false) (hi : s.sequencerMoves) : PhaseEdge s .idle
  /-- BUSY, step, with `fatal_in` = 1 -/
  | fatalStep (h : s.busy = true) (hf : s.fatalIn = true) (hi : s.sequencerMoves) : PhaseEdge s .halt
  /-- IDLE, considered write to `CMD`, with `fatal_in` = 1 -/
  | fatalWrite (v : Nat) (rest : List Input) (h : s.phase = .idle) (hf : s.fatalIn = true)
      (hi : s.inputs = wr .cmd v :: rest) : PhaseEdge s .halt
  /-- any, reset -/
  | reset (rest : List Input) (hi : s.inputs = .reset :: rest) : PhaseEdge s .idle

/-- Two states that differ at most in hidden registers that no step reads from there on: `TIN` and `TOUT` in every
phase, `CV` before LOAD_IV has written it and after the command, `NLEFT` and `RLEN` outside the phases that read them
(10_state.md R38, R46). -/
def State.agreesWith (s u : State) : Prop :=
  u = { s with cv := u.cv, tin := u.tin, tout := u.tout, nleft := u.nleft, rlen := u.rlen } ∧
  (s.phase = .block ∨ s.phase = .partialBlock ∨ s.phase = .storeIv → u.cv = s.cv) ∧
  (s.phase = .loadIv ∨ s.phase = .block ∨ s.phase = .partialBlock → u.nleft = s.nleft ∧ u.rlen = s.rlen)

/-! ## Named properties of the provider (40_transform_port.md R124) -/

/-- The provider's state after a transaction (40_transform_port.md R121). -/
def afterXf (d : Dir) (P : List Context) (h : Nat) (x : Block) : List Context :=
  setContext P d h (xf d P h x).2

/-- The context state of a handle. -/
def contextState (P : List Context) (d : Dir) (h : Nat) : Option (List Byte) :=
  (P.find? fun c => c.dir == d && c.handle == h).map Context.state

/-- XF_LOCAL for a handle: the output block depends only on the context state of `h` and the input block. -/
def XfLocal (d : Dir) (h : Nat) : Prop :=
  ∀ P Q x, contextState P d h = contextState Q d h → (xf d P h x).1 = (xf d Q h x).1

/-- XF_READONLY for a handle: a transaction leaves every later transaction on `h` returning what it would have
returned before. -/
def XfReadonly (d : Dir) (h : Nat) : Prop :=
  ∀ P x y, (xf d (afterXf d P h x) h y).1 = (xf d P h y).1

/-- XF_INVERSE of an encrypt handle and a decrypt handle in a provider state: `dec_hd(enc_he(x)) = x`. -/
def XfInverse (P : List Context) (he hd : Nat) : Prop :=
  ∀ x, (xf .dec P hd (xf .enc P he x).1).1 = x

/-! ## Closed forms on byte sequences (43_cbc_encrypt.md R193, 44_cbc_decrypt.md R213) -/

/-- `x ^ y`, the byte-wise XOR of blocks. -/
def xorBytes (x y : List Byte) : List Byte := List.zipWith (· ^^^ ·) x y

/-- `pad_r(T)`: the bytes of `T` followed by zero bytes up to a block. -/
def padBlock (t : List Byte) : List Byte := t ++ List.replicate (16 - t.length) 0

/-- Sixteen bytes as a block. -/
def asBlock (x : List Byte) : Block := ⟨(padBlock x).take 16, by simp [padBlock]; omega⟩

/-- The segments of a message: its `n` full blocks in address order, then the trailing bytes, if any. -/
def segments : Nat → List Byte → List (List Byte)
  | 0, data => if data = [] then [] else [data]
  | n + 1, data => data.take 16 :: segments n (data.drop 16)

/-- What a chain of segments leaves: the output bytes, the last chaining value, the provider's state. -/
structure ChainResult where
  output : List Byte
  carry : List Byte
  contexts : List Context
deriving DecidableEq, Repr

/-- R193: `F = E(pad(T) ^ V)`; as many bytes of `F` as the segment has are output, all of `F` is carried. For a full
block `pad(T)` is the block itself. -/
def encChain (h : Nat) : List (List Byte) → List Byte → List Context → ChainResult
  | [], v, P => ⟨[], v, P⟩
  | t :: rest, v, P =>
    let x := asBlock (xorBytes (padBlock t) v)
    let f := (xf .enc P h x).1.bytes
    let r := encChain h rest f (afterXf .enc P h x)
    ⟨f.take t.length ++ r.output, r.carry, r.contexts⟩

/-- R213: `G = D(pad(T)) ^ M`; as many bytes of `G` as the segment has are output, `pad(T)` is carried. -/
def decChain (h : Nat) : List (List Byte) → List Byte → List Context → ChainResult
  | [], m, P => ⟨[], m, P⟩
  | t :: rest, m, P =>
    let x := asBlock (padBlock t)
    let g := xorBytes (xf .dec P h x).1.bytes m
    let r := decChain h rest (padBlock t) (afterXf .dec P h x)
    ⟨g.take t.length ++ r.output, r.carry, r.contexts⟩

/-- The closed form of a CBC command for a direction. -/
def chain (d : Dir) (h : Nat) (segs : List (List Byte)) (iv : List Byte) (P : List Context) : ChainResult :=
  match d with
  | .enc => encChain h segs iv P
  | .dec => decChain h segs iv P

/-- The closed form of the command of direction `d` on what a state holds at accept. -/
def State.closedForm (s : State) (d : Dir) : ChainResult :=
  chain d s.ctx (segments (s.len / 16) (s.mem.readBytes s.inAddr s.len))
    (s.mem.readBytes s.ivAddr 16) s.contexts

/-- The sequencer steps of a CBC command: `2 + n + p` (42_sequencer.md R172, 70_reset_and_hazards.md R276). -/
def cbcSteps (len : Nat) : Nat := 2 + len / 16 + (if len % 16 = 0 then 0 else 1)

/-- No output byte is written over an input byte still to be read: the output range is disjoint from the input range,
or starts at it (in place) or below it (20_memory.md R77 (a), (b)). -/
def State.writesTrailReads (s : State) : Prop :=
  s.outAddr ≤ s.inAddr ∨ s.inAddr + s.len ≤ s.outAddr

/-- The IV range and the range of `n` bytes from `a` have no byte in common. -/
def State.ivApartFrom (s : State) (a : Nat) (n : Nat) : Prop :=
  s.ivAddr + 16 ≤ a ∨ a + n ≤ s.ivAddr

/-- What a CBC command of direction `d` needs to run to its end undisturbed: it is the next and only event, the block
is IDLE and not fatal, its registers hold values of AW bits, its checks pass, the platform admits its accesses,
and its writes trail its reads. -/
def State.readyForCbc (s : State) (d : Dir) : Prop :=
  s.phase = .idle ∧ s.fatalIn = false ∧ s.mem.wf s.addrWidth = true ∧ s.valuesFit ∧ s.cbcChecksPass d ∧
  s.admitsEverything ∧
  s.writesTrailReads ∧ s.inputs = [command (cbcCommand d)]

/-- `continue_cbc.enc len` or `continue_cbc.dec len` (30_encoding.md R102). -/
def continueCbc (d : Dir) (len : Nat) : List Input :=
  match d with
  | .enc => continueCbcEnc len
  | .dec => continueCbcDec len

end Sys2Proof.Machine
end

