-- ==== Sys2Proof/Certificates/Slice0/Obligations.lean ====
section
/-! DEFINITION. The statements for the provers, from the numbered rules of spec/. -/

open Sys2Proof Sys2Proof.Machine

/-! ## Encoding (spec/30_encoding.md) -/

/-- R94: the decoder makes the four tests in their order, the first that fails deciding the code, and else gives the
command of the opcode. The fields are written as numbers: bits 3:0, 8:4 and 31:9 of the word. -/
def Obligations.DecodeMakesTheTestsInOrder : Prop :=
  (∀ w : Word,
    let op := w.toNat % 16
    let cnt := w.toNat / 16 % 32
    let rsv := w.toNat / 512
    (op ∉ [1, 2, 4, 5, 6, 7] → decode w = .reject .illegalOp) ∧
    (op ∈ [1, 2, 4, 5, 6, 7] → rsv ≠ 0 → decode w = .reject .reservedBits) ∧
    (op ∈ [1, 2, 4, 6] → rsv = 0 → cnt ≠ 0 → decode w = .reject .reservedBits) ∧
    (op ∈ [5, 7] → rsv = 0 → (cnt = 0 ∨ 16 < cnt) → decode w = .reject .badCount) ∧
    (op = 1 → rsv = 0 → cnt = 0 → decode w = .command .cbcEnc) ∧
    (op = 2 → rsv = 0 → cnt = 0 → decode w = .command .cbcDec) ∧
    (op = 4 → rsv = 0 → cnt = 0 → decode w = .command .packB) ∧
    (op = 5 → rsv = 0 → 1 ≤ cnt → cnt ≤ 16 → decode w = .command (.packP (BitVec.ofNat 5 cnt))) ∧
    (op = 6 → rsv = 0 → cnt = 0 → decode w = .command .unpackB) ∧
    (op = 7 → rsv = 0 → 1 ≤ cnt → cnt ≤ 16 → decode w = .command (.unpackP (BitVec.ofNat 5 cnt)))) ∧
  errNumber .illegalOp = 1 ∧ errNumber .reservedBits = 2 ∧ errNumber .badCount = 3

/-- R90, R93, R94: a word decodes to a command exactly when the command is well-formed and the word is its encoding: no
bit is dropped, and no two words are the same command. -/
def Obligations.DecodeAndEncodeAgree : Prop :=
  ∀ (w : Word) (i : Instr), decode w = .command i ↔ i.wf = true ∧ encode i = w

/-- R93: a row of the command table covers exactly the words with the row's opcode that the decoder takes for a command
or rejects for their count alone. -/
def Obligations.TableRowsCoverTheirWords : Prop :=
  ∀ (w : Word) (r : TableRow), r ∈ commandTable →
    (r.covers w = true ↔
      opField w = opField r.pattern ∧ ((∃ i, decode w = .command i ∧ mnemonic i = r.mnemonic) ∨
        decode w = .reject .badCount))

/-- R93 and 95_test_vectors.md V10: command words written out from the spec decode to their commands. -/
def Obligations.SpecWordsDecode : Prop :=
  decode 0x00000001 = .command .cbcEnc ∧ decode 0x00000002 = .command .cbcDec ∧
  decode 0x00000004 = .command .packB ∧ decode 0x00000015 = .command (.packP 1) ∧
  decode 0x00000105 = .command (.packP 16) ∧ decode 0x00000006 = .command .unpackB ∧
  decode 0x00000017 = .command (.unpackP 1) ∧ decode 0x00000107 = .command (.unpackP 16)

/-- R98: the length split, as numbers, and that it is what an accepted CBC command puts in `NLEFT` and `RLEN`. -/
def Obligations.LengthSplitAtAcceptance : Prop :=
  (∀ len : Nat, blockCount len = len / 16 ∧ (remainder len).toNat = len % 16) ∧
  ∀ (d : Dir) (s t : State), s.phase = .idle → exec (cbcCommand d) s = .next t → t.err = none →
    t.nleft = s.len / 16 ∧ t.rlen.toNat = s.len % 16

/-- R99: `PACK.P` with `CNT = 16` does what `PACK.B` does, and `UNPACK.P` with `CNT = 16` what `UNPACK.B` does, once
accepted; their acceptances differ in the word that `CMD` (or, if rejected, `ERRINFO`) records and in nothing else. -/
def Obligations.FullCountIsFullBlock : Prop :=
  ∀ s : State,
    (s.phase ≠ .idle → exec (.packP 16) s = exec .packB s ∧ exec (.unpackP 16) s = exec .unpackB s) ∧
    (s.phase = .idle → ∃ t u,
      exec (.packP 16) s = .next t ∧ exec .packB s = .next u ∧ t = { u with cmd := t.cmd, errInfo := t.errInfo }) ∧
    (s.phase = .idle → ∃ t u,
      exec (.unpackP 16) s = .next t ∧ exec .unpackB s = .next u ∧
        t = { u with cmd := t.cmd, errInfo := t.errInfo })

/-! ## The marshaller's functions (spec/41_marshaller.md) -/

/-- R140: `pack` puts the padded block's bytes `b[4j]` to `b[4j+3]` in word `j`, most significant first. -/
def Obligations.PackPlacesBytesBigEndian : Prop :=
  ∀ s : List Byte, 1 ≤ s.length → s.length ≤ 16 →
    let b : Nat → Word := fun k => if h : k < s.length then s[k].setWidth 32 else 0
    ∀ j < 4, (pack s).get j =
      (b (4 * j) <<< 24) ||| (b (4 * j + 1) <<< 16) ||| (b (4 * j + 2) <<< 8) ||| b (4 * j + 3)

/-- R142: `unpack(q, c)` has exactly `c` bytes, byte `k` of it `(q[k div 4] >> (24 - 8*(k mod 4))) & 0xFF`. -/
def Obligations.UnpackTakesBytesBigEndian : Prop :=
  ∀ (q : Quad) (c : Nat), 1 ≤ c → c ≤ 16 → (unpack q c).length = c ∧
    ∀ k < c, ((unpack q c).getD k 0).setWidth 32 = (q.get (k / 4) >>> (24 - 8 * (k % 4))) &&& 0xFF

/-- R143: the six laws of `pack` and `unpack`. -/
def Obligations.MarshallerLaws : Prop :=
  (∀ s : List Byte, 1 ≤ s.length → s.length ≤ 16 → unpack (pack s) s.length = s) ∧
  (∀ q : Quad, pack (unpack q 16) = q) ∧
  (∀ (q : Quad) (c : Nat), 1 ≤ c → c < 16 → ∀ k < 16,
    unpackByte .msb (pack (unpack q c)) 16 k = if k < c then unpackByte .msb q 16 k else 0) ∧
  (∀ s : List Byte, 1 ≤ s.length → s.length ≤ 16 → pack s = pack (s ++ List.replicate (16 - s.length) 0)) ∧
  (∀ (q : Quad) (c : Nat), 1 ≤ c → c ≤ 16 → unpack q c = (unpack q 16).take c) ∧
  (∀ (p q : Quad), ∀ k < 16,
    (unpack (p.xor q) 16).getD k 0 = (unpack p 16).getD k 0 ^^^ (unpack q 16).getD k 0)

/-- R165: the XOR of two word quads, word by word. -/
def Obligations.XorUnitIsWordWise : Prop :=
  ∀ (p q : Quad), ∀ i < 4, (p.xor q).get i = p.get i ^^^ q.get i

/-! ## Caller memory (spec/20_memory.md) -/

/-- R63: `MemWrite` stores `s[k]` at `addr+k` and writes no other address, and keeps memory's canonical form. -/
def Obligations.MemWriteWritesExactlyItsBytes : Prop :=
  ∀ (aw : Nat) (m : Memory) (a : Nat) (s : List Byte), m.wf aw = true → a + s.length ≤ 2 ^ aw →
    (∀ k (h : k < s.length), (m.writeBytes a s).read (a + k) = s[k]) ∧
    (∀ x, ¬ (a ≤ x ∧ x < a + s.length) → (m.writeBytes a s).read x = m.read x) ∧
    (m.writeBytes a s).wf aw = true

/-- R71, R63: whatever a command's next step is, every byte outside the range it writes in that phase reads as
before: a step of a CBC command writes at the output cursor in BLOCK and PARTIAL and at `IV_ADDR` in STORE_IV, a step of
`UNPACK.*` at the output cursor, and every other step writes nothing. -/
def Obligations.StepsWriteOnlyTheirRange : Prop :=
  ∀ (i : Instr) (s t : State), exec i s = .next t →
    ∀ a, ¬ inBytes (s.writesOf i) a → t.mem.read a = s.mem.read a

/-- R66: a block whose next step has a byte that is not admitted is stuck: BUSY for ever, nothing changed. That a stuck
block is a next state equal to the last, and which accesses are not admitted, are the model's (logs 10, 11). -/
def Obligations.NotAdmittedAccessIsStuck : Prop :=
  ∀ (s : State) (i : Instr), s.Inv → s.busy = true → s.fatalIn = false → s.inputs = [] →
    decode s.cmd = .command i →
    (∃ a, (inBytes (s.readsOf i) a ∧ s.admits .read a = false) ∨
      (inBytes (s.writesOf i) a ∧ s.admits .write a = false)) →
    ∀ k, s.runsTo k s

/-! ## The register file (spec/10_state.md) -/

/-- R23: the fields of `STATUS` and its reserved bits, with the numbers of the phases (R41) and of the codes (R231). -/
def Obligations.StatusFields : Prop :=
  (∀ s : State,
    (s.status.getLsbD 0 = true ↔
      s.phase = .loadIv ∨ s.phase = .block ∨ s.phase = .partialBlock ∨ s.phase = .storeIv ∨ s.phase = .marshal) ∧
    s.status.getLsbD 1 = s.done ∧
    (s.status.getLsbD 2 = true ↔ ∃ c, s.err = some c) ∧
    (s.status.getLsbD 3 = true ↔ s.phase = .halt) ∧
    (s.err = none → s.status.extractLsb' 4 4 = 0) ∧
    (∀ c, s.err = some c → s.status.extractLsb' 4 4 = errNumber c) ∧
    s.status.extractLsb' 8 3 = phaseCode s.phase ∧
    s.status.extractLsb' 11 21 = 0) ∧
  (phaseCode .idle = 0 ∧ phaseCode .loadIv = 1 ∧ phaseCode .block = 2 ∧ phaseCode .partialBlock = 3 ∧
    phaseCode .storeIv = 4 ∧ phaseCode .marshal = 5 ∧ phaseCode .halt = 7) ∧
  errNumber .illegalOp = 1 ∧ errNumber .reservedBits = 2 ∧ errNumber .badCount = 3 ∧ errNumber .addrRange = 4 ∧
  errNumber .badCtx = 5

/-- R30: a host read, in any phase, changes nothing of the block, of memory or of the provider; the register's value,
zero-extended, is what it returns. That the returned value is held in `rdData` is the model's choice (log 16). -/
def Obligations.HostReadChangesNothing : Prop :=
  ∀ (s : State) (r : Reg) (rest : List Input), s.inputs = rd r :: rest →
    ∃ v, step s = .next { s with inputs := rest, rdData := v } ∧
      (r = .cmd → v = s.cmd.toNat) ∧ (r = .status → v = s.status.toNat) ∧
      (r = .inAddr → v = s.inAddr) ∧ (r = .outAddr → v = s.outAddr) ∧ (r = .ivAddr → v = s.ivAddr) ∧
      (r = .len → v = s.len) ∧ (r = .ctx → v = s.ctx) ∧ (r = .errInfo → v = s.errInfo.toNat) ∧
      (r = .w0 → v = s.w.w0.toNat) ∧ (r = .w1 → v = s.w.w1.toNat) ∧
      (r = .w2 → v = s.w.w2.toNat) ∧ (r = .w3 → v = s.w.w3.toNat)

/-- R31: a host write while IDLE stores the value, truncated to the register's width; `STATUS` clears flags as R23 says
(DONE by bit 1, ERR and ERRCODE by bit 2); `ERRINFO` ignores it; `CMD` issues a command. -/
def Obligations.HostWriteWhileIdle : Prop :=
  ∀ (s : State) (v : Nat) (rest : List Input), s.phase = .idle →
    (s.inputs = wr .inAddr v :: rest → step s = .next { s with inputs := rest, inAddr := v % 2 ^ s.addrWidth }) ∧
    (s.inputs = wr .outAddr v :: rest → step s = .next { s with inputs := rest, outAddr := v % 2 ^ s.addrWidth }) ∧
    (s.inputs = wr .ivAddr v :: rest → step s = .next { s with inputs := rest, ivAddr := v % 2 ^ s.addrWidth }) ∧
    (s.inputs = wr .len v :: rest → step s = .next { s with inputs := rest, len := v % 2 ^ s.addrWidth }) ∧
    (s.inputs = wr .ctx v :: rest → step s = .next { s with inputs := rest, ctx := v % 2 ^ s.addrWidth }) ∧
    (s.inputs = wr .w0 v :: rest → step s = .next { s with inputs := rest, w.w0 := BitVec.ofNat 32 v }) ∧
    (s.inputs = wr .w1 v :: rest → step s = .next { s with inputs := rest, w.w1 := BitVec.ofNat 32 v }) ∧
    (s.inputs = wr .w2 v :: rest → step s = .next { s with inputs := rest, w.w2 := BitVec.ofNat 32 v }) ∧
    (s.inputs = wr .w3 v :: rest → step s = .next { s with inputs := rest, w.w3 := BitVec.ofNat 32 v }) ∧
    (s.inputs = wr .errInfo v :: rest → step s = .next { s with inputs := rest }) ∧
    (s.inputs = wr .status v :: rest → step s = .next
      { s with
        inputs := rest
        done := if v.testBit 1 then false else s.done
        err := if v.testBit 2 then none else s.err }) ∧
    (s.inputs = wr .cmd v :: rest → step s = considerWrite (BitVec.ofNat 32 v) { s with inputs := rest })

/-- R32: a host write to any register, or to any offset, while BUSY = 1 changes nothing at all. -/
def Obligations.HostWriteWhileBusyIgnored : Prop :=
  ∀ (s : State) (offset v : Nat) (rest : List Input), s.busy = true →
    s.inputs = .hostWrite offset v :: rest → step s = .next { s with inputs := rest }

/-- R33: a host write to any register in HALT changes nothing; an access to an offset that is no register's reads 0 and
ignores writes in every phase. That the value read is held in `rdData` is the model's choice (log 16). -/
def Obligations.HaltAndUnmappedAccess : Prop :=
  (∀ (s : State) (offset v : Nat) (rest : List Input), s.phase = .halt →
    s.inputs = .hostWrite offset v :: rest → step s = .next { s with inputs := rest }) ∧
  ∀ (s : State) (offset v : Nat) (rest : List Input), (∀ r, regOffset r ≠ offset) →
    (s.inputs = .hostWrite offset v :: rest → step s = .next { s with inputs := rest }) ∧
    (s.inputs = .hostRead offset :: rest → step s = .next { s with inputs := rest, rdData := 0 })

/-- R46: `State.reset` has every register of R21 reading 0 and `PHASE` = IDLE. -/
def Obligations.ResetStateReadsZero : Prop :=
  (∀ r, State.reset.readReg r = 0) ∧ State.reset.phase = .idle

/-- R260: the reset event, at any moment: every host-visible register reads 0, `PHASE` = IDLE, no flag set, and caller
memory, provider state and `fatal_in` are untouched. Of the hidden registers nothing is said. -/
def Obligations.ResetEventEffect : Prop :=
  ∀ (s : State) (rest : List Input), s.inputs = .reset :: rest →
    ∃ t, step s = .next t ∧ (∀ r, t.readReg r = 0) ∧ t.phase = .idle ∧ t.done = false ∧ t.err = none ∧
      t.mem = s.mem ∧ t.contexts = s.contexts ∧ t.fatalIn = s.fatalIn ∧ t.denied = s.denied ∧ t.inputs = rest ∧
      t.addrWidth = s.addrWidth

/-! ## The `CMD` write and the sequencer's turn (spec/42_sequencer.md, spec/60_exceptions.md) -/

/-- R161: a considered write of a word that decodes to a command is `exec` of that command. The second clause is about
the model's own `withFetchWord` and `tableWord` and rests on logs 3 and 23: the step after placing a table word that
decodes to a command is `exec` of that command too. -/
def Obligations.CommandWriteRunsTheCommand : Prop :=
  (∀ (s : State) (v : Nat) (rest : List Input) (i : Instr), s.phase = .idle → s.fatalIn = false →
    s.inputs = wr .cmd v :: rest → decode (BitVec.ofNat 32 v) = .command i →
    step s = exec i { s with inputs := rest }) ∧
  ∀ (s : State) (nbits w : Nat) (i : Instr), decodeTableWord nbits w = some i →
    step (s.withFetchWord nbits w) = exec i { s with phase := .idle, fatalIn := false }

/-- R160: while BUSY the sequencer's turn is `exec` of the accepted command, whether no event is listed, the list says
that the sequencer moves, or the host waits (after the `STATUS` read of the `wait`). -/
def Obligations.SequencerRunsTheAcceptedCommand : Prop :=
  ∀ (s : State) (i : Instr) (rest : List Input), s.busy = true → s.fatalIn = false → decode s.cmd = .command i →
    (s.inputs = [] → step s = exec i s) ∧
    (s.inputs = .sequencer :: rest → step s = exec i { s with inputs := rest }) ∧
    (s.inputs = .wait :: rest → step s = exec i { s with rdData := s.status.toNat })

/-- R160, R261: IDLE or HALT, with no event listed, the machine does nothing. -/
def Obligations.NoEnabledStepNoChange : Prop :=
  ∀ s : State, (s.phase = .idle ∨ s.phase = .halt) → s.inputs = [] → step s = .next s

/-- R233: a rejection, by the decoder or by a command's checks, changes ERR, ERRCODE, DONE and `ERRINFO` and nothing
else: `CMD`, cursors, `W`, hidden registers, memory and provider are as they were, and the block stays IDLE. -/
def Obligations.RejectionEffect : Prop :=
  (∀ (s : State) (v : Nat) (rest : List Input) (code : ErrCode), s.phase = .idle → s.fatalIn = false →
    s.inputs = wr .cmd v :: rest → decode (BitVec.ofNat 32 v) = .reject code →
    step s = .next { s with inputs := rest, err := some code, done := false, errInfo := BitVec.ofNat 32 v }) ∧
  ∀ (s t : State) (i : Instr) (code : ErrCode), s.phase = .idle → exec i s = .next t → t.err = some code →
    t = { s with err := some code, done := false, errInfo := encode i }

/-- R162, R164, R166, R167 for the CBC commands: the three ranges, then the context, decide; each outcome in full.
`XF_VALID` is here the presence of a context of that handle and direction (log 8). -/
def Obligations.CbcAcceptOrReject : Prop :=
  ∀ (d : Dir) (s : State), s.phase = .idle →
    let fits := s.inAddr + s.len ≤ 2 ^ s.addrWidth ∧ s.outAddr + s.len ≤ 2 ^ s.addrWidth ∧
      s.ivAddr + 16 ≤ 2 ^ s.addrWidth
    let valid := ∃ c ∈ s.contexts, c.dir = d ∧ c.handle = s.ctx
    let w : Word := match d with | .enc => 1 | .dec => 2
    (¬ fits → exec (cbcCommand d) s = .next { s with err := some .addrRange, done := false, errInfo := w }) ∧
    (fits → ¬ valid → exec (cbcCommand d) s = .next { s with err := some .badCtx, done := false, errInfo := w }) ∧
    (fits → valid → exec (cbcCommand d) s = .next
      { s with
        cmd := w, done := false, err := none, phase := .loadIv
        nleft := s.len / 16, rlen := BitVec.ofNat _ (s.len % 16) })

/-- R162, R164, R166 for the marshaller commands: the count, then the cursor's range, decide; each outcome in full. -/
def Obligations.MarshallerAcceptOrReject : Prop :=
  ∀ (s : State) (i : Instr) (a : Nat) (c : Nat), s.phase = .idle →
    (i = .packB ∧ a = s.inAddr ∧ c = 16 ∨ (∃ cnt, i = .packP cnt ∧ a = s.inAddr ∧ c = cnt.toNat) ∨
      i = .unpackB ∧ a = s.outAddr ∧ c = 16 ∨ ∃ cnt, i = .unpackP cnt ∧ a = s.outAddr ∧ c = cnt.toNat) →
    ((c = 0 ∨ 16 < c) → exec i s = .next { s with err := some .badCount, done := false, errInfo := encode i }) ∧
    (1 ≤ c → c ≤ 16 → 2 ^ s.addrWidth < a + c →
      exec i s = .next { s with err := some .addrRange, done := false, errInfo := encode i }) ∧
    (1 ≤ c → c ≤ 16 → a + c ≤ 2 ^ s.addrWidth →
      exec i s = .next { s with cmd := encode i, done := false, err := none, phase := .marshal })

/-- R240: `fatal_in` = 1 at a sequencer step or at a considered `CMD` write: `PHASE <- HALT` instead, and nothing else
(a `wait` has read `STATUS`); while IDLE without a `CMD` write it has no effect. That the sequencer moves where no
event is listed is the model's (log 18). -/
def Obligations.FatalInputHalts : Prop :=
  ∀ (s : State) (rest : List Input), s.fatalIn = true →
    (s.busy = true → s.inputs = [] → step s = .next { s with phase := .halt }) ∧
    (s.busy = true → s.inputs = .sequencer :: rest → step s = .next { s with inputs := rest, phase := .halt }) ∧
    (s.busy = true → s.inputs = .wait :: rest →
      step s = .next { s with phase := .halt, rdData := s.status.toNat }) ∧
    (∀ v, s.phase = .idle → s.inputs = wr .cmd v :: rest → step s = .next { s with inputs := rest, phase := .halt }) ∧
    (s.phase = .idle → s.inputs = [] → step s = .next s)

/-- R241, R242: in HALT no sequencer turn, no `wait` and no host access changes the block, memory or the provider, and
whatever the event is, unless it is the reset, the block stays in HALT; the reset leaves it. -/
def Obligations.HaltLeftOnlyByReset : Prop :=
  ∀ s t : State, s.phase = .halt → step s = .next t →
    ((∃ rest, s.inputs = .reset :: rest) → t.phase = .idle) ∧
    ((∀ rest, s.inputs ≠ .reset :: rest) → t.phase = .halt ∧ t.cmd = s.cmd ∧ t.status = s.status ∧
      t.inAddr = s.inAddr ∧ t.outAddr = s.outAddr ∧ t.ivAddr = s.ivAddr ∧ t.len = s.len ∧ t.ctx = s.ctx ∧
      t.errInfo = s.errInfo ∧ t.w = s.w) ∧
    ((s.inputs = [] ∨ ∃ e rest, s.inputs = e :: rest ∧
        (e = .sequencer ∨ e = .wait ∨ (∃ o, e = .hostRead o) ∨ ∃ o v, e = .hostWrite o v)) →
      t = { s with inputs := t.inputs, rdData := t.rdData })

/-- R172: every step of the machine keeps `PHASE` or takes a row of the phase transition table, with the row's event
(the sequencer's turn, a write to `CMD`, or the reset) and the row's condition. So no host access but a considered
write to `CMD` moves `PHASE`, and HALT is entered, with `fatal_in` = 1, only at such a write or at a sequencer step.
That the sequencer moves where no event is listed is the model's (log 18). -/
def Obligations.PhaseTransitionsAreTheTable : Prop :=
  ∀ s t : State, step s = .next t → t.phase = s.phase ∨ PhaseEdge s t.phase

/-! ## The steps of the CBC commands -/

/-- R168: the LOAD_IV step of either command: `CV` from the 16 IV bytes, the next phase, and nothing else; an accepted
CBC command always starts with it. -/
def Obligations.LoadIvStep : Prop :=
  (∀ (d : Dir) (s : State), s.phase = .loadIv → s.ivAddr + 16 ≤ 2 ^ s.addrWidth →
    s.admitsAll .read s.ivAddr 16 = true →
    exec (cbcCommand d) s = .next
      { s with
        cv := pack (s.mem.readBytes s.ivAddr 16)
        phase := if s.nleft > 0 then .block else if s.rlen.toNat ≠ 0 then .partialBlock else .storeIv }) ∧
  ∀ (d : Dir) (s t : State), s.phase = .idle → exec (cbcCommand d) s = .next t → t.err = none → t.phase = .loadIv

/-- R170: the STORE_IV step of either command: the 16 bytes of `CV` at `IV_ADDR`, no other byte of memory, `PHASE` =
IDLE, DONE = 1, and nothing else. -/
def Obligations.StoreIvStep : Prop :=
  ∀ (d : Dir) (s : State), s.phase = .storeIv → s.ivAddr + 16 ≤ 2 ^ s.addrWidth →
    s.admitsAll .write s.ivAddr 16 = true → s.mem.wf s.addrWidth = true →
    ∃ t, exec (cbcCommand d) s = .next t ∧
      t = { s with mem := t.mem, phase := .idle, done := true } ∧
      t.mem.readBytes s.ivAddr 16 = unpack s.cv 16 ∧
      (∀ a, ¬ (s.ivAddr ≤ a ∧ a < s.ivAddr + 16) → t.mem.read a = s.mem.read a) ∧ t.mem.wf t.addrWidth = true

/-- R191: the BLOCK step of `CBC.ENC`, in full: read 16 bytes, XOR with `CV`, one ENC transaction, write the 16 bytes of
its result, carry the result. Which context the transaction changes is the model's reading of R121 (log 7). -/
def Obligations.EncryptBlockStep : Prop :=
  ∀ s : State, s.phase = .block → s.nleft ≠ 0 →
    s.inAddr + 16 ≤ 2 ^ s.addrWidth → s.outAddr + 16 ≤ 2 ^ s.addrWidth →
    s.admitsAll .read s.inAddr 16 = true → s.admitsAll .write s.outAddr 16 = true → s.mem.wf s.addrWidth = true →
    let tin := pack (s.mem.readBytes s.inAddr 16)
    let y := Config.xfEnc s.contexts s.ctx (quadBlock (tin.xor s.cv))
    ∃ t, exec .cbcEnc s = .next t ∧
      t = { s with
        tin := tin, inAddr := (s.inAddr + 16) % 2 ^ s.addrWidth, tout := pack y.1.bytes
        contexts := setContext s.contexts .enc s.ctx y.2
        mem := s.mem.writeBytes s.outAddr y.1.bytes, outAddr := (s.outAddr + 16) % 2 ^ s.addrWidth
        cv := pack y.1.bytes, nleft := s.nleft - 1
        phase := if s.nleft - 1 > 0 then .block else if s.rlen.toNat ≠ 0 then .partialBlock else .storeIv } ∧
      t.mem.readBytes s.outAddr 16 = y.1.bytes ∧ unpack t.cv 16 = y.1.bytes ∧
      ∀ a, ¬ (s.outAddr ≤ a ∧ a < s.outAddr + 16) → t.mem.read a = s.mem.read a

/-- R192: the PARTIAL step of `CBC.ENC`, in full, with `r = RLEN`: the XOR is over all 16 bytes, the message bytes
padded with zeros; only the first `r` bytes of the result reach memory; the whole result is carried. Which context the
transaction changes is the model's reading of R121 (log 7). -/
def Obligations.EncryptPartialStep : Prop :=
  ∀ s : State, s.phase = .partialBlock → s.rlen ≠ 0 →
    let r := s.rlen.toNat
    s.inAddr + r ≤ 2 ^ s.addrWidth → s.outAddr + r ≤ 2 ^ s.addrWidth →
    s.admitsAll .read s.inAddr r = true → s.admitsAll .write s.outAddr r = true → s.mem.wf s.addrWidth = true →
    let tin := pack (s.mem.readBytes s.inAddr r)
    let x := tin.xor s.cv
    let y := Config.xfEnc s.contexts s.ctx (quadBlock x)
    ∃ t, exec .cbcEnc s = .next t ∧
      t = { s with
        tin := tin, inAddr := (s.inAddr + r) % 2 ^ s.addrWidth, tout := pack y.1.bytes
        contexts := setContext s.contexts .enc s.ctx y.2
        mem := s.mem.writeBytes s.outAddr (y.1.bytes.take r), outAddr := (s.outAddr + r) % 2 ^ s.addrWidth
        cv := pack y.1.bytes, phase := .storeIv } ∧
      (∀ k < 16, (unpack x 16).getD k 0 = (if k < r then s.mem.read (s.inAddr + k) else 0) ^^^
        (unpack s.cv 16).getD k 0) ∧
      t.mem.readBytes s.outAddr r = y.1.bytes.take r ∧ unpack t.cv 16 = y.1.bytes ∧
      ∀ a, ¬ (s.outAddr ≤ a ∧ a < s.outAddr + r) → t.mem.read a = s.mem.read a

/-- R211: the BLOCK step of `CBC.DEC`, in full: read 16 bytes, one DEC transaction on the ciphertext itself, XOR the
result with `CV`, write, carry the ciphertext as read. Which context the transaction changes: log 7. -/
def Obligations.DecryptBlockStep : Prop :=
  ∀ s : State, s.phase = .block → s.nleft ≠ 0 →
    s.inAddr + 16 ≤ 2 ^ s.addrWidth → s.outAddr + 16 ≤ 2 ^ s.addrWidth →
    s.admitsAll .read s.inAddr 16 = true → s.admitsAll .write s.outAddr 16 = true → s.mem.wf s.addrWidth = true →
    let c := s.mem.readBytes s.inAddr 16
    let y := Config.xfDec s.contexts s.ctx (quadBlock (pack c))
    let p := xorBytes y.1.bytes (unpack s.cv 16)
    ∃ t, exec .cbcDec s = .next t ∧
      t = { s with
        tin := pack c, inAddr := (s.inAddr + 16) % 2 ^ s.addrWidth, tout := pack y.1.bytes
        contexts := setContext s.contexts .dec s.ctx y.2
        mem := s.mem.writeBytes s.outAddr p, outAddr := (s.outAddr + 16) % 2 ^ s.addrWidth
        cv := pack c, nleft := s.nleft - 1
        phase := if s.nleft - 1 > 0 then .block else if s.rlen.toNat ≠ 0 then .partialBlock else .storeIv } ∧
      t.mem.readBytes s.outAddr 16 = p ∧ unpack t.cv 16 = c ∧
      ∀ a, ¬ (s.outAddr ≤ a ∧ a < s.outAddr + 16) → t.mem.read a = s.mem.read a

/-- R212: the PARTIAL step of `CBC.DEC`, in full, with `r = RLEN`: the transform is given the `r` ciphertext bytes and
zeros, only the first `r` plaintext bytes reach memory, and the zero-padded ciphertext is carried. Which context the
transaction changes: log 7. -/
def Obligations.DecryptPartialStep : Prop :=
  ∀ s : State, s.phase = .partialBlock → s.rlen ≠ 0 →
    let r := s.rlen.toNat
    s.inAddr + r ≤ 2 ^ s.addrWidth → s.outAddr + r ≤ 2 ^ s.addrWidth →
    s.admitsAll .read s.inAddr r = true → s.admitsAll .write s.outAddr r = true → s.mem.wf s.addrWidth = true →
    let c := s.mem.readBytes s.inAddr r
    let y := Config.xfDec s.contexts s.ctx (quadBlock (pack c))
    let p := (xorBytes y.1.bytes (unpack s.cv 16)).take r
    ∃ t, exec .cbcDec s = .next t ∧
      t = { s with
        tin := pack c, inAddr := (s.inAddr + r) % 2 ^ s.addrWidth, tout := pack y.1.bytes
        contexts := setContext s.contexts .dec s.ctx y.2
        mem := s.mem.writeBytes s.outAddr p, outAddr := (s.outAddr + r) % 2 ^ s.addrWidth
        cv := pack c, phase := .storeIv } ∧
      (quadBlock (pack c)).bytes = c ++ List.replicate (16 - r) 0 ∧
      t.mem.readBytes s.outAddr r = p ∧ unpack t.cv 16 = c ++ List.replicate (16 - r) 0 ∧
      ∀ a, ¬ (s.outAddr ≤ a ∧ a < s.outAddr + r) → t.mem.read a = s.mem.read a

/-! ## The marshaller commands -/

/-- R144, R145, R148: the MARSHAL step of `PACK.B` (`c = 16`) and `PACK.P` (`c = CNT`): byte `k` of the `c` bytes at
`IN_ADDR` in word `k div 4`, bits `[31-8*(k mod 4) : 24-8*(k mod 4)]`, zero in every other lane; the cursor advanced by
`c`; complete; and nothing else, no byte of memory among it. -/
def Obligations.PackStep : Prop :=
  ∀ (s : State) (i : Instr) (c : Nat),
    (i = .packB ∧ c = 16 ∨ ∃ cnt, i = .packP cnt ∧ countLegal cnt = true ∧ c = cnt.toNat) →
    s.phase = .marshal → s.inAddr + c ≤ 2 ^ s.addrWidth → s.admitsAll .read s.inAddr c = true →
    ∃ q : Quad,
      exec i s = .next
        { s with w := q, inAddr := (s.inAddr + c) % 2 ^ s.addrWidth, phase := .idle, done := true } ∧
      ∀ k < 16, (q.get (k / 4) >>> (24 - 8 * (k % 4))).setWidth 8 =
        if k < c then s.mem.read (s.inAddr + k) else 0

/-- R146, R147, R148: the MARSHAL step of `UNPACK.B` (`c = 16`) and `UNPACK.P` (`c = CNT`): the first `c` bytes of `W`,
most significant first, at `OUT_ADDR`; every other byte of memory keeps its value; the cursor advanced by `c`; complete;
and nothing else. -/
def Obligations.UnpackStep : Prop :=
  ∀ (s : State) (i : Instr) (c : Nat),
    (i = .unpackB ∧ c = 16 ∨ ∃ cnt, i = .unpackP cnt ∧ countLegal cnt = true ∧ c = cnt.toNat) →
    s.phase = .marshal → s.outAddr + c ≤ 2 ^ s.addrWidth → s.admitsAll .write s.outAddr c = true →
    s.mem.wf s.addrWidth = true →
    ∃ m : Memory,
      exec i s = .next
        { s with mem := m, outAddr := (s.outAddr + c) % 2 ^ s.addrWidth, phase := .idle, done := true } ∧
      (∀ k < c, m.read (s.outAddr + k) = (s.w.get (k / 4) >>> (24 - 8 * (k % 4))).setWidth 8) ∧
      (∀ a, ¬ (s.outAddr ≤ a ∧ a < s.outAddr + c) → m.read a = s.mem.read a) ∧ m.wf s.addrWidth = true

/-! ## Frames over all commands -/

/-- R47, R34, R148: what no step of a command changes: AW, `IV_ADDR`, `LEN`, `CTX`, the inputs of the block for all six;
`W` for the CBC commands; every hidden word register, `NLEFT`, `RLEN` and the provider for the marshaller commands;
memory, `OUT_ADDR` for `PACK.*`; `W`, `IN_ADDR` for `UNPACK.*`; `CMD` and `ERRINFO` once the command is accepted. -/
def Obligations.CommandsKeepTheRegistersTheyDoNotName : Prop :=
  ∀ (i : Instr) (s t : State), exec i s = .next t →
    (t.addrWidth = s.addrWidth ∧ t.ivAddr = s.ivAddr ∧ t.len = s.len ∧ t.ctx = s.ctx ∧ t.fatalIn = s.fatalIn ∧
      t.denied = s.denied ∧ t.inputs = s.inputs ∧ t.rdData = s.rdData ∧ t.freeIx = s.freeIx) ∧
    ((∃ d, i = cbcCommand d) → t.w = s.w) ∧
    ((∀ d, i ≠ cbcCommand d) → t.cv = s.cv ∧ t.tin = s.tin ∧ t.tout = s.tout ∧ t.nleft = s.nleft ∧ t.rlen = s.rlen ∧
      t.contexts = s.contexts) ∧
    ((i = .packB ∨ ∃ cnt, i = .packP cnt) → t.mem = s.mem ∧ t.outAddr = s.outAddr) ∧
    ((i = .unpackB ∨ ∃ cnt, i = .unpackP cnt) → t.w = s.w ∧ t.inAddr = s.inAddr) ∧
    (s.phase ≠ .idle → t.cmd = s.cmd ∧ t.errInfo = s.errInfo)

/-- R42: once a command is accepted no step of it changes ERR or ERRCODE, and none changes DONE but the one that
completes it, which sets it and returns `PHASE` to IDLE. -/
def Obligations.FlagsChangeOnlyAtCompletion : Prop :=
  ∀ (i : Instr) (s t : State), s.busy = true → exec i s = .next t →
    t.err = s.err ∧ (t.busy = true ∧ t.done = s.done ∨ t.phase = .idle ∧ t.done = true)

/-- R122, R129, R131: the provider's state is touched by the BLOCK and PARTIAL steps of the CBC commands and by no other
step, and there only in the context of `CTX` for the command's direction. -/
def Obligations.OnlyPassesUseThePort : Prop :=
  ∀ (i : Instr) (s t : State), exec i s = .next t →
    t.contexts = s.contexts ∨
    ∃ d bytes, i = cbcCommand d ∧ (s.phase = .block ∨ s.phase = .partialBlock) ∧
      t.contexts = setContext s.contexts d s.ctx bytes ∧
      ∀ d' h, (d' ≠ d ∨ h ≠ s.ctx) → contextState t.contexts d' h = contextState s.contexts d' h

/-- R22: `CMD` holds the last accepted command word. A step changes it only by accepting the word written, or by reset,
after which it is 0; and a write in IDLE that is accepted (it leaves the block BUSY) leaves the word written in it. -/
def Obligations.CmdHoldsTheLastAcceptedWord : Prop :=
  ∀ s t : State, step s = .next t →
    (t.cmd = s.cmd ∨ (∃ rest, s.inputs = .reset :: rest ∧ t.cmd = 0) ∨
      ∃ v rest, s.phase = .idle ∧ s.inputs = wr .cmd v :: rest ∧ t.cmd = BitVec.ofNat 32 v ∧ t.busy = true ∧
        t.done = false ∧ t.err = none) ∧
    ∀ v rest, s.phase = .idle → s.inputs = wr .cmd v :: rest → t.busy = true → t.cmd = BitVec.ofNat 32 v

/-- R29: `ERRINFO` is written by a rejection and by nothing else; 0 after reset. A write to `CMD` in IDLE that is
rejected (with `fatal_in` = 0 it leaves the block IDLE) leaves the word written in it. -/
def Obligations.ErrInfoWrittenOnlyByRejection : Prop :=
  ∀ s t : State, step s = .next t →
    (t.errInfo = s.errInfo ∨ (∃ rest, s.inputs = .reset :: rest ∧ t.errInfo = 0) ∨
      ∃ v rest code, s.phase = .idle ∧ s.inputs = wr .cmd v :: rest ∧ t.errInfo = BitVec.ofNat 32 v ∧
        t.err = some code ∧ t.done = false ∧ t.phase = .idle) ∧
    ∀ v rest, s.phase = .idle → s.fatalIn = false → s.inputs = wr .cmd v :: rest → t.phase = .idle →
      t.errInfo = BitVec.ofNat 32 v

/-- R38: no step's outcome depends on a hidden register that the command has not written: two states that differ only in
such registers step to two states that differ only in such registers, and the host reads the same in both. The events
of the model (log 2) include a reset, after which both hold the same free values (log 5). -/
def Obligations.HiddenRegistersAreNotObserved : Prop :=
  ∀ s u t : State, s.agreesWith u → step s = .next t →
    (∀ r, u.readReg r = s.readReg r) ∧ ∃ v, step u = .next v ∧ t.agreesWith v

/-! ## Events of the environment -/

/-- R44: once `fatal_in` is 1 it stays 1 until reset of the adapter, whatever else happens. -/
def Obligations.FatalInputStaysUntilAdapterReset : Prop :=
  ∀ s t : State, s.fatalIn = true → step s = .next t →
    ((∀ rest, s.inputs ≠ .adapterReset :: rest) → t.fatalIn = true) ∧
    ((∃ rest, s.inputs = .adapterReset :: rest) → t.fatalIn = false)

/-- R123, R127, R44: creating a context with the adapter makes its handle valid for its direction and leaves every other
handle's validity and context state as they were, where the provider's context size fits; else no context results and
`fatal_in` is 1. Discarding makes it invalid and leaves every other as it was. A handle is one of AW bits (R28, log 1);
how the check reaches `fatal_in` inside one event is the model's (log 17). That the new bytes replace the old context's
where the handle was already valid for the direction is the model's choice (log 27). -/
def Obligations.ContextCreationAndDiscard : Prop :=
  (∀ (s : State) (d : Dir) (k : Nat) (bytes : List Byte) (rest : List Input),
    s.inputs = .initContext d k bytes :: rest →
    let h := k % 2 ^ s.addrWidth
    (Config.ctxSize ≤ Config.ctxMax → ∃ P, step s = .next { s with inputs := rest, contexts := P } ∧
      xfValid P d h = true ∧ contextState P d h = some bytes ∧
      ∀ d' h', (d' ≠ d ∨ h' ≠ h) → xfValid P d' h' = xfValid s.contexts d' h' ∧
        contextState P d' h' = contextState s.contexts d' h') ∧
    (Config.ctxMax < Config.ctxSize → step s = .next { s with inputs := rest, fatalIn := true })) ∧
  ∀ (s : State) (d : Dir) (k : Nat) (rest : List Input), s.inputs = .discardContext d k :: rest →
    let h := k % 2 ^ s.addrWidth
    ∃ P, step s = .next { s with inputs := rest, contexts := P } ∧ xfValid P d h = false ∧
      ∀ d' h', (d' ≠ d ∨ h' ≠ h) → xfValid P d' h' = xfValid s.contexts d' h' ∧
        contextState P d' h' = contextState s.contexts d' h'

/-! ## Invariants and whole commands -/

/-- The reset state meets the invariant. -/
def Obligations.ResetMeetsTheInvariant : Prop := State.reset.Inv

/-- Every step keeps the invariant, and the width AW that it is about: the memory's canonical form below `2^AW`, every
register and handle a value of its width, DONE and ERR never both set nor set while BUSY, `CMD` a command or 0, and in
every phase the accepted command, the counters and the cursors as R39, R40, R148, R166, R169 make them. -/
def Obligations.EveryStepKeepsTheInvariant : Prop :=
  ∀ s t : State, s.Inv → step s = .next t → t.Inv ∧ t.addrWidth = s.addrWidth

/-- R171, R230: from a state that meets the invariant the machine always goes on: no step faults and none is refused, so
an accepted command has no error exit. -/
def Obligations.NoStepFaultsUnderTheInvariant : Prop :=
  ∀ s : State, s.Inv → ∃ t, step s = .next t

/-- R160, R171, R175: an accepted command completes: from any BUSY state that meets the invariant, with `fatal_in` = 0,
every access admitted and no event listed, at most `NLEFT + 3` steps lead to IDLE with DONE = 1 and ERR = 0. -/
def Obligations.AcceptedCommandCompletes : Prop :=
  ∀ s : State, s.Inv → s.busy = true → s.fatalIn = false → s.admitsEverything → s.inputs = [] →
    ∃ k t, k ≤ s.nleft + 3 ∧ s.runsTo k t ∧ t.phase = .idle ∧ t.done = true ∧ t.err = none

/-- R193 and R213 with R171, R172, R276: a CBC command, written to `CMD` with its checks passing and its writes trailing
its reads, runs `2 + n + p` steps after its acceptance and leaves exactly: the closed form's output at `OUT_ADDR`, then
its last chaining value at `IV_ADDR`, both cursors advanced by `LEN`, DONE = 1, the provider's state as the transactions
in block order leave it, and everything else the host can see unchanged. -/
def Obligations.CbcCommandClosedForm : Prop :=
  ∀ (d : Dir) (s : State), s.readyForCbc d →
    let r := s.closedForm d
    r.output.length = s.len ∧ r.carry.length = 16 ∧
    ∃ t, s.runsTo (1 + cbcSteps s.len) t ∧
      t.mem = (s.mem.writeBytes s.outAddr r.output).writeBytes s.ivAddr r.carry ∧
      t = { s with
        cmd := encode (cbcCommand d), done := true, err := none
        inAddr := (s.inAddr + s.len) % 2 ^ s.addrWidth, outAddr := (s.outAddr + s.len) % 2 ^ s.addrWidth
        mem := t.mem, contexts := r.contexts, inputs := []
        cv := t.cv, tin := t.tin, tout := t.tout, nleft := t.nleft, rlen := t.rlen }

/-- R194 (a), R214 (a): a CBC command with `LEN = 0` is accepted and in two steps leaves memory, cursors and the
provider exactly as they were, DONE = 1. -/
def Obligations.ZeroLengthLeavesMemory : Prop :=
  ∀ (d : Dir) (s : State), s.readyForCbc d → s.len = 0 →
    ∃ t, s.runsTo 3 t ∧ t.mem = s.mem ∧ t.contexts = s.contexts ∧ t.inAddr = s.inAddr ∧ t.outAddr = s.outAddr ∧
      t.phase = .idle ∧ t.done = true ∧ t.err = none

/-- R215 (a): the round trip for whole blocks. `s` encrypts and ends in `t`; `u` decrypts `s`'s output with the original
IV bytes; under the named provider properties `u` recovers `s`'s plaintext and both leave the same IV. -/
def Obligations.WholeBlocksRoundTrip : Prop :=
  ∀ s t u : State, s.readyForCbc .enc → s.len % 16 = 0 → s.ivApartFrom s.outAddr s.len →
    s.runsTo (1 + cbcSteps s.len) t →
    u.readyForCbc .dec → u.len = s.len → u.ivApartFrom u.outAddr u.len → u.contexts = t.contexts →
    u.mem.readBytes u.inAddr u.len = t.mem.readBytes s.outAddr s.len →
    u.mem.readBytes u.ivAddr 16 = s.mem.readBytes s.ivAddr 16 →
    XfLocal .dec u.ctx → XfReadonly .enc s.ctx → XfReadonly .dec u.ctx → XfInverse s.contexts s.ctx u.ctx →
    ∃ v, u.runsTo (1 + cbcSteps u.len) v ∧
      v.mem.readBytes u.outAddr u.len = s.mem.readBytes s.inAddr s.len ∧
      v.mem.readBytes u.ivAddr 16 = t.mem.readBytes s.ivAddr 16

/-- R195 (a), R215 (d): continuity at block boundaries. Two commands of lengths `L1`, a multiple of 16, and `L2`, with IV
and cursors carried over, leave memory, cursors and the provider as one command of length `L1 + L2` does. -/
def Obligations.ContinuityAtBlockBoundaries : Prop :=
  ∀ (d : Dir) (s : State) (n1 n2 : Nat), s.phase = .idle → s.fatalIn = false → s.mem.wf s.addrWidth = true →
    s.admitsEverything → xfValid s.contexts d s.ctx = true → n1 % 16 = 0 → n1 + n2 < 2 ^ s.addrWidth →
    s.valuesFit → s.inAddr + (n1 + n2) ≤ 2 ^ s.addrWidth → s.outAddr + (n1 + n2) ≤ 2 ^ s.addrWidth →
    s.ivAddr + 16 ≤ 2 ^ s.addrWidth →
    (s.outAddr ≤ s.inAddr ∨ s.inAddr + (n1 + n2) ≤ s.outAddr) →
    s.ivApartFrom s.inAddr (n1 + n2) →
    ∃ j k t u, State.runsTo { s with inputs := continueCbc d n1 ++ continueCbc d n2 } j t ∧
      State.runsTo { s with inputs := continueCbc d (n1 + n2) } k u ∧
      t.overWell = true ∧ u.overWell = true ∧ t.inputs = [] ∧ u.inputs = [] ∧
      t.mem = u.mem ∧ t.inAddr = u.inAddr ∧ t.outAddr = u.outAddr ∧ t.contexts = u.contexts

/-- R279: a run is over exactly when the block is IDLE and the host has no further action: whatever events are still
listed are the sequencer's, the environment's or another agent's (which they are: log 26). It is over well exactly
when in addition `STATUS` shows FATAL = 0 and DONE = 1. HALT, and a block that stays BUSY, are never a good end. -/
def Obligations.RunIsOverWhenTheHostHasNoFurtherAction : Prop :=
  ∀ s : State,
    (s.over = true ↔ s.phase = .idle ∧ ∀ e ∈ s.inputs,
      e = .sequencer ∨ e = .reset ∨ e = .fatalRise ∨ e = .adapterReset ∨ ∃ a b, e = .agentWrite a b) ∧
    (s.overWell = true ↔ s.over = true ∧ s.status.getLsbD 3 = false ∧ s.status.getLsbD 1 = true) ∧
    (s.phase = .halt → s.overWell = false) ∧ (s.busy = true → s.overWell = false)
end

