-- ==== Sys2Proof/Laws/Decode.lean ====
section
/-! SUPPORT. The fields of a command word, and that a well-formed command's word has the fields of the command. -/

namespace Sys2Proof

/-- A word is its three fields (30_encoding.md R90). -/
theorem toNat_eq_fields (w : Word) :
    w.toNat = (rsvField w).toNat * 512 + (cntField w).toNat * 16 + (opField w).toNat := by
  simp [opField, cntField, rsvField, Nat.shiftRight_eq_div_pow]
  omega

theorem word_eq_of_fields {v w : Word} (h1 : rsvField v = rsvField w) (h2 : cntField v = cntField w)
    (h3 : opField v = opField w) : v = w :=
  BitVec.eq_of_toNat_eq (by rw [toNat_eq_fields v, toNat_eq_fields w, h1, h2, h3])

/-- The `OP` field of a command's word is its opcode. -/
theorem opField_encode (i : Instr) : opField (encode i) = opcode i := by
  cases i with
  | packP cnt => revert cnt; decide
  | unpackP cnt => revert cnt; decide
  | _ => decide

/-- The `CNT` field of a command's word is its count field. -/
theorem cntField_encode (i : Instr) : cntField (encode i) = countField i := by
  cases i with
  | packP cnt => revert cnt; decide
  | unpackP cnt => revert cnt; decide
  | _ => decide

/-- Bits 31:9 of a command's word are zero. -/
theorem rsvField_encode (i : Instr) : rsvField (encode i) = 0 := by
  cases i with
  | packP cnt => revert cnt; decide
  | unpackP cnt => revert cnt; decide
  | _ => decide

/-- The word of a well-formed command decodes to it. -/
theorem decode_encode {i : Instr} (h : i.wf = true) : decode (encode i) = .command i := by
  cases i with
  | packP cnt => revert h; revert cnt; decide
  | unpackP cnt => revert h; revert cnt; decide
  | _ => decide

/-- The word of a command with an illegal count is rejected with BAD_COUNT. -/
theorem decode_encode_illegal {i : Instr} (h : i.wf = false) : decode (encode i) = .reject .badCount := by
  cases i with
  | packP cnt => revert h; revert cnt; decide
  | unpackP cnt => revert h; revert cnt; decide
  | _ => simp [Instr.wf] at h

/-- What the decoder gives is a well-formed command. -/
theorem wf_of_decode {w : Word} {i : Instr} (h : decode w = .command i) : i.wf = true := by
  simp only [decode] at h
  split_ifs at h <;> simp only [Decoded.command.injEq] at h <;> subst h <;> simp_all [Instr.wf]

theorem zero_no_command (i : Instr) : decode 0 ≠ .command i := by
  rw [show decode 0 = .reject .illegalOp by decide]
  exact nofun

end Sys2Proof
end

