-- ==== Sys2Proof/Laws/State.lean ====
section
/-! SUPPORT. The fields of State after each named update: one lemma per field and update, so that no proof unfolds a
record update. -/

namespace Sys2Proof.Machine

/-! ### reject -/

@[simp] theorem State.reject_addrWidth (s : State) (c : ErrCode) (x : Word) :
    (s.reject c x).addrWidth = s.addrWidth := rfl
@[simp] theorem State.reject_cmd (s : State) (c : ErrCode) (x : Word) : (s.reject c x).cmd = s.cmd := rfl
@[simp] theorem State.reject_done (s : State) (c : ErrCode) (x : Word) : (s.reject c x).done = false := rfl
@[simp] theorem State.reject_err (s : State) (c : ErrCode) (x : Word) : (s.reject c x).err = some c := rfl
@[simp] theorem State.reject_inAddr (s : State) (c : ErrCode) (x : Word) : (s.reject c x).inAddr = s.inAddr := rfl
@[simp] theorem State.reject_outAddr (s : State) (c : ErrCode) (x : Word) :
    (s.reject c x).outAddr = s.outAddr := rfl
@[simp] theorem State.reject_ivAddr (s : State) (c : ErrCode) (x : Word) : (s.reject c x).ivAddr = s.ivAddr := rfl
@[simp] theorem State.reject_len (s : State) (c : ErrCode) (x : Word) : (s.reject c x).len = s.len := rfl
@[simp] theorem State.reject_ctx (s : State) (c : ErrCode) (x : Word) : (s.reject c x).ctx = s.ctx := rfl
@[simp] theorem State.reject_errInfo (s : State) (c : ErrCode) (x : Word) : (s.reject c x).errInfo = x := rfl
@[simp] theorem State.reject_w (s : State) (c : ErrCode) (x : Word) : (s.reject c x).w = s.w := rfl
@[simp] theorem State.reject_cv (s : State) (c : ErrCode) (x : Word) : (s.reject c x).cv = s.cv := rfl
@[simp] theorem State.reject_tin (s : State) (c : ErrCode) (x : Word) : (s.reject c x).tin = s.tin := rfl
@[simp] theorem State.reject_tout (s : State) (c : ErrCode) (x : Word) : (s.reject c x).tout = s.tout := rfl
@[simp] theorem State.reject_phase (s : State) (c : ErrCode) (x : Word) : (s.reject c x).phase = s.phase := rfl
@[simp] theorem State.reject_nleft (s : State) (c : ErrCode) (x : Word) : (s.reject c x).nleft = s.nleft := rfl
@[simp] theorem State.reject_rlen (s : State) (c : ErrCode) (x : Word) : (s.reject c x).rlen = s.rlen := rfl
@[simp] theorem State.reject_mem (s : State) (c : ErrCode) (x : Word) : (s.reject c x).mem = s.mem := rfl
@[simp] theorem State.reject_contexts (s : State) (c : ErrCode) (x : Word) :
    (s.reject c x).contexts = s.contexts := rfl
@[simp] theorem State.reject_fatalIn (s : State) (c : ErrCode) (x : Word) :
    (s.reject c x).fatalIn = s.fatalIn := rfl
@[simp] theorem State.reject_denied (s : State) (c : ErrCode) (x : Word) : (s.reject c x).denied = s.denied := rfl
@[simp] theorem State.reject_inputs (s : State) (c : ErrCode) (x : Word) : (s.reject c x).inputs = s.inputs := rfl
@[simp] theorem State.reject_rdData (s : State) (c : ErrCode) (x : Word) : (s.reject c x).rdData = s.rdData := rfl
@[simp] theorem State.reject_freeIx (s : State) (c : ErrCode) (x : Word) : (s.reject c x).freeIx = s.freeIx := rfl

/-! ### enterHalt -/

@[simp] theorem State.enterHalt_addrWidth (s : State) :
    (s.enterHalt).addrWidth = s.addrWidth := rfl
@[simp] theorem State.enterHalt_cmd (s : State) : (s.enterHalt).cmd = s.cmd := rfl
@[simp] theorem State.enterHalt_done (s : State) : (s.enterHalt).done = s.done := rfl
@[simp] theorem State.enterHalt_err (s : State) : (s.enterHalt).err = s.err := rfl
@[simp] theorem State.enterHalt_inAddr (s : State) : (s.enterHalt).inAddr = s.inAddr := rfl
@[simp] theorem State.enterHalt_outAddr (s : State) : (s.enterHalt).outAddr = s.outAddr := rfl
@[simp] theorem State.enterHalt_ivAddr (s : State) : (s.enterHalt).ivAddr = s.ivAddr := rfl
@[simp] theorem State.enterHalt_len (s : State) : (s.enterHalt).len = s.len := rfl
@[simp] theorem State.enterHalt_ctx (s : State) : (s.enterHalt).ctx = s.ctx := rfl
@[simp] theorem State.enterHalt_errInfo (s : State) : (s.enterHalt).errInfo = s.errInfo := rfl
@[simp] theorem State.enterHalt_w (s : State) : (s.enterHalt).w = s.w := rfl
@[simp] theorem State.enterHalt_cv (s : State) : (s.enterHalt).cv = s.cv := rfl
@[simp] theorem State.enterHalt_tin (s : State) : (s.enterHalt).tin = s.tin := rfl
@[simp] theorem State.enterHalt_tout (s : State) : (s.enterHalt).tout = s.tout := rfl
@[simp] theorem State.enterHalt_phase (s : State) : (s.enterHalt).phase = .halt := rfl
@[simp] theorem State.enterHalt_nleft (s : State) : (s.enterHalt).nleft = s.nleft := rfl
@[simp] theorem State.enterHalt_rlen (s : State) : (s.enterHalt).rlen = s.rlen := rfl
@[simp] theorem State.enterHalt_mem (s : State) : (s.enterHalt).mem = s.mem := rfl
@[simp] theorem State.enterHalt_contexts (s : State) : (s.enterHalt).contexts = s.contexts := rfl
@[simp] theorem State.enterHalt_fatalIn (s : State) : (s.enterHalt).fatalIn = s.fatalIn := rfl
@[simp] theorem State.enterHalt_denied (s : State) : (s.enterHalt).denied = s.denied := rfl
@[simp] theorem State.enterHalt_inputs (s : State) : (s.enterHalt).inputs = s.inputs := rfl
@[simp] theorem State.enterHalt_rdData (s : State) : (s.enterHalt).rdData = s.rdData := rfl
@[simp] theorem State.enterHalt_freeIx (s : State) : (s.enterHalt).freeIx = s.freeIx := rfl

/-! ### accept -/

@[simp] theorem State.accept_addrWidth (s : State) (x : Word) (p : Phase) :
    (s.accept x p).addrWidth = s.addrWidth := rfl
@[simp] theorem State.accept_cmd (s : State) (x : Word) (p : Phase) : (s.accept x p).cmd = x := rfl
@[simp] theorem State.accept_done (s : State) (x : Word) (p : Phase) : (s.accept x p).done = false := rfl
@[simp] theorem State.accept_err (s : State) (x : Word) (p : Phase) : (s.accept x p).err = none := rfl
@[simp] theorem State.accept_inAddr (s : State) (x : Word) (p : Phase) : (s.accept x p).inAddr = s.inAddr := rfl
@[simp] theorem State.accept_outAddr (s : State) (x : Word) (p : Phase) : (s.accept x p).outAddr = s.outAddr := rfl
@[simp] theorem State.accept_ivAddr (s : State) (x : Word) (p : Phase) : (s.accept x p).ivAddr = s.ivAddr := rfl
@[simp] theorem State.accept_len (s : State) (x : Word) (p : Phase) : (s.accept x p).len = s.len := rfl
@[simp] theorem State.accept_ctx (s : State) (x : Word) (p : Phase) : (s.accept x p).ctx = s.ctx := rfl
@[simp] theorem State.accept_errInfo (s : State) (x : Word) (p : Phase) : (s.accept x p).errInfo = s.errInfo := rfl
@[simp] theorem State.accept_w (s : State) (x : Word) (p : Phase) : (s.accept x p).w = s.w := rfl
@[simp] theorem State.accept_cv (s : State) (x : Word) (p : Phase) : (s.accept x p).cv = s.cv := rfl
@[simp] theorem State.accept_tin (s : State) (x : Word) (p : Phase) : (s.accept x p).tin = s.tin := rfl
@[simp] theorem State.accept_tout (s : State) (x : Word) (p : Phase) : (s.accept x p).tout = s.tout := rfl
@[simp] theorem State.accept_phase (s : State) (x : Word) (p : Phase) : (s.accept x p).phase = p := rfl
@[simp] theorem State.accept_nleft (s : State) (x : Word) (p : Phase) : (s.accept x p).nleft = s.nleft := rfl
@[simp] theorem State.accept_rlen (s : State) (x : Word) (p : Phase) : (s.accept x p).rlen = s.rlen := rfl
@[simp] theorem State.accept_mem (s : State) (x : Word) (p : Phase) : (s.accept x p).mem = s.mem := rfl
@[simp] theorem State.accept_contexts (s : State) (x : Word) (p : Phase) :
    (s.accept x p).contexts = s.contexts := rfl
@[simp] theorem State.accept_fatalIn (s : State) (x : Word) (p : Phase) : (s.accept x p).fatalIn = s.fatalIn := rfl
@[simp] theorem State.accept_denied (s : State) (x : Word) (p : Phase) : (s.accept x p).denied = s.denied := rfl
@[simp] theorem State.accept_inputs (s : State) (x : Word) (p : Phase) : (s.accept x p).inputs = s.inputs := rfl
@[simp] theorem State.accept_rdData (s : State) (x : Word) (p : Phase) : (s.accept x p).rdData = s.rdData := rfl
@[simp] theorem State.accept_freeIx (s : State) (x : Word) (p : Phase) : (s.accept x p).freeIx = s.freeIx := rfl

/-! ### complete -/

@[simp] theorem State.complete_addrWidth (s : State) :
    (s.complete).addrWidth = s.addrWidth := rfl
@[simp] theorem State.complete_cmd (s : State) : (s.complete).cmd = s.cmd := rfl
@[simp] theorem State.complete_done (s : State) : (s.complete).done = true := rfl
@[simp] theorem State.complete_err (s : State) : (s.complete).err = s.err := rfl
@[simp] theorem State.complete_inAddr (s : State) : (s.complete).inAddr = s.inAddr := rfl
@[simp] theorem State.complete_outAddr (s : State) : (s.complete).outAddr = s.outAddr := rfl
@[simp] theorem State.complete_ivAddr (s : State) : (s.complete).ivAddr = s.ivAddr := rfl
@[simp] theorem State.complete_len (s : State) : (s.complete).len = s.len := rfl
@[simp] theorem State.complete_ctx (s : State) : (s.complete).ctx = s.ctx := rfl
@[simp] theorem State.complete_errInfo (s : State) : (s.complete).errInfo = s.errInfo := rfl
@[simp] theorem State.complete_w (s : State) : (s.complete).w = s.w := rfl
@[simp] theorem State.complete_cv (s : State) : (s.complete).cv = s.cv := rfl
@[simp] theorem State.complete_tin (s : State) : (s.complete).tin = s.tin := rfl
@[simp] theorem State.complete_tout (s : State) : (s.complete).tout = s.tout := rfl
@[simp] theorem State.complete_phase (s : State) : (s.complete).phase = .idle := rfl
@[simp] theorem State.complete_nleft (s : State) : (s.complete).nleft = s.nleft := rfl
@[simp] theorem State.complete_rlen (s : State) : (s.complete).rlen = s.rlen := rfl
@[simp] theorem State.complete_mem (s : State) : (s.complete).mem = s.mem := rfl
@[simp] theorem State.complete_contexts (s : State) : (s.complete).contexts = s.contexts := rfl
@[simp] theorem State.complete_fatalIn (s : State) : (s.complete).fatalIn = s.fatalIn := rfl
@[simp] theorem State.complete_denied (s : State) : (s.complete).denied = s.denied := rfl
@[simp] theorem State.complete_inputs (s : State) : (s.complete).inputs = s.inputs := rfl
@[simp] theorem State.complete_rdData (s : State) : (s.complete).rdData = s.rdData := rfl
@[simp] theorem State.complete_freeIx (s : State) : (s.complete).freeIx = s.freeIx := rfl

/-! ### packBody -/

@[simp] theorem State.packBody_addrWidth (s : State) (n : Nat) :
    (s.packBody n).addrWidth = s.addrWidth := rfl
@[simp] theorem State.packBody_cmd (s : State) (n : Nat) : (s.packBody n).cmd = s.cmd := rfl
@[simp] theorem State.packBody_done (s : State) (n : Nat) : (s.packBody n).done = true := rfl
@[simp] theorem State.packBody_err (s : State) (n : Nat) : (s.packBody n).err = s.err := rfl
@[simp] theorem State.packBody_inAddr (s : State) (n : Nat) :
    (s.packBody n).inAddr = advance s.addrWidth s.inAddr n := rfl
@[simp] theorem State.packBody_outAddr (s : State) (n : Nat) : (s.packBody n).outAddr = s.outAddr := rfl
@[simp] theorem State.packBody_ivAddr (s : State) (n : Nat) : (s.packBody n).ivAddr = s.ivAddr := rfl
@[simp] theorem State.packBody_len (s : State) (n : Nat) : (s.packBody n).len = s.len := rfl
@[simp] theorem State.packBody_ctx (s : State) (n : Nat) : (s.packBody n).ctx = s.ctx := rfl
@[simp] theorem State.packBody_errInfo (s : State) (n : Nat) : (s.packBody n).errInfo = s.errInfo := rfl
@[simp] theorem State.packBody_w (s : State) (n : Nat) :
    (s.packBody n).w = pack (s.mem.readBytes s.inAddr n) := rfl
@[simp] theorem State.packBody_cv (s : State) (n : Nat) : (s.packBody n).cv = s.cv := rfl
@[simp] theorem State.packBody_tin (s : State) (n : Nat) : (s.packBody n).tin = s.tin := rfl
@[simp] theorem State.packBody_tout (s : State) (n : Nat) : (s.packBody n).tout = s.tout := rfl
@[simp] theorem State.packBody_phase (s : State) (n : Nat) : (s.packBody n).phase = .idle := rfl
@[simp] theorem State.packBody_nleft (s : State) (n : Nat) : (s.packBody n).nleft = s.nleft := rfl
@[simp] theorem State.packBody_rlen (s : State) (n : Nat) : (s.packBody n).rlen = s.rlen := rfl
@[simp] theorem State.packBody_mem (s : State) (n : Nat) : (s.packBody n).mem = s.mem := rfl
@[simp] theorem State.packBody_contexts (s : State) (n : Nat) : (s.packBody n).contexts = s.contexts := rfl
@[simp] theorem State.packBody_fatalIn (s : State) (n : Nat) : (s.packBody n).fatalIn = s.fatalIn := rfl
@[simp] theorem State.packBody_denied (s : State) (n : Nat) : (s.packBody n).denied = s.denied := rfl
@[simp] theorem State.packBody_inputs (s : State) (n : Nat) : (s.packBody n).inputs = s.inputs := rfl
@[simp] theorem State.packBody_rdData (s : State) (n : Nat) : (s.packBody n).rdData = s.rdData := rfl
@[simp] theorem State.packBody_freeIx (s : State) (n : Nat) : (s.packBody n).freeIx = s.freeIx := rfl

/-! ### unpackBody -/

@[simp] theorem State.unpackBody_addrWidth (s : State) (n : Nat) :
    (s.unpackBody n).addrWidth = s.addrWidth := rfl
@[simp] theorem State.unpackBody_cmd (s : State) (n : Nat) : (s.unpackBody n).cmd = s.cmd := rfl
@[simp] theorem State.unpackBody_done (s : State) (n : Nat) : (s.unpackBody n).done = true := rfl
@[simp] theorem State.unpackBody_err (s : State) (n : Nat) : (s.unpackBody n).err = s.err := rfl
@[simp] theorem State.unpackBody_inAddr (s : State) (n : Nat) : (s.unpackBody n).inAddr = s.inAddr := rfl
@[simp] theorem State.unpackBody_outAddr (s : State) (n : Nat) :
    (s.unpackBody n).outAddr = advance s.addrWidth s.outAddr n := rfl
@[simp] theorem State.unpackBody_ivAddr (s : State) (n : Nat) : (s.unpackBody n).ivAddr = s.ivAddr := rfl
@[simp] theorem State.unpackBody_len (s : State) (n : Nat) : (s.unpackBody n).len = s.len := rfl
@[simp] theorem State.unpackBody_ctx (s : State) (n : Nat) : (s.unpackBody n).ctx = s.ctx := rfl
@[simp] theorem State.unpackBody_errInfo (s : State) (n : Nat) : (s.unpackBody n).errInfo = s.errInfo := rfl
@[simp] theorem State.unpackBody_w (s : State) (n : Nat) : (s.unpackBody n).w = s.w := rfl
@[simp] theorem State.unpackBody_cv (s : State) (n : Nat) : (s.unpackBody n).cv = s.cv := rfl
@[simp] theorem State.unpackBody_tin (s : State) (n : Nat) : (s.unpackBody n).tin = s.tin := rfl
@[simp] theorem State.unpackBody_tout (s : State) (n : Nat) : (s.unpackBody n).tout = s.tout := rfl
@[simp] theorem State.unpackBody_phase (s : State) (n : Nat) : (s.unpackBody n).phase = .idle := rfl
@[simp] theorem State.unpackBody_nleft (s : State) (n : Nat) : (s.unpackBody n).nleft = s.nleft := rfl
@[simp] theorem State.unpackBody_rlen (s : State) (n : Nat) : (s.unpackBody n).rlen = s.rlen := rfl
@[simp] theorem State.unpackBody_mem (s : State) (n : Nat) :
    (s.unpackBody n).mem = s.mem.writeBytes s.outAddr (unpack s.w n) := rfl
@[simp] theorem State.unpackBody_contexts (s : State) (n : Nat) : (s.unpackBody n).contexts = s.contexts := rfl
@[simp] theorem State.unpackBody_fatalIn (s : State) (n : Nat) : (s.unpackBody n).fatalIn = s.fatalIn := rfl
@[simp] theorem State.unpackBody_denied (s : State) (n : Nat) : (s.unpackBody n).denied = s.denied := rfl
@[simp] theorem State.unpackBody_inputs (s : State) (n : Nat) : (s.unpackBody n).inputs = s.inputs := rfl
@[simp] theorem State.unpackBody_rdData (s : State) (n : Nat) : (s.unpackBody n).rdData = s.rdData := rfl
@[simp] theorem State.unpackBody_freeIx (s : State) (n : Nat) : (s.unpackBody n).freeIx = s.freeIx := rfl

/-! ### loadIvBody -/

@[simp] theorem State.loadIvBody_addrWidth (s : State) :
    (s.loadIvBody).addrWidth = s.addrWidth := rfl
@[simp] theorem State.loadIvBody_cmd (s : State) : (s.loadIvBody).cmd = s.cmd := rfl
@[simp] theorem State.loadIvBody_done (s : State) : (s.loadIvBody).done = s.done := rfl
@[simp] theorem State.loadIvBody_err (s : State) : (s.loadIvBody).err = s.err := rfl
@[simp] theorem State.loadIvBody_inAddr (s : State) : (s.loadIvBody).inAddr = s.inAddr := rfl
@[simp] theorem State.loadIvBody_outAddr (s : State) : (s.loadIvBody).outAddr = s.outAddr := rfl
@[simp] theorem State.loadIvBody_ivAddr (s : State) : (s.loadIvBody).ivAddr = s.ivAddr := rfl
@[simp] theorem State.loadIvBody_len (s : State) : (s.loadIvBody).len = s.len := rfl
@[simp] theorem State.loadIvBody_ctx (s : State) : (s.loadIvBody).ctx = s.ctx := rfl
@[simp] theorem State.loadIvBody_errInfo (s : State) : (s.loadIvBody).errInfo = s.errInfo := rfl
@[simp] theorem State.loadIvBody_w (s : State) : (s.loadIvBody).w = s.w := rfl
@[simp] theorem State.loadIvBody_cv (s : State) :
    (s.loadIvBody).cv = pack (s.mem.readBytes s.ivAddr 16) := rfl
@[simp] theorem State.loadIvBody_tin (s : State) : (s.loadIvBody).tin = s.tin := rfl
@[simp] theorem State.loadIvBody_tout (s : State) : (s.loadIvBody).tout = s.tout := rfl
@[simp] theorem State.loadIvBody_phase (s : State) : (s.loadIvBody).phase = nextPhase s.nleft s.rlen := rfl
@[simp] theorem State.loadIvBody_nleft (s : State) : (s.loadIvBody).nleft = s.nleft := rfl
@[simp] theorem State.loadIvBody_rlen (s : State) : (s.loadIvBody).rlen = s.rlen := rfl
@[simp] theorem State.loadIvBody_mem (s : State) : (s.loadIvBody).mem = s.mem := rfl
@[simp] theorem State.loadIvBody_contexts (s : State) : (s.loadIvBody).contexts = s.contexts := rfl
@[simp] theorem State.loadIvBody_fatalIn (s : State) : (s.loadIvBody).fatalIn = s.fatalIn := rfl
@[simp] theorem State.loadIvBody_denied (s : State) : (s.loadIvBody).denied = s.denied := rfl
@[simp] theorem State.loadIvBody_inputs (s : State) : (s.loadIvBody).inputs = s.inputs := rfl
@[simp] theorem State.loadIvBody_rdData (s : State) : (s.loadIvBody).rdData = s.rdData := rfl
@[simp] theorem State.loadIvBody_freeIx (s : State) : (s.loadIvBody).freeIx = s.freeIx := rfl

/-! ### storeIvBody -/

@[simp] theorem State.storeIvBody_addrWidth (s : State) :
    (s.storeIvBody).addrWidth = s.addrWidth := rfl
@[simp] theorem State.storeIvBody_cmd (s : State) : (s.storeIvBody).cmd = s.cmd := rfl
@[simp] theorem State.storeIvBody_done (s : State) : (s.storeIvBody).done = true := rfl
@[simp] theorem State.storeIvBody_err (s : State) : (s.storeIvBody).err = s.err := rfl
@[simp] theorem State.storeIvBody_inAddr (s : State) : (s.storeIvBody).inAddr = s.inAddr := rfl
@[simp] theorem State.storeIvBody_outAddr (s : State) : (s.storeIvBody).outAddr = s.outAddr := rfl
@[simp] theorem State.storeIvBody_ivAddr (s : State) : (s.storeIvBody).ivAddr = s.ivAddr := rfl
@[simp] theorem State.storeIvBody_len (s : State) : (s.storeIvBody).len = s.len := rfl
@[simp] theorem State.storeIvBody_ctx (s : State) : (s.storeIvBody).ctx = s.ctx := rfl
@[simp] theorem State.storeIvBody_errInfo (s : State) : (s.storeIvBody).errInfo = s.errInfo := rfl
@[simp] theorem State.storeIvBody_w (s : State) : (s.storeIvBody).w = s.w := rfl
@[simp] theorem State.storeIvBody_cv (s : State) : (s.storeIvBody).cv = s.cv := rfl
@[simp] theorem State.storeIvBody_tin (s : State) : (s.storeIvBody).tin = s.tin := rfl
@[simp] theorem State.storeIvBody_tout (s : State) : (s.storeIvBody).tout = s.tout := rfl
@[simp] theorem State.storeIvBody_phase (s : State) : (s.storeIvBody).phase = .idle := rfl
@[simp] theorem State.storeIvBody_nleft (s : State) : (s.storeIvBody).nleft = s.nleft := rfl
@[simp] theorem State.storeIvBody_rlen (s : State) : (s.storeIvBody).rlen = s.rlen := rfl
@[simp] theorem State.storeIvBody_mem (s : State) :
    (s.storeIvBody).mem = s.mem.writeBytes s.ivAddr (unpack s.cv 16) := rfl
@[simp] theorem State.storeIvBody_contexts (s : State) : (s.storeIvBody).contexts = s.contexts := rfl
@[simp] theorem State.storeIvBody_fatalIn (s : State) : (s.storeIvBody).fatalIn = s.fatalIn := rfl
@[simp] theorem State.storeIvBody_denied (s : State) : (s.storeIvBody).denied = s.denied := rfl
@[simp] theorem State.storeIvBody_inputs (s : State) : (s.storeIvBody).inputs = s.inputs := rfl
@[simp] theorem State.storeIvBody_rdData (s : State) : (s.storeIvBody).rdData = s.rdData := rfl
@[simp] theorem State.storeIvBody_freeIx (s : State) : (s.storeIvBody).freeIx = s.freeIx := rfl

/-! ### endBlock -/

@[simp] theorem State.endBlock_addrWidth (s : State) :
    (s.endBlock).addrWidth = s.addrWidth := rfl
@[simp] theorem State.endBlock_cmd (s : State) : (s.endBlock).cmd = s.cmd := rfl
@[simp] theorem State.endBlock_done (s : State) : (s.endBlock).done = s.done := rfl
@[simp] theorem State.endBlock_err (s : State) : (s.endBlock).err = s.err := rfl
@[simp] theorem State.endBlock_inAddr (s : State) : (s.endBlock).inAddr = s.inAddr := rfl
@[simp] theorem State.endBlock_outAddr (s : State) : (s.endBlock).outAddr = s.outAddr := rfl
@[simp] theorem State.endBlock_ivAddr (s : State) : (s.endBlock).ivAddr = s.ivAddr := rfl
@[simp] theorem State.endBlock_len (s : State) : (s.endBlock).len = s.len := rfl
@[simp] theorem State.endBlock_ctx (s : State) : (s.endBlock).ctx = s.ctx := rfl
@[simp] theorem State.endBlock_errInfo (s : State) : (s.endBlock).errInfo = s.errInfo := rfl
@[simp] theorem State.endBlock_w (s : State) : (s.endBlock).w = s.w := rfl
@[simp] theorem State.endBlock_cv (s : State) : (s.endBlock).cv = s.cv := rfl
@[simp] theorem State.endBlock_tin (s : State) : (s.endBlock).tin = s.tin := rfl
@[simp] theorem State.endBlock_tout (s : State) : (s.endBlock).tout = s.tout := rfl
@[simp] theorem State.endBlock_phase (s : State) : (s.endBlock).phase = nextPhase (s.nleft - 1) s.rlen := rfl
@[simp] theorem State.endBlock_nleft (s : State) : (s.endBlock).nleft = s.nleft - 1 := rfl
@[simp] theorem State.endBlock_rlen (s : State) : (s.endBlock).rlen = s.rlen := rfl
@[simp] theorem State.endBlock_mem (s : State) : (s.endBlock).mem = s.mem := rfl
@[simp] theorem State.endBlock_contexts (s : State) : (s.endBlock).contexts = s.contexts := rfl
@[simp] theorem State.endBlock_fatalIn (s : State) : (s.endBlock).fatalIn = s.fatalIn := rfl
@[simp] theorem State.endBlock_denied (s : State) : (s.endBlock).denied = s.denied := rfl
@[simp] theorem State.endBlock_inputs (s : State) : (s.endBlock).inputs = s.inputs := rfl
@[simp] theorem State.endBlock_rdData (s : State) : (s.endBlock).rdData = s.rdData := rfl
@[simp] theorem State.endBlock_freeIx (s : State) : (s.endBlock).freeIx = s.freeIx := rfl

/-! ### endPartial -/

@[simp] theorem State.endPartial_addrWidth (s : State) :
    (s.endPartial).addrWidth = s.addrWidth := rfl
@[simp] theorem State.endPartial_cmd (s : State) : (s.endPartial).cmd = s.cmd := rfl
@[simp] theorem State.endPartial_done (s : State) : (s.endPartial).done = s.done := rfl
@[simp] theorem State.endPartial_err (s : State) : (s.endPartial).err = s.err := rfl
@[simp] theorem State.endPartial_inAddr (s : State) : (s.endPartial).inAddr = s.inAddr := rfl
@[simp] theorem State.endPartial_outAddr (s : State) : (s.endPartial).outAddr = s.outAddr := rfl
@[simp] theorem State.endPartial_ivAddr (s : State) : (s.endPartial).ivAddr = s.ivAddr := rfl
@[simp] theorem State.endPartial_len (s : State) : (s.endPartial).len = s.len := rfl
@[simp] theorem State.endPartial_ctx (s : State) : (s.endPartial).ctx = s.ctx := rfl
@[simp] theorem State.endPartial_errInfo (s : State) : (s.endPartial).errInfo = s.errInfo := rfl
@[simp] theorem State.endPartial_w (s : State) : (s.endPartial).w = s.w := rfl
@[simp] theorem State.endPartial_cv (s : State) : (s.endPartial).cv = s.cv := rfl
@[simp] theorem State.endPartial_tin (s : State) : (s.endPartial).tin = s.tin := rfl
@[simp] theorem State.endPartial_tout (s : State) : (s.endPartial).tout = s.tout := rfl
@[simp] theorem State.endPartial_phase (s : State) : (s.endPartial).phase = .storeIv := rfl
@[simp] theorem State.endPartial_nleft (s : State) : (s.endPartial).nleft = s.nleft := rfl
@[simp] theorem State.endPartial_rlen (s : State) : (s.endPartial).rlen = s.rlen := rfl
@[simp] theorem State.endPartial_mem (s : State) : (s.endPartial).mem = s.mem := rfl
@[simp] theorem State.endPartial_contexts (s : State) : (s.endPartial).contexts = s.contexts := rfl
@[simp] theorem State.endPartial_fatalIn (s : State) : (s.endPartial).fatalIn = s.fatalIn := rfl
@[simp] theorem State.endPartial_denied (s : State) : (s.endPartial).denied = s.denied := rfl
@[simp] theorem State.endPartial_inputs (s : State) : (s.endPartial).inputs = s.inputs := rfl
@[simp] theorem State.endPartial_rdData (s : State) : (s.endPartial).rdData = s.rdData := rfl
@[simp] theorem State.endPartial_freeIx (s : State) : (s.endPartial).freeIx = s.freeIx := rfl

/-! ### encPass -/

@[simp] theorem State.encPass_addrWidth (s : State) (n : Nat) :
    (s.encPass n).addrWidth = s.addrWidth := rfl
@[simp] theorem State.encPass_cmd (s : State) (n : Nat) : (s.encPass n).cmd = s.cmd := rfl
@[simp] theorem State.encPass_done (s : State) (n : Nat) : (s.encPass n).done = s.done := rfl
@[simp] theorem State.encPass_err (s : State) (n : Nat) : (s.encPass n).err = s.err := rfl
@[simp] theorem State.encPass_inAddr (s : State) (n : Nat) :
    (s.encPass n).inAddr = advance s.addrWidth s.inAddr n := rfl
@[simp] theorem State.encPass_outAddr (s : State) (n : Nat) :
    (s.encPass n).outAddr = advance s.addrWidth s.outAddr n := rfl
@[simp] theorem State.encPass_ivAddr (s : State) (n : Nat) : (s.encPass n).ivAddr = s.ivAddr := rfl
@[simp] theorem State.encPass_len (s : State) (n : Nat) : (s.encPass n).len = s.len := rfl
@[simp] theorem State.encPass_ctx (s : State) (n : Nat) : (s.encPass n).ctx = s.ctx := rfl
@[simp] theorem State.encPass_errInfo (s : State) (n : Nat) : (s.encPass n).errInfo = s.errInfo := rfl
@[simp] theorem State.encPass_w (s : State) (n : Nat) : (s.encPass n).w = s.w := rfl
@[simp] theorem State.encPass_cv (s : State) (n : Nat) :
    (s.encPass n).cv = (transform s.contexts .enc s.ctx ((pack (s.mem.readBytes s.inAddr n)).xor s.cv)).1 := rfl
@[simp] theorem State.encPass_tin (s : State) (n : Nat) :
    (s.encPass n).tin = pack (s.mem.readBytes s.inAddr n) := rfl
@[simp] theorem State.encPass_tout (s : State) (n : Nat) :
    (s.encPass n).tout = (transform s.contexts .enc s.ctx ((pack (s.mem.readBytes s.inAddr n)).xor s.cv)).1 := rfl
@[simp] theorem State.encPass_phase (s : State) (n : Nat) : (s.encPass n).phase = s.phase := rfl
@[simp] theorem State.encPass_nleft (s : State) (n : Nat) : (s.encPass n).nleft = s.nleft := rfl
@[simp] theorem State.encPass_rlen (s : State) (n : Nat) : (s.encPass n).rlen = s.rlen := rfl
@[simp] theorem State.encPass_mem (s : State) (n : Nat) :
    (s.encPass n).mem =
      s.mem.writeBytes s.outAddr (unpack (transform s.contexts .enc s.ctx ((pack (s.mem.readBytes s.inAddr n)).xor s.cv)).1 n) := rfl
@[simp] theorem State.encPass_contexts (s : State) (n : Nat) :
    (s.encPass n).contexts = (transform s.contexts .enc s.ctx ((pack (s.mem.readBytes s.inAddr n)).xor s.cv)).2 := rfl
@[simp] theorem State.encPass_fatalIn (s : State) (n : Nat) : (s.encPass n).fatalIn = s.fatalIn := rfl
@[simp] theorem State.encPass_denied (s : State) (n : Nat) : (s.encPass n).denied = s.denied := rfl
@[simp] theorem State.encPass_inputs (s : State) (n : Nat) : (s.encPass n).inputs = s.inputs := rfl
@[simp] theorem State.encPass_rdData (s : State) (n : Nat) : (s.encPass n).rdData = s.rdData := rfl
@[simp] theorem State.encPass_freeIx (s : State) (n : Nat) : (s.encPass n).freeIx = s.freeIx := rfl

/-! ### decPass -/

@[simp] theorem State.decPass_addrWidth (s : State) (n : Nat) :
    (s.decPass n).addrWidth = s.addrWidth := rfl
@[simp] theorem State.decPass_cmd (s : State) (n : Nat) : (s.decPass n).cmd = s.cmd := rfl
@[simp] theorem State.decPass_done (s : State) (n : Nat) : (s.decPass n).done = s.done := rfl
@[simp] theorem State.decPass_err (s : State) (n : Nat) : (s.decPass n).err = s.err := rfl
@[simp] theorem State.decPass_inAddr (s : State) (n : Nat) :
    (s.decPass n).inAddr = advance s.addrWidth s.inAddr n := rfl
@[simp] theorem State.decPass_outAddr (s : State) (n : Nat) :
    (s.decPass n).outAddr = advance s.addrWidth s.outAddr n := rfl
@[simp] theorem State.decPass_ivAddr (s : State) (n : Nat) : (s.decPass n).ivAddr = s.ivAddr := rfl
@[simp] theorem State.decPass_len (s : State) (n : Nat) : (s.decPass n).len = s.len := rfl
@[simp] theorem State.decPass_ctx (s : State) (n : Nat) : (s.decPass n).ctx = s.ctx := rfl
@[simp] theorem State.decPass_errInfo (s : State) (n : Nat) : (s.decPass n).errInfo = s.errInfo := rfl
@[simp] theorem State.decPass_w (s : State) (n : Nat) : (s.decPass n).w = s.w := rfl
@[simp] theorem State.decPass_cv (s : State) (n : Nat) :
    (s.decPass n).cv = pack (s.mem.readBytes s.inAddr n) := rfl
@[simp] theorem State.decPass_tin (s : State) (n : Nat) :
    (s.decPass n).tin = pack (s.mem.readBytes s.inAddr n) := rfl
@[simp] theorem State.decPass_tout (s : State) (n : Nat) :
    (s.decPass n).tout = (transform s.contexts .dec s.ctx (pack (s.mem.readBytes s.inAddr n))).1 := rfl
@[simp] theorem State.decPass_phase (s : State) (n : Nat) : (s.decPass n).phase = s.phase := rfl
@[simp] theorem State.decPass_nleft (s : State) (n : Nat) : (s.decPass n).nleft = s.nleft := rfl
@[simp] theorem State.decPass_rlen (s : State) (n : Nat) : (s.decPass n).rlen = s.rlen := rfl
@[simp] theorem State.decPass_mem (s : State) (n : Nat) :
    (s.decPass n).mem =
      s.mem.writeBytes s.outAddr (unpack ((transform s.contexts .dec s.ctx (pack (s.mem.readBytes s.inAddr n))).1.xor s.cv) n) := rfl
@[simp] theorem State.decPass_contexts (s : State) (n : Nat) :
    (s.decPass n).contexts = (transform s.contexts .dec s.ctx (pack (s.mem.readBytes s.inAddr n))).2 := rfl
@[simp] theorem State.decPass_fatalIn (s : State) (n : Nat) : (s.decPass n).fatalIn = s.fatalIn := rfl
@[simp] theorem State.decPass_denied (s : State) (n : Nat) : (s.decPass n).denied = s.denied := rfl
@[simp] theorem State.decPass_inputs (s : State) (n : Nat) : (s.decPass n).inputs = s.inputs := rfl
@[simp] theorem State.decPass_rdData (s : State) (n : Nat) : (s.decPass n).rdData = s.rdData := rfl
@[simp] theorem State.decPass_freeIx (s : State) (n : Nat) : (s.decPass n).freeIx = s.freeIx := rfl

/-! ### resetEvent -/

@[simp] theorem State.resetEvent_addrWidth (s : State) :
    (s.resetEvent).addrWidth = s.addrWidth := rfl
@[simp] theorem State.resetEvent_cmd (s : State) : (s.resetEvent).cmd = 0 := rfl
@[simp] theorem State.resetEvent_done (s : State) : (s.resetEvent).done = false := rfl
@[simp] theorem State.resetEvent_err (s : State) : (s.resetEvent).err = none := rfl
@[simp] theorem State.resetEvent_inAddr (s : State) : (s.resetEvent).inAddr = 0 := rfl
@[simp] theorem State.resetEvent_outAddr (s : State) : (s.resetEvent).outAddr = 0 := rfl
@[simp] theorem State.resetEvent_ivAddr (s : State) : (s.resetEvent).ivAddr = 0 := rfl
@[simp] theorem State.resetEvent_len (s : State) : (s.resetEvent).len = 0 := rfl
@[simp] theorem State.resetEvent_ctx (s : State) : (s.resetEvent).ctx = 0 := rfl
@[simp] theorem State.resetEvent_errInfo (s : State) : (s.resetEvent).errInfo = 0 := rfl
@[simp] theorem State.resetEvent_w (s : State) : (s.resetEvent).w = Quad.zero := rfl
@[simp] theorem State.resetEvent_cv (s : State) : (s.resetEvent).cv = Config.freeQuad s.freeIx := rfl
@[simp] theorem State.resetEvent_tin (s : State) : (s.resetEvent).tin = Config.freeQuad (s.freeIx + 1) := rfl
@[simp] theorem State.resetEvent_tout (s : State) : (s.resetEvent).tout = Config.freeQuad (s.freeIx + 2) := rfl
@[simp] theorem State.resetEvent_phase (s : State) : (s.resetEvent).phase = .idle := rfl
@[simp] theorem State.resetEvent_nleft (s : State) :
    (s.resetEvent).nleft = fit (s.addrWidth - 4) (Config.freeNleft s.freeIx) := rfl
@[simp] theorem State.resetEvent_rlen (s : State) : (s.resetEvent).rlen = Config.freeRlen s.freeIx := rfl
@[simp] theorem State.resetEvent_mem (s : State) : (s.resetEvent).mem = s.mem := rfl
@[simp] theorem State.resetEvent_contexts (s : State) : (s.resetEvent).contexts = s.contexts := rfl
@[simp] theorem State.resetEvent_fatalIn (s : State) : (s.resetEvent).fatalIn = s.fatalIn := rfl
@[simp] theorem State.resetEvent_denied (s : State) : (s.resetEvent).denied = s.denied := rfl
@[simp] theorem State.resetEvent_inputs (s : State) : (s.resetEvent).inputs = s.inputs := rfl
@[simp] theorem State.resetEvent_rdData (s : State) : (s.resetEvent).rdData = s.rdData := rfl
@[simp] theorem State.resetEvent_freeIx (s : State) : (s.resetEvent).freeIx = s.freeIx + 3 := rfl

/-! ### writeStatus -/

@[simp] theorem State.writeStatus_addrWidth (s : State) (v : Word) :
    (s.writeStatus v).addrWidth = s.addrWidth := rfl
@[simp] theorem State.writeStatus_cmd (s : State) (v : Word) : (s.writeStatus v).cmd = s.cmd := rfl
@[simp] theorem State.writeStatus_done (s : State) (v : Word) :
    (s.writeStatus v).done = (s.done && !v.getLsbD 1) := rfl
@[simp] theorem State.writeStatus_err (s : State) (v : Word) :
    (s.writeStatus v).err = (if v.getLsbD 2 then none else s.err) := rfl
@[simp] theorem State.writeStatus_inAddr (s : State) (v : Word) : (s.writeStatus v).inAddr = s.inAddr := rfl
@[simp] theorem State.writeStatus_outAddr (s : State) (v : Word) : (s.writeStatus v).outAddr = s.outAddr := rfl
@[simp] theorem State.writeStatus_ivAddr (s : State) (v : Word) : (s.writeStatus v).ivAddr = s.ivAddr := rfl
@[simp] theorem State.writeStatus_len (s : State) (v : Word) : (s.writeStatus v).len = s.len := rfl
@[simp] theorem State.writeStatus_ctx (s : State) (v : Word) : (s.writeStatus v).ctx = s.ctx := rfl
@[simp] theorem State.writeStatus_errInfo (s : State) (v : Word) : (s.writeStatus v).errInfo = s.errInfo := rfl
@[simp] theorem State.writeStatus_w (s : State) (v : Word) : (s.writeStatus v).w = s.w := rfl
@[simp] theorem State.writeStatus_cv (s : State) (v : Word) : (s.writeStatus v).cv = s.cv := rfl
@[simp] theorem State.writeStatus_tin (s : State) (v : Word) : (s.writeStatus v).tin = s.tin := rfl
@[simp] theorem State.writeStatus_tout (s : State) (v : Word) : (s.writeStatus v).tout = s.tout := rfl
@[simp] theorem State.writeStatus_phase (s : State) (v : Word) : (s.writeStatus v).phase = s.phase := rfl
@[simp] theorem State.writeStatus_nleft (s : State) (v : Word) : (s.writeStatus v).nleft = s.nleft := rfl
@[simp] theorem State.writeStatus_rlen (s : State) (v : Word) : (s.writeStatus v).rlen = s.rlen := rfl
@[simp] theorem State.writeStatus_mem (s : State) (v : Word) : (s.writeStatus v).mem = s.mem := rfl
@[simp] theorem State.writeStatus_contexts (s : State) (v : Word) : (s.writeStatus v).contexts = s.contexts := rfl
@[simp] theorem State.writeStatus_fatalIn (s : State) (v : Word) : (s.writeStatus v).fatalIn = s.fatalIn := rfl
@[simp] theorem State.writeStatus_denied (s : State) (v : Word) : (s.writeStatus v).denied = s.denied := rfl
@[simp] theorem State.writeStatus_inputs (s : State) (v : Word) : (s.writeStatus v).inputs = s.inputs := rfl
@[simp] theorem State.writeStatus_rdData (s : State) (v : Word) : (s.writeStatus v).rdData = s.rdData := rfl
@[simp] theorem State.writeStatus_freeIx (s : State) (v : Word) : (s.writeStatus v).freeIx = s.freeIx := rfl

/-! ### hostRead -/

@[simp] theorem hostRead_addrWidth (n : Nat) (s : State) :
    (hostRead n s).addrWidth = s.addrWidth := rfl
@[simp] theorem hostRead_cmd (n : Nat) (s : State) : (hostRead n s).cmd = s.cmd := rfl
@[simp] theorem hostRead_done (n : Nat) (s : State) : (hostRead n s).done = s.done := rfl
@[simp] theorem hostRead_err (n : Nat) (s : State) : (hostRead n s).err = s.err := rfl
@[simp] theorem hostRead_inAddr (n : Nat) (s : State) : (hostRead n s).inAddr = s.inAddr := rfl
@[simp] theorem hostRead_outAddr (n : Nat) (s : State) : (hostRead n s).outAddr = s.outAddr := rfl
@[simp] theorem hostRead_ivAddr (n : Nat) (s : State) : (hostRead n s).ivAddr = s.ivAddr := rfl
@[simp] theorem hostRead_len (n : Nat) (s : State) : (hostRead n s).len = s.len := rfl
@[simp] theorem hostRead_ctx (n : Nat) (s : State) : (hostRead n s).ctx = s.ctx := rfl
@[simp] theorem hostRead_errInfo (n : Nat) (s : State) : (hostRead n s).errInfo = s.errInfo := rfl
@[simp] theorem hostRead_w (n : Nat) (s : State) : (hostRead n s).w = s.w := rfl
@[simp] theorem hostRead_cv (n : Nat) (s : State) : (hostRead n s).cv = s.cv := rfl
@[simp] theorem hostRead_tin (n : Nat) (s : State) : (hostRead n s).tin = s.tin := rfl
@[simp] theorem hostRead_tout (n : Nat) (s : State) : (hostRead n s).tout = s.tout := rfl
@[simp] theorem hostRead_phase (n : Nat) (s : State) : (hostRead n s).phase = s.phase := rfl
@[simp] theorem hostRead_nleft (n : Nat) (s : State) : (hostRead n s).nleft = s.nleft := rfl
@[simp] theorem hostRead_rlen (n : Nat) (s : State) : (hostRead n s).rlen = s.rlen := rfl
@[simp] theorem hostRead_mem (n : Nat) (s : State) : (hostRead n s).mem = s.mem := rfl
@[simp] theorem hostRead_contexts (n : Nat) (s : State) : (hostRead n s).contexts = s.contexts := rfl
@[simp] theorem hostRead_fatalIn (n : Nat) (s : State) : (hostRead n s).fatalIn = s.fatalIn := rfl
@[simp] theorem hostRead_denied (n : Nat) (s : State) : (hostRead n s).denied = s.denied := rfl
@[simp] theorem hostRead_inputs (n : Nat) (s : State) : (hostRead n s).inputs = s.inputs := rfl
@[simp] theorem hostRead_rdData (n : Nat) (s : State) : (hostRead n s).rdData = s.readOffset n := rfl
@[simp] theorem hostRead_freeIx (n : Nat) (s : State) : (hostRead n s).freeIx = s.freeIx := rfl

/-! ### withCommandWrite -/

@[simp] theorem State.withCommandWrite_addrWidth (s : State) (x : Word) :
    (s.withCommandWrite x).addrWidth = s.addrWidth := rfl
@[simp] theorem State.withCommandWrite_cmd (s : State) (x : Word) : (s.withCommandWrite x).cmd = s.cmd := rfl
@[simp] theorem State.withCommandWrite_done (s : State) (x : Word) : (s.withCommandWrite x).done = s.done := rfl
@[simp] theorem State.withCommandWrite_err (s : State) (x : Word) : (s.withCommandWrite x).err = s.err := rfl
@[simp] theorem State.withCommandWrite_inAddr (s : State) (x : Word) :
    (s.withCommandWrite x).inAddr = s.inAddr := rfl
@[simp] theorem State.withCommandWrite_outAddr (s : State) (x : Word) :
    (s.withCommandWrite x).outAddr = s.outAddr := rfl
@[simp] theorem State.withCommandWrite_ivAddr (s : State) (x : Word) :
    (s.withCommandWrite x).ivAddr = s.ivAddr := rfl
@[simp] theorem State.withCommandWrite_len (s : State) (x : Word) : (s.withCommandWrite x).len = s.len := rfl
@[simp] theorem State.withCommandWrite_ctx (s : State) (x : Word) : (s.withCommandWrite x).ctx = s.ctx := rfl
@[simp] theorem State.withCommandWrite_errInfo (s : State) (x : Word) :
    (s.withCommandWrite x).errInfo = s.errInfo := rfl
@[simp] theorem State.withCommandWrite_w (s : State) (x : Word) : (s.withCommandWrite x).w = s.w := rfl
@[simp] theorem State.withCommandWrite_cv (s : State) (x : Word) : (s.withCommandWrite x).cv = s.cv := rfl
@[simp] theorem State.withCommandWrite_tin (s : State) (x : Word) : (s.withCommandWrite x).tin = s.tin := rfl
@[simp] theorem State.withCommandWrite_tout (s : State) (x : Word) : (s.withCommandWrite x).tout = s.tout := rfl
@[simp] theorem State.withCommandWrite_phase (s : State) (x : Word) : (s.withCommandWrite x).phase = .idle := rfl
@[simp] theorem State.withCommandWrite_nleft (s : State) (x : Word) : (s.withCommandWrite x).nleft = s.nleft := rfl
@[simp] theorem State.withCommandWrite_rlen (s : State) (x : Word) : (s.withCommandWrite x).rlen = s.rlen := rfl
@[simp] theorem State.withCommandWrite_mem (s : State) (x : Word) : (s.withCommandWrite x).mem = s.mem := rfl
@[simp] theorem State.withCommandWrite_contexts (s : State) (x : Word) :
    (s.withCommandWrite x).contexts = s.contexts := rfl
@[simp] theorem State.withCommandWrite_fatalIn (s : State) (x : Word) :
    (s.withCommandWrite x).fatalIn = false := rfl
@[simp] theorem State.withCommandWrite_denied (s : State) (x : Word) :
    (s.withCommandWrite x).denied = s.denied := rfl
@[simp] theorem State.withCommandWrite_inputs (s : State) (x : Word) :
    (s.withCommandWrite x).inputs = .hostWrite (regOffset .cmd) x.toNat :: s.inputs := rfl
@[simp] theorem State.withCommandWrite_rdData (s : State) (x : Word) :
    (s.withCommandWrite x).rdData = s.rdData := rfl
@[simp] theorem State.withCommandWrite_freeIx (s : State) (x : Word) :
    (s.withCommandWrite x).freeIx = s.freeIx := rfl

/-! ### storeByte -/

@[simp] theorem State.storeByte_addrWidth (s : State) (a : Nat) (b : Byte) :
    (s.storeByte a b).addrWidth = s.addrWidth := rfl
@[simp] theorem State.storeByte_cmd (s : State) (a : Nat) (b : Byte) : (s.storeByte a b).cmd = s.cmd := rfl
@[simp] theorem State.storeByte_done (s : State) (a : Nat) (b : Byte) : (s.storeByte a b).done = s.done := rfl
@[simp] theorem State.storeByte_err (s : State) (a : Nat) (b : Byte) : (s.storeByte a b).err = s.err := rfl
@[simp] theorem State.storeByte_inAddr (s : State) (a : Nat) (b : Byte) :
    (s.storeByte a b).inAddr = s.inAddr := rfl
@[simp] theorem State.storeByte_outAddr (s : State) (a : Nat) (b : Byte) :
    (s.storeByte a b).outAddr = s.outAddr := rfl
@[simp] theorem State.storeByte_ivAddr (s : State) (a : Nat) (b : Byte) :
    (s.storeByte a b).ivAddr = s.ivAddr := rfl
@[simp] theorem State.storeByte_len (s : State) (a : Nat) (b : Byte) : (s.storeByte a b).len = s.len := rfl
@[simp] theorem State.storeByte_ctx (s : State) (a : Nat) (b : Byte) : (s.storeByte a b).ctx = s.ctx := rfl
@[simp] theorem State.storeByte_errInfo (s : State) (a : Nat) (b : Byte) :
    (s.storeByte a b).errInfo = s.errInfo := rfl
@[simp] theorem State.storeByte_w (s : State) (a : Nat) (b : Byte) : (s.storeByte a b).w = s.w := rfl
@[simp] theorem State.storeByte_cv (s : State) (a : Nat) (b : Byte) : (s.storeByte a b).cv = s.cv := rfl
@[simp] theorem State.storeByte_tin (s : State) (a : Nat) (b : Byte) : (s.storeByte a b).tin = s.tin := rfl
@[simp] theorem State.storeByte_tout (s : State) (a : Nat) (b : Byte) : (s.storeByte a b).tout = s.tout := rfl
@[simp] theorem State.storeByte_phase (s : State) (a : Nat) (b : Byte) : (s.storeByte a b).phase = s.phase := rfl
@[simp] theorem State.storeByte_nleft (s : State) (a : Nat) (b : Byte) : (s.storeByte a b).nleft = s.nleft := rfl
@[simp] theorem State.storeByte_rlen (s : State) (a : Nat) (b : Byte) : (s.storeByte a b).rlen = s.rlen := rfl
@[simp] theorem State.storeByte_mem (s : State) (a : Nat) (b : Byte) :
    (s.storeByte a b).mem = s.mem.write (fit s.addrWidth a) b := rfl
@[simp] theorem State.storeByte_contexts (s : State) (a : Nat) (b : Byte) :
    (s.storeByte a b).contexts = s.contexts := rfl
@[simp] theorem State.storeByte_fatalIn (s : State) (a : Nat) (b : Byte) :
    (s.storeByte a b).fatalIn = s.fatalIn := rfl
@[simp] theorem State.storeByte_denied (s : State) (a : Nat) (b : Byte) :
    (s.storeByte a b).denied = s.denied := rfl
@[simp] theorem State.storeByte_inputs (s : State) (a : Nat) (b : Byte) :
    (s.storeByte a b).inputs = s.inputs := rfl
@[simp] theorem State.storeByte_rdData (s : State) (a : Nat) (b : Byte) :
    (s.storeByte a b).rdData = s.rdData := rfl
@[simp] theorem State.storeByte_freeIx (s : State) (a : Nat) (b : Byte) :
    (s.storeByte a b).freeIx = s.freeIx := rfl

end Sys2Proof.Machine
end

