-- ==== Sys2Proof/Laws/Exec.lean ====
section
/-! SUPPORT. What a command can do, said once: every next state of `exec` is one of the effects of `ExecEffect`, and
every next state of the machine's turn one of the effects of `TurnEffect`. -/

namespace Sys2Proof.Machine

/-- All that a step over two ranges can do (20_memory.md R62, R63, R66). -/
theorem sequencerStep_next {s after t : State} {rd wr : Nat × Nat} (h : s.sequencerStep rd wr after = .next t) :
    inRange s.addrWidth rd.1 rd.2 = true ∧ inRange s.addrWidth wr.1 wr.2 = true ∧
      (t = after ∧ s.admitsAll .read rd.1 rd.2 = true ∧ s.admitsAll .write wr.1 wr.2 = true ∨ t = s) := by
  unfold State.sequencerStep at h
  split_ifs at h with hr ha
  · simp_all
  · simp_all

/-- A step whose ranges lie in the address space and whose accesses are admitted happens. -/
theorem sequencerStep_happens {s : State} (after : State) {rd wr : Nat × Nat}
    (hr : inRange s.addrWidth rd.1 rd.2 = true) (hw : inRange s.addrWidth wr.1 wr.2 = true)
    (har : s.admitsAll .read rd.1 rd.2 = true) (haw : s.admitsAll .write wr.1 wr.2 = true) :
    s.sequencerStep rd wr after = .next after := by
  simp [State.sequencerStep, hr, hw, har, haw]

theorem sequencerStep_ne_refused {s after : State} {rd wr : Nat × Nat} {r : Refusal} :
    s.sequencerStep rd wr after ≠ .refused r := by
  unfold State.sequencerStep
  split_ifs <;> exact nofun

/-- Where everything is admitted every range is. -/
theorem admitsAll_of_everything {s : State} (h : s.admitsEverything) (acc : Access) (a : Nat) (n : Nat) :
    s.admitsAll acc a n = true := by
  simp [State.admitsAll, State.admits, show s.denied = [] from h]

/-- An engine's pass, by direction. -/
def State.cbcPass (s : State) (d : Dir) (c : Nat) : State :=
  match d with
  | .enc => s.encPass c
  | .dec => s.decPass c

/-- The bytes a marshaller command reads into `W`, if it is a packing one. -/
def packs : Instr → Option Nat
  | .packB => some 16
  | .packP cnt => some (effectiveCount cnt)
  | _ => none

/-- The bytes of `W` a marshaller command writes, if it is an unpacking one. -/
def unpacks : Instr → Option Nat
  | .unpackB => some 16
  | .unpackP cnt => some (effectiveCount cnt)
  | _ => none

/-- The effects of `exec i` in a state `s`: the acceptance or rejection of a considered write, a step of the accepted
command, or nothing (stuck, or HALT). -/
inductive ExecEffect (i : Instr) (s : State) : State → Prop where
  | nothing (h : s.phase ≠ .idle) : ExecEffect i s s
  | rejected (h : s.phase = .idle) (code : ErrCode) : ExecEffect i s (s.reject code (encode i))
  | acceptedCbc (h : s.phase = .idle) (d : Dir) (hi : i = cbcCommand d) (hc : s.cbcChecksPass d) :
      ExecEffect i s
        { s.accept (encode i) .loadIv with nleft := blockCount s.len, rlen := remainder s.len }
  | acceptedMarshal (h : s.phase = .idle) (hr : s.marshalReady i) : ExecEffect i s (s.accept (encode i) .marshal)
  | loadedIv (h : s.phase = .loadIv) (d : Dir) (hi : i = cbcCommand d) : ExecEffect i s s.loadIvBody
  | block (h : s.phase = .block) (d : Dir) (hi : i = cbcCommand d) (hn : s.nleft ≠ 0)
      (hr : inRange s.addrWidth s.inAddr 16 = true) (hw : inRange s.addrWidth s.outAddr 16 = true) :
      ExecEffect i s (s.cbcPass d 16).endBlock
  | partialBlock (h : s.phase = .partialBlock) (d : Dir) (hi : i = cbcCommand d) (hn : s.rlen ≠ 0)
      (hr : inRange s.addrWidth s.inAddr s.rlen.toNat = true) (hw : inRange s.addrWidth s.outAddr s.rlen.toNat = true) :
      ExecEffect i s (s.cbcPass d s.rlen.toNat).endPartial
  | storedIv (h : s.phase = .storeIv) (d : Dir) (hi : i = cbcCommand d) (hw : inRange s.addrWidth s.ivAddr 16 = true) :
      ExecEffect i s s.storeIvBody
  | packed (h : s.phase = .marshal) (c : Nat) (hi : packs i = some c) (hr : inRange s.addrWidth s.inAddr c = true) :
      ExecEffect i s (s.packBody c)
  | unpacked (h : s.phase = .marshal) (c : Nat) (hi : unpacks i = some c)
      (hw : inRange s.addrWidth s.outAddr c = true) : ExecEffect i s (s.unpackBody c)

theorem commandCbc_effect (s : State) (d : Dir) (h : s.phase = .idle) :
    ExecEffect (cbcCommand d) s (s.commandCbc d (encode (cbcCommand d))) := by
  unfold State.commandCbc
  split_ifs with h1 h2
  · exact .rejected h _
  · exact .rejected h _
  · simp only [Bool.not_eq_true', Bool.not_eq_false, Bool.and_eq_true] at h1 h2
    exact .acceptedCbc h d rfl ⟨h1.1.1, h1.1.2, h1.2, h2⟩

theorem commandMarshal_cases (s : State) (legal : Bool) (a : Nat) (c : Nat) (w : Word) :
    (∃ code, s.commandMarshal legal a c w = s.reject code w) ∨
      (legal = true ∧ inRange s.addrWidth a c = true ∧ s.commandMarshal legal a c w = s.accept w .marshal) := by
  unfold State.commandMarshal
  split_ifs with h1 h2
  · exact .inl ⟨_, rfl⟩
  · exact .inl ⟨_, rfl⟩
  · exact .inr (by simp_all)

/-- The step of a command over two ranges, where the step is one of the effects. -/
theorem effect_of_step {i : Instr} {s after t : State} {rd wr : Nat × Nat} (hp : s.phase ≠ .idle)
    (h : s.sequencerStep rd wr after = .next t)
    (he : inRange s.addrWidth rd.1 rd.2 = true → inRange s.addrWidth wr.1 wr.2 = true → ExecEffect i s after) :
    ExecEffect i s t := by
  obtain ⟨hr, hw, ⟨rfl, -⟩ | rfl⟩ := sequencerStep_next h
  · exact he hr hw
  · exact .nothing hp

theorem effect_of_cbc {d : Dir} {s t : State}
    (h : (match s.phase with
      | .idle => .next (s.commandCbc d (encode (cbcCommand d)))
      | .loadIv => s.loadIvStep
      | .block => s.blockStep (s.cbcPass d 16)
      | .partialBlock => s.partialStep (s.cbcPass d s.rlen.toNat)
      | .storeIv => s.storeIvStep
      | .halt => .next s
      | .marshal => .fault .noEnabledStep : Host.Outcome State Fault Refusal) = .next t) :
    ExecEffect (cbcCommand d) s t := by
  split at h <;> rename_i hp
  · cases h; exact commandCbc_effect s d hp
  · exact effect_of_step (by simp [hp]) h fun _ _ => .loadedIv hp d rfl
  · unfold State.blockStep at h
    split_ifs at h with hn
    exact effect_of_step (by simp [hp]) h fun hr hw => .block hp d rfl hn hr hw
  · unfold State.partialStep at h
    split_ifs at h with hn
    exact effect_of_step (by simp [hp]) h fun hr hw => .partialBlock hp d rfl hn hr hw
  · exact effect_of_step (by simp [hp]) h fun _ hw => .storedIv hp d rfl hw
  · cases h; exact .nothing (by simp [hp])
  · cases h

theorem effect_of_pack {i : Instr} {s t : State} {legal : Bool} {c : Nat} (hi : packs i = some c)
    (hr : legal = true → inRange s.addrWidth s.inAddr c = true → s.marshalReady i)
    (h : (match s.phase with
      | .idle => .next (s.commandMarshal legal s.inAddr c (encode i))
      | .marshal => s.sequencerStep (s.inAddr, c) (s.inAddr, 0) (s.packBody c)
      | .halt => .next s
      | .loadIv => .fault .noEnabledStep
      | .block => .fault .noEnabledStep
      | .partialBlock => .fault .noEnabledStep
      | .storeIv => .fault .noEnabledStep : Host.Outcome State Fault Refusal) = .next t) :
    ExecEffect i s t := by
  split at h <;> rename_i hp
  · cases h
    rcases commandMarshal_cases s legal s.inAddr c (encode i) with ⟨code, he⟩ | ⟨hl, ha, he⟩ <;> rw [he]
    · exact .rejected hp code
    · exact .acceptedMarshal hp (hr hl ha)
  · exact effect_of_step (by simp [hp]) h fun hr _ => .packed hp c hi hr
  · cases h; exact .nothing (by simp [hp])
  all_goals cases h

theorem effect_of_unpack {i : Instr} {s t : State} {legal : Bool} {c : Nat} (hi : unpacks i = some c)
    (hr : legal = true → inRange s.addrWidth s.outAddr c = true → s.marshalReady i)
    (h : (match s.phase with
      | .idle => .next (s.commandMarshal legal s.outAddr c (encode i))
      | .marshal => s.sequencerStep (s.outAddr, 0) (s.outAddr, c) (s.unpackBody c)
      | .halt => .next s
      | .loadIv => .fault .noEnabledStep
      | .block => .fault .noEnabledStep
      | .partialBlock => .fault .noEnabledStep
      | .storeIv => .fault .noEnabledStep : Host.Outcome State Fault Refusal) = .next t) :
    ExecEffect i s t := by
  split at h <;> rename_i hp
  · cases h
    rcases commandMarshal_cases s legal s.outAddr c (encode i) with ⟨code, he⟩ | ⟨hl, ha, he⟩ <;> rw [he]
    · exact .rejected hp code
    · exact .acceptedMarshal hp (hr hl ha)
  · exact effect_of_step (by simp [hp]) h fun _ hw => .unpacked hp c hi hw
  · cases h; exact .nothing (by simp [hp])
  all_goals cases h

/-- Every next state of a command is one of its effects. -/
theorem exec_effect {i : Instr} {s t : State} (h : exec i s = .next t) : ExecEffect i s t := by
  cases i with
  | cbcEnc => exact effect_of_cbc (d := .enc) h
  | cbcDec => exact effect_of_cbc (d := .dec) h
  | packB => exact effect_of_pack rfl (fun _ ha => ha) h
  | packP cnt => exact effect_of_pack rfl (fun hl ha => ⟨hl, ha⟩) h
  | unpackB => exact effect_of_unpack rfl (fun _ ha => ha) h
  | unpackP cnt => exact effect_of_unpack rfl (fun hl ha => ⟨hl, ha⟩) h

/-- The effects of the machine's turn, with what is left of the list of events. -/
inductive TurnEffect (s : State) : State → Prop where
  /-- nothing but the list of events and the host's read port changes -/
  | silent (rest : List Input) (v : Nat) : TurnEffect s { s with inputs := rest, rdData := v }
  | haltedStep (rest : List Input) (v : Nat) (h : s.busy = true) (hf : s.fatalIn = true) (hi : s.sequencerMoves) :
      TurnEffect s { s.enterHalt with inputs := rest, rdData := v }
  | haltedWrite (rest : List Input) (v : Nat) (h : s.phase = .idle) (hf : s.fatalIn = true)
      (hi : s.inputs = wr .cmd v :: rest) : TurnEffect s { s.enterHalt with inputs := rest }
  | badWord (rest : List Input) (v : Nat) (code : ErrCode) (h : s.phase = .idle)
      (hi : s.inputs = wr .cmd v :: rest) (hd : decode (BitVec.ofNat 32 v) = .reject code) :
      TurnEffect s ({ s with inputs := rest }.reject code (BitVec.ofNat 32 v))
  | wrote (rest : List Input) (v : Nat) (i : Instr) (t : State) (h : s.phase = .idle) (hf : s.fatalIn = false)
      (hi : s.inputs = wr .cmd v :: rest) (hd : decode (BitVec.ofNat 32 v) = .command i)
      (ht : ExecEffect i { s with inputs := rest } t) : TurnEffect s t
  | stepped (rest : List Input) (v : Nat) (i : Instr) (t : State) (h : s.busy = true) (hf : s.fatalIn = false)
      (hi : s.sequencerMoves) (hd : decode s.cmd = .command i)
      (ht : ExecEffect i { s with inputs := rest, rdData := v } t) : TurnEffect s t
  | register (rest : List Input) (r : Reg) (v : Nat) (h : s.phase = .idle) :
      TurnEffect s ({ s with inputs := rest }.writeReg r v)
  | reset (rest : List Input) (hi : s.inputs = .reset :: rest) : TurnEffect s { s with inputs := rest }.resetEvent
  | fatal (rest : List Input) (b : Bool) : TurnEffect s { s with inputs := rest, fatalIn := b }
  | provider (rest : List Input) (P : List Context) (hP : ∀ c ∈ P, c ∈ s.contexts ∨ c.handle < 2 ^ s.addrWidth) :
      TurnEffect s { s with inputs := rest, contexts := P }
  | stored (rest : List Input) (a : Nat) (b : Byte) :
      TurnEffect s { s with inputs := rest, mem := s.mem.write (fit s.addrWidth a) b }

/-- A value of `aw` bits is below `2^aw`. -/
theorem fit_lt (aw n : Nat) : fit aw n < 2 ^ aw := Nat.mod_lt _ (Nat.two_pow_pos aw)

/-- A value of `aw` bits is unchanged by reduction to `aw` bits. -/
theorem fit_of_lt {aw n : Nat} (h : n < 2 ^ aw) : fit aw n = n := Nat.mod_eq_of_lt h

theorem sequencerTurn_effect {s t : State} {rest : List Input} {v : Nat} (hi : s.sequencerMoves)
    (h : sequencerTurn { s with inputs := rest, rdData := v } = .next t) : TurnEffect s t := by
  unfold sequencerTurn at h
  split_ifs at h with hb hf
  · cases h; exact .silent rest v
  · cases h; exact .haltedStep rest v (by simpa [State.busy] using hb) hf hi
  · split at h
    · next i hd => exact .stepped rest v i t (by simpa [State.busy] using hb) (by simpa using hf) hi hd (exec_effect h)
    · cases h

theorem considerWrite_effect {s t : State} {rest : List Input} {v : Nat} (hi : s.inputs = wr .cmd v :: rest)
    (h : considerWrite (BitVec.ofNat 32 v) { s with inputs := rest } = .next t) : TurnEffect s t := by
  unfold considerWrite at h
  split_ifs at h with hp hf
  · cases h; exact .silent rest s.rdData
  · cases h; exact .haltedWrite rest v (by simpa using hp) hf hi
  · have hp' : s.phase = .idle := by simpa using hp
    split at h
    · next i hd => exact .wrote rest v i t hp' (by simpa using hf) hi hd (exec_effect h)
    · next code hd => cases h; exact .badWord rest v code hp' hi hd

/-- The offset of the register an access reaches (10_state.md R21). -/
theorem offset_of_regAt {offset : Nat} {r : Reg} (h : regAt offset = some r) : offset = regOffset r :=
  (beq_iff_eq.1 (List.find?_some (p := fun r => regOffset r == offset) h)).symm

theorem hostWrite_effect {s t : State} {rest : List Input} {offset v : Nat}
    (hi : s.inputs = .hostWrite offset v :: rest)
    (h : hostWrite offset v { s with inputs := rest } = .next t) : TurnEffect s t := by
  unfold hostWrite at h
  split at h
  · next hr => exact considerWrite_effect (by rw [hi, offset_of_regAt hr]; rfl) h
  · next r _ _ =>
    split_ifs at h with hp <;> cases h
    · exact .register rest r v hp
    · exact .silent rest s.rdData
  · cases h; exact .silent rest s.rdData

/-- Every next state of the machine's turn is one of its effects. -/
theorem turn_effect {s t : State} (h : turn s = .next t) : TurnEffect s t := by
  unfold turn at h
  split at h
  · next hi => exact sequencerTurn_effect (rest := s.inputs) (v := s.rdData) (.inl hi) h
  · next e rest hi =>
    cases e with
    | hostWrite offset v => exact hostWrite_effect hi h
    | hostRead offset => cases h; exact .silent rest _
    | wait =>
      simp only [takeInput, waitRound] at h
      split_ifs at h
      · exact sequencerTurn_effect (s := s) (rest := .wait :: rest) (.inr ⟨rest, .inr hi⟩) h
      · cases h; exact .silent rest _
    | sequencer => exact sequencerTurn_effect (rest := rest) (v := s.rdData) (.inr ⟨rest, .inl hi⟩) h
    | reset => cases h; exact .reset rest hi
    | fatalRise => cases h; exact .fatal rest true
    | adapterReset => cases h; exact .fatal rest false
    | initContext d hd bytes =>
      cases h
      unfold State.initContext
      split_ifs
      · refine .provider rest _ fun c hc => ?_
        rcases List.mem_cons.1 hc with rfl | hc
        · exact .inr (fit_lt _ _)
        · exact .inl (List.mem_filter.1 hc).1
      · exact .fatal rest true
    | discardContext d hd => cases h; exact .provider rest _ fun c hc => .inl (List.mem_filter.1 hc).1
    | memWrite a b => cases h; exact .stored rest a b
    | agentWrite a b => cases h; exact .stored rest a b

end Sys2Proof.Machine
end

