-- ==== Sys2Proof/Laws/Marshaller.lean ====
section
/-! SUPPORT. The marshaller's functions byte by byte: which byte of a quad a packed byte is, and that a quad is its
sixteen bytes. -/

namespace Sys2Proof.Machine

/-- Byte `k` of a quad, in the lane of 41_marshaller.md R140. -/
def quadByte (q : Quad) (k : Nat) : Byte := unpackByte .msb q 16 k

theorem unpackByte_eq_quadByte (q : Quad) (c k : Nat) : unpackByte Config.partialJustify q c k = quadByte q k := rfl

theorem unpack_eq_map (q : Quad) (c : Nat) : unpack q c = (List.range c).map (quadByte q) := rfl

theorem getElem_unpack (q : Quad) {c k : Nat} (hk : k < (unpack q c).length) : (unpack q c)[k] = quadByte q k := by
  simp [unpack_eq_map]

/-- Lanes beyond the bytes hold zero (41_marshaller.md R141). -/
theorem lane_msb (s : List Byte) (k : Nat) : lane .msb s k = (s.getD k 0).setWidth 32 <<< (24 - 8 * (k % 4)) := by
  unfold lane
  split
  · rfl
  · next h => simp [List.getD_eq_getElem?_getD, List.getElem?_eq_none (Nat.le_of_not_lt h)]

/-- The byte of lane `l` of a word put together from four bytes. -/
theorem byte_of_lanes (b : Nat → Byte) {l : Nat} (hl : l < 4) :
    (((b 0).setWidth 32 <<< 24 ||| (b 1).setWidth 32 <<< 16 ||| (b 2).setWidth 32 <<< 8 ||| (b 3).setWidth 32 <<< 0)
      >>> (24 - 8 * l)).setWidth 8 = b l := by
  refine BitVec.eq_of_getLsbD_eq fun i hi => ?_
  interval_cases l <;> interval_cases i <;> simp

theorem packWord_msb (s : List Byte) (i : Nat) :
    packWord .msb s i = (s.getD (4 * i) 0).setWidth 32 <<< 24 ||| (s.getD (4 * i + 1) 0).setWidth 32 <<< 16 |||
      (s.getD (4 * i + 2) 0).setWidth 32 <<< 8 ||| (s.getD (4 * i + 3) 0).setWidth 32 <<< 0 := by
  have h0 : 4 * i % 4 = 0 := by omega
  have h1 : (4 * i + 1) % 4 = 1 := by omega
  have h2 : (4 * i + 2) % 4 = 2 := by omega
  have h3 : (4 * i + 3) % 4 = 3 := by omega
  simp only [packWord, lane_msb, h0, h1, h2, h3]

theorem get_pack (s : List Byte) {i : Nat} (hi : i < 4) : (pack s).get i = packWord .msb s i := by
  interval_cases i <;> rfl

/-- Byte `k` of a packed sequence is its byte `k`, or zero beyond its bytes (41_marshaller.md R140, R141). -/
theorem quadByte_pack (s : List Byte) {k : Nat} (hk : k < 16) : quadByte (pack s) k = s.getD k 0 := by
  have hb := byte_of_lanes (fun l => s.getD (4 * (k / 4) + l) 0) (l := k % 4) (by omega)
  rw [show 4 * (k / 4) + k % 4 = k by omega] at hb
  rw [quadByte, unpackByte, get_pack s (by omega), packWord_msb]
  exact hb

/-- A word is its four bytes. -/
theorem word_ext {v w : Word} (h : ∀ l < 4, (v >>> (24 - 8 * l)).setWidth 8 = (w >>> (24 - 8 * l)).setWidth 8) :
    v = w := by
  refine BitVec.eq_of_getLsbD_eq fun i hi => ?_
  have hl := congrArg (fun b : BitVec 8 => b.getLsbD (i % 8)) (h (3 - i / 8) (by omega))
  have hi8 : i % 8 < 8 := by omega
  have hs : 24 - 8 * (3 - i / 8) + i % 8 = i := by omega
  simpa [BitVec.getLsbD_setWidth, BitVec.getLsbD_ushiftRight, hi8, hs] using hl

/-- A quad is its sixteen bytes. -/
theorem quad_ext {p q : Quad} (h : ∀ k < 16, quadByte p k = quadByte q k) : p = q := by
  have hw : ∀ i < 4, p.get i = q.get i := fun i hi => word_ext fun l hl => by
    have := h (4 * i + l) (by omega)
    simpa [quadByte, unpackByte, laneShift, show (4 * i + l) / 4 = i by omega, show (4 * i + l) % 4 = l by omega]
      using this
  cases p
  cases q
  congr
  exacts [hw 0 (by omega), hw 1 (by omega), hw 2 (by omega), hw 3 (by omega)]

/-- The XOR unit byte by byte (42_sequencer.md R165). -/
theorem quadByte_xor (p q : Quad) (k : Nat) : quadByte (p.xor q) k = quadByte p k ^^^ quadByte q k := by
  have hg : (p.xor q).get (k / 4) = p.get (k / 4) ^^^ q.get (k / 4) := by
    rcases k / 4 with _ | _ | _ | _ <;> rfl
  rw [quadByte, unpackByte, hg, BitVec.ushiftRight_xor_distrib, BitVec.setWidth_xor]
  rfl

/-- A full block is unchanged by packing its bytes. -/
theorem pack_unpack_full (q : Quad) : pack (unpack q 16) = q :=
  quad_ext fun k hk => by
    rw [quadByte_pack _ hk, List.getD_eq_getElem?_getD, List.getElem?_eq_getElem (by simpa [length_unpack] using hk)]
    exact getElem_unpack q _

/-- The first `c` bytes of a packed sequence, padded with zero bytes up to a block. -/
theorem unpack_pack (s : List Byte) {c : Nat} (hc : c ≤ 16) :
    unpack (pack s) c = (s ++ List.replicate (16 - s.length) 0).take c := by
  refine List.ext_getElem (by simp [length_unpack]; omega) fun k hk hk' => ?_
  rw [length_unpack] at hk
  rw [getElem_unpack, quadByte_pack _ (by omega), List.getElem_take, List.getElem_append]
  split
  · next h => simp [List.getD_eq_getElem?_getD, h]
  · next h => simp [List.getD_eq_getElem?_getD, List.getElem?_eq_none (Nat.le_of_not_lt h)]

theorem getD_unpack (q : Quad) {c k : Nat} (hk : k < c) : (unpack q c).getD k 0 = quadByte q k := by
  rw [List.getD_eq_getElem?_getD, List.getElem?_eq_getElem (by rwa [length_unpack]), Option.getD_some, getElem_unpack]

/-- Two blocks with the same bytes are one block. -/
theorem block_ext {a b : Block} (h : a.bytes = b.bytes) : a = b := by
  cases a
  cases b
  simp only at h
  subst h
  rfl

/-- A block packed is unpacked whole. -/
theorem unpack_pack_block (b : Block) : unpack (pack b.bytes) 16 = b.bytes := by
  have hl : b.bytes.length = 16 := b.length_eq
  rw [unpack_pack b.bytes (by omega), hl]
  simp [hl]

/-- The first bytes of a packed block are the first bytes of the block. -/
theorem unpack_pack_block_take (b : Block) {c : Nat} (hc : c ≤ 16) : unpack (pack b.bytes) c = b.bytes.take c := by
  have hl : b.bytes.length = 16 := b.length_eq
  rw [unpack_pack b.bytes hc, hl]
  simp

end Sys2Proof.Machine
end

