-- ==== Sys2Proof/Laws/Memory.lean ====
section
/-! SUPPORT. Caller memory: what a read gives after a write, and that every operation keeps the canonical form. -/

namespace Sys2Proof.Machine.Memory

variable {aw : Nat}

@[simp] theorem read_nil (x : Nat) : read [] x = unlisted := rfl

theorem read_entry (k : Nat) (v : Byte) (m : Memory) (x : Nat) :
    read ((k, v) :: m) x = if k = x then v else read m x := rfl

theorem wfFrom_entry {lo k : Nat} {v : Byte} {m : Memory} :
    wfFrom aw lo ((k, v) :: m) = true ↔ lo ≤ k ∧ k < 2 ^ aw ∧ v ≠ unlisted ∧ wfFrom aw (k + 1) m = true := by
  simp [wfFrom, and_assoc]

theorem wfFrom_mono {lo lo' : Nat} {m : Memory} (h : wfFrom aw lo m = true) (hle : lo' ≤ lo) :
    wfFrom aw lo' m = true := by
  cases m with
  | nil => rfl
  | cons e m =>
    obtain ⟨k, v⟩ := e
    rw [wfFrom_entry] at h ⊢
    exact ⟨by omega, h.2⟩

/-- An address below every listed one reads as an unlisted address does. -/
theorem read_below {lo : Nat} {m : Memory} (h : wfFrom aw lo m = true) {x : Nat} (hx : x < lo) :
    read m x = unlisted := by
  induction m generalizing lo with
  | nil => rfl
  | cons e m ih =>
    obtain ⟨k, v⟩ := e
    rw [wfFrom_entry] at h
    rw [read_entry, if_neg (by omega)]
    exact ih h.2.2.2 (by omega)

theorem read_cons_ne (a : Nat) (b : Byte) (m : Memory) {x : Nat} (hx : x ≠ a) : read (cons a b m) x = read m x := by
  unfold cons
  split
  · rfl
  · rw [read_entry, if_neg (Ne.symm hx)]

theorem read_cons_same {a : Nat} (b : Byte) {m : Memory} (h : wfFrom aw (a + 1) m = true) :
    read (cons a b m) a = b := by
  unfold cons
  split
  · next hb => rw [read_below h (by omega), hb]
  · rw [read_entry, if_pos rfl]

theorem wfFrom_cons {lo a : Nat} {b : Byte} {m : Memory} (h : wfFrom aw (a + 1) m = true) (hlo : lo ≤ a)
    (ha : a < 2 ^ aw) : wfFrom aw lo (cons a b m) = true := by
  unfold cons
  split
  · exact wfFrom_mono h (by omega)
  · next hb => exact wfFrom_entry.2 ⟨hlo, ha, hb, h⟩

/-- A store of one byte leaves every other address alone, whatever the memory's form. -/
theorem read_write_ne (m : Memory) (a : Nat) (b : Byte) {x : Nat} (hx : x ≠ a) : read (write m a b) x = read m x := by
  induction m with
  | nil => exact read_cons_ne a b [] hx
  | cons e m ih =>
    obtain ⟨k, v⟩ := e
    unfold write
    split
    · exact read_cons_ne a b _ hx
    · split
      · next hk => rw [read_cons_ne a b m hx, read_entry, if_neg (by omega)]
      · simp [read_entry, ih]

/-- A store of one byte is what a read at its address then gives. -/
theorem read_write_same {lo : Nat} {m : Memory} (h : wfFrom aw lo m = true) (a : Nat) (b : Byte) :
    read (write m a b) a = b := by
  induction m generalizing lo with
  | nil => exact read_cons_same (aw := aw) b rfl
  | cons e m ih =>
    obtain ⟨k, v⟩ := e
    have h' := wfFrom_entry.1 h
    unfold write
    split
    · exact read_cons_same b (wfFrom_entry.2 ⟨by omega, h'.2⟩)
    · split
      · next hk => subst hk; exact read_cons_same b h'.2.2.2
      · rw [read_entry, if_neg (by omega)]; exact ih h'.2.2.2

/-- A store of one byte keeps the canonical form. -/
theorem wfFrom_write {lo : Nat} {m : Memory} (h : wfFrom aw lo m = true) {a : Nat} (b : Byte) (hlo : lo ≤ a)
    (ha : a < 2 ^ aw) : wfFrom aw lo (write m a b) = true := by
  induction m generalizing lo with
  | nil => exact wfFrom_cons rfl hlo ha
  | cons e m ih =>
    obtain ⟨k, v⟩ := e
    have h' := wfFrom_entry.1 h
    unfold write
    split
    · exact wfFrom_cons (wfFrom_entry.2 ⟨by omega, h'.2⟩) hlo ha
    · split
      · next hk => subst hk; exact wfFrom_cons h'.2.2.2 hlo ha
      · exact wfFrom_entry.2 ⟨h'.1, h'.2.1, h'.2.2.1, ih h'.2.2.2 (by omega)⟩

theorem wf_write {m : Memory} (h : m.wf aw = true) {a : Nat} (b : Byte) (ha : a < 2 ^ aw) :
    (m.write a b).wf aw = true :=
  wfFrom_write h b (Nat.zero_le a) ha

/-- A store of a byte sequence keeps the canonical form. -/
theorem wf_writeBytes {m : Memory} (h : m.wf aw = true) {a : Nat} (s : List Byte)
    (ha : a + s.length ≤ 2 ^ aw) : (m.writeBytes a s).wf aw = true := by
  induction s generalizing m a with
  | nil => exact h
  | cons b s ih =>
    rw [List.length_cons] at ha
    exact ih (wf_write h b (by omega)) (by omega)

/-- `MemWrite` writes no address outside its range, whatever the memory's form (20_memory.md R63). -/
theorem read_writeBytes_outside (m : Memory) (a : Nat) (s : List Byte) {x : Nat}
    (hx : ¬ (a ≤ x ∧ x < a + s.length)) : read (m.writeBytes a s) x = read m x := by
  induction s generalizing m a with
  | nil => rfl
  | cons b s ih =>
    rw [List.length_cons] at hx
    rw [writeBytes, ih _ _ (by omega), read_write_ne _ _ _ (by omega)]

/-- `MemWrite` leaves byte `k` of its sequence at the address `a + k` (20_memory.md R63). -/
theorem read_writeBytes_inside {m : Memory} (h : m.wf aw = true) {a : Nat} {s : List Byte}
    (ha : a + s.length ≤ 2 ^ aw) {k : Nat} (hk : k < s.length) :
    read (m.writeBytes a s) (a + k) = s.getD k 0 := by
  induction s generalizing m a k with
  | nil => simp at hk
  | cons b s ih =>
    rw [List.length_cons] at ha hk
    cases k with
    | zero => simp [writeBytes, read_writeBytes_outside, read_write_same h a b]
    | succ k =>
      have := ih (wf_write h b (by omega : a < 2 ^ aw)) (a := a + 1) (by omega) (k := k) (by omega)
      rw [writeBytes, List.getD_cons_succ, ← this]
      congr 1
      omega

/-- Storing two sequences one after the other is storing them joined. -/
theorem writeBytes_append (m : Memory) (a : Nat) (s t : List Byte) :
    m.writeBytes a (s ++ t) = (m.writeBytes a s).writeBytes (a + s.length) t := by
  induction s generalizing m a with
  | nil => rfl
  | cons b s ih =>
    rw [List.cons_append, writeBytes, writeBytes, ih, List.length_cons]
    congr 1
    omega

@[simp] theorem length_readBytes (m : Memory) (a n : Nat) : (m.readBytes a n).length = n := by
  simp [readBytes]

/-- Byte `k` of `MemRead(a, n)` is the byte at `a + k` (20_memory.md R62). -/
theorem getD_readBytes (m : Memory) (a : Nat) {n k : Nat} (hk : k < n) :
    (m.readBytes a n).getD k 0 = m.read (a + k) := by
  simp [readBytes, List.getD_eq_getElem?_getD, hk]

theorem readBytes_congr {m m' : Memory} {a n : Nat} (h : ∀ k < n, m.read (a + k) = m'.read (a + k)) :
    m.readBytes a n = m'.readBytes a n := by
  simp only [readBytes]
  exact List.map_congr_left fun k hk => h k (List.mem_range.1 hk)

theorem readBytes_add (m : Memory) (a n k : Nat) :
    m.readBytes a (n + k) = m.readBytes a n ++ m.readBytes (a + n) k := by
  simp [readBytes, List.range_add, Nat.add_assoc]

/-- Reading back the range a sequence was stored to gives the sequence. -/
theorem readBytes_writeBytes {m : Memory} (h : m.wf aw = true) {a : Nat} {s : List Byte}
    (ha : a + s.length ≤ 2 ^ aw) : (m.writeBytes a s).readBytes a s.length = s := by
  refine List.ext_getElem (by simp) fun k hk hk' => ?_
  have := read_writeBytes_inside h ha hk'
  simpa [readBytes, List.getD_eq_getElem?_getD, hk'] using this

/-- Two memories in canonical form that read alike are equal. -/
theorem ext {lo : Nat} {m m' : Memory} (h : wfFrom aw lo m = true) (h' : wfFrom aw lo m' = true)
    (heq : ∀ x, m.read x = m'.read x) : m = m' := by
  induction m generalizing lo m' with
  | nil =>
    cases m' with
    | nil => rfl
    | cons e m' =>
      obtain ⟨k, v⟩ := e
      have := heq k
      rw [read_nil, read_entry, if_pos rfl] at this
      exact absurd this.symm (wfFrom_entry.1 h').2.2.1
  | cons e m ih =>
    obtain ⟨k, v⟩ := e
    have hm := wfFrom_entry.1 h
    cases m' with
    | nil =>
      have := heq k
      rw [read_nil, read_entry, if_pos rfl] at this
      exact absurd this hm.2.2.1
    | cons e' m' =>
      obtain ⟨k', v'⟩ := e'
      have hm' := wfFrom_entry.1 h'
      have hk : k = k' := by
        rcases Nat.lt_trichotomy k k' with hlt | rfl | hlt
        · have := heq k
          rw [read_entry, if_pos rfl, read_entry, if_neg (by omega), read_below hm'.2.2.2 (by omega)] at this
          exact absurd this hm.2.2.1
        · rfl
        · have := heq k'
          rw [read_entry, if_neg (by omega), read_below hm.2.2.2 (by omega), read_entry, if_pos rfl] at this
          exact absurd this.symm hm'.2.2.1
      subst hk
      have hv := heq k
      rw [read_entry, if_pos rfl, read_entry, if_pos rfl] at hv
      subst hv
      congr 1
      refine ih hm.2.2.2 hm'.2.2.2 fun x => ?_
      by_cases hx : k = x
      · subst hx
        rw [read_below hm.2.2.2 (by omega), read_below hm'.2.2.2 (by omega)]
      · simpa [read_entry, hx] using heq x

end Sys2Proof.Machine.Memory
end

