-- ==== Sys2Proof/Laws/Provider.lean ====
section
/-! SUPPORT. The provider's contexts: which handles are valid and what a context holds after each operation on the
provider's state. -/

namespace Sys2Proof.Machine

/-- Another direction or another handle is another context. -/
theorem context_ne {d d' : Dir} {h h' : Nat} (hne : d' ≠ d ∨ h' ≠ h) : (d == d' && h == h') = false := by
  simp only [Bool.and_eq_false_iff, beq_eq_false_iff_ne]
  exact hne.imp Ne.symm Ne.symm

/-- A transaction creates no context and discards none (40_transform_port.md R121). -/
theorem xfValid_setContext (P : List Context) (d : Dir) (h : Nat) (bytes : List Byte) (d' : Dir) (h' : Nat) :
    xfValid (setContext P d h bytes) d' h' = xfValid P d' h' := by
  simp only [xfValid, setContext, List.any_map]
  congr 1
  funext c
  simp only [Function.comp]
  split_ifs <;> rfl

/-- A transaction changes no context but that of its handle and direction (40_transform_port.md R121). -/
theorem contextState_setContext (P : List Context) {d : Dir} {h : Nat} (bytes : List Byte) {d' : Dir} {h' : Nat}
    (hne : d' ≠ d ∨ h' ≠ h) : contextState (setContext P d h bytes) d' h' = contextState P d' h' := by
  induction P with
  | nil => rfl
  | cons c P ih =>
    simp only [contextState, setContext, List.map_cons, List.find?_cons] at *
    by_cases hc : c.dir = d ∧ c.handle = h
    · have hf : (c.dir == d' && c.handle == h') = false := context_ne (by rw [hc.1, hc.2]; exact hne)
      simp only [if_pos hc, hf]
      exact ih
    · simp only [if_neg hc]
      split
      · rfl
      · exact ih

/-- A discarded context is not valid (40_transform_port.md R123). -/
theorem xfValid_dropContext (P : List Context) (d : Dir) (h : Nat) : xfValid (dropContext P d h) d h = false := by
  simp only [xfValid, List.any_eq_false, dropContext, List.mem_filter]
  rintro c ⟨-, hc⟩ hc'
  rw [hc'] at hc
  cases hc

/-- Discarding a context leaves every other as it was. -/
theorem dropContext_other (P : List Context) {d : Dir} {h : Nat} {d' : Dir} {h' : Nat} (hne : d' ≠ d ∨ h' ≠ h) :
    xfValid (dropContext P d h) d' h' = xfValid P d' h' ∧
      contextState (dropContext P d h) d' h' = contextState P d' h' := by
  induction P with
  | nil => exact ⟨rfl, rfl⟩
  | cons c P ih =>
    simp only [xfValid, contextState, dropContext, List.filter_cons] at *
    by_cases hc : (c.dir == d && c.handle == h) = true
    · obtain ⟨h1, h2⟩ : c.dir = d ∧ c.handle = h := by simpa using hc
      have hf : (c.dir == d' && c.handle == h') = false := context_ne (by rw [h1, h2]; exact hne)
      simp only [hc, List.any_cons, List.find?_cons, hf]
      simpa using ih
    · simp only [hc, Bool.not_false, if_true, List.any_cons, List.find?_cons, ih.1, true_and]
      split
      · rfl
      · exact ih.2

end Sys2Proof.Machine
end

