-- ==== Sys2Proof/Laws/Chain.lean ====
section
/-! SUPPORT. The closed forms: lengths, how segments and chains compose, and that an engine's pass over a segment is
one link of its direction's chain. -/

namespace Sys2Proof.Machine

/-! ### Blocks as byte sequences -/

theorem length_xorBytes (x y : List Byte) : (xorBytes x y).length = min x.length y.length := by
  simp [xorBytes]

theorem xorBytes_cancel (x v : List Byte) (h : x.length = v.length) : xorBytes (xorBytes x v) v = x := by
  refine List.ext_getElem (by simp [xorBytes, h]) fun k h1 h2 => ?_
  simp [xorBytes]

theorem length_padBlock (x : List Byte) (h : x.length ≤ 16) : (padBlock x).length = 16 := by
  simp [padBlock]
  omega

theorem padBlock_full (x : List Byte) (h : x.length = 16) : padBlock x = x := by
  simp [padBlock, h]

theorem asBlock_full (x : List Byte) (h : x.length = 16) : (asBlock x).bytes = x := by
  show (padBlock x).take 16 = x
  simp [padBlock, h]

theorem asBlock_padBlock (b : Block) : asBlock (padBlock b.bytes) = b :=
  block_ext (by rw [padBlock_full _ b.length_eq, asBlock_full _ b.length_eq])

/-- The block a packed segment is, padded (41_marshaller.md R141). -/
theorem unpack_pack_pad (s : List Byte) (h : s.length ≤ 16) : unpack (pack s) 16 = padBlock s := by
  rw [unpack_pack s (by omega), padBlock, List.take_of_length_le]
  simp
  omega

/-- The XOR unit byte-wise, on the first `c` bytes. -/
theorem unpack_xor (p q : Quad) (c : Nat) : unpack (p.xor q) c = xorBytes (unpack p c) (unpack q c) := by
  refine List.ext_getElem (by simp [xorBytes, length_unpack]) fun k h1 h2 => ?_
  rw [getElem_unpack, quadByte_xor]
  simp only [xorBytes, List.getElem_zipWith, getElem_unpack]

theorem take_unpack (q : Quad) {c : Nat} (hc : c ≤ 16) : (unpack q 16).take c = unpack q c := by
  refine List.ext_getElem (by simp [length_unpack, hc]) fun k h1 h2 => ?_
  rw [getElem_unpack, List.getElem_take, getElem_unpack]

theorem quadBlock_eq {q : Quad} {x : List Byte} (h : unpack q 16 = x) : quadBlock q = asBlock x :=
  block_ext (by rw [asBlock_full x (by rw [← h, length_unpack])]; exact h)

/-! ### Segments and chains -/

theorem segments_lengths {r : Nat} (n : Nat) (data : List Byte) (hd : data.length = 16 * n + r) (hr : r < 16) :
    ((segments n data).map List.length).sum = data.length ∧ ∀ t ∈ segments n data, List.length t ≤ 16 := by
  induction n generalizing data with
  | zero =>
    unfold segments
    split_ifs with h
    · simp [h]
    · simp
      omega
  | succ n ih =>
    obtain ⟨h1, h2⟩ := ih (data.drop 16) (by rw [List.length_drop]; omega)
    simp only [segments, List.map_cons, List.sum_cons, List.mem_cons]
    refine ⟨by rw [h1, List.length_take, List.length_drop]; omega, ?_⟩
    rintro t (rfl | h)
    · simp
    · exact h2 t h

theorem segments_append (m n : Nat) (a b : List Byte) (h : a.length = 16 * n) :
    segments (n + m) (a ++ b) = segments n a ++ segments m b := by
  induction n generalizing a with
  | zero =>
    obtain rfl : a = [] := List.length_eq_zero_iff.1 (by omega)
    simp [segments]
  | succ n ih =>
    rw [show n + 1 + m = (n + m) + 1 by omega]
    simp only [segments, List.cons_append]
    rw [List.take_append_of_le_length (by omega), List.drop_append_of_le_length (by omega), ih _ (by simp; omega)]

theorem chain_append (d : Dir) (h : Nat) (a b : List (List Byte)) (v : List Byte) (P : List Context) :
    chain d h (a ++ b) v P =
      let r := chain d h a v P
      let q := chain d h b r.carry r.contexts
      ⟨r.output ++ q.output, q.carry, q.contexts⟩ := by
  induction a generalizing v P with
  | nil => cases d <;> rfl
  | cons t a ih =>
    cases d <;> simp only [chain, encChain, decChain, List.cons_append] at ih ⊢ <;> rw [ih] <;>
      simp [List.append_assoc]

theorem chain_lengths (d : Dir) (h : Nat) (segs : List (List Byte)) (v : List Byte) (P : List Context)
    (hv : v.length = 16) (hs : ∀ t ∈ segs, List.length t ≤ 16) :
    (chain d h segs v P).output.length = (segs.map List.length).sum ∧ (chain d h segs v P).carry.length = 16 := by
  induction segs generalizing v P with
  | nil => cases d <;> simp [chain, encChain, decChain, hv]
  | cons t rest ih =>
    have ht : t.length ≤ 16 := hs t (by simp)
    have hrest : ∀ t ∈ rest, List.length t ≤ 16 := fun t h => hs t (by simp [h])
    have hlb : ∀ b : Block, b.bytes.length = 16 := fun b => b.length_eq
    cases d with
    | enc =>
      obtain ⟨i1, i2⟩ := ih (xf .enc P h (asBlock (xorBytes (padBlock t) v))).1.bytes
        (afterXf .enc P h (asBlock (xorBytes (padBlock t) v))) (hlb _) hrest
      simp only [chain, encChain] at *
      refine ⟨?_, i2⟩
      rw [List.length_append, i1, List.length_take, hlb, List.map_cons, List.sum_cons, Nat.min_eq_left ht]
    | dec =>
      obtain ⟨i1, i2⟩ := ih (padBlock t) (afterXf .dec P h (asBlock (padBlock t))) (length_padBlock t ht) hrest
      simp only [chain, decChain] at *
      refine ⟨?_, i2⟩
      rw [List.length_append, i1, List.length_take, length_xorBytes, hlb, hv, List.map_cons, List.sum_cons,
        Nat.min_self, Nat.min_eq_left ht]

theorem xfValid_chain (d : Dir) (h : Nat) (segs : List (List Byte)) (v : List Byte) (P : List Context) (d' : Dir)
    (h' : Nat) : xfValid (chain d h segs v P).contexts d' h' = xfValid P d' h' := by
  induction segs generalizing v P with
  | nil => cases d <;> rfl
  | cons t rest ih =>
    cases d <;> simp only [chain, encChain, decChain] at ih ⊢ <;> rw [ih] <;> exact xfValid_setContext _ _ _ _ _ _

/-- An engine's pass over a segment is one link of the chain: the bytes it writes, the value it carries and the
provider's state it leaves are the link's. -/
theorem pass_is_link (s : State) (d : Dir) {c : Nat} (hc : c ≤ 16) : ∃ out : List Byte, out.length = c ∧
    (s.cbcPass d c).mem = s.mem.writeBytes s.outAddr out ∧
    ∀ rest, chain d s.ctx (s.mem.readBytes s.inAddr c :: rest) (unpack s.cv 16) s.contexts =
      let r := chain d s.ctx rest (unpack (s.cbcPass d c).cv 16) (s.cbcPass d c).contexts
      ⟨out ++ r.output, r.carry, r.contexts⟩ := by
  have hl : (s.mem.readBytes s.inAddr c).length = c := by simp
  cases d with
  | enc =>
    have hx : quadBlock ((pack (s.mem.readBytes s.inAddr c)).xor s.cv) =
        asBlock (xorBytes (padBlock (s.mem.readBytes s.inAddr c)) (unpack s.cv 16)) := by
      apply quadBlock_eq
      rw [unpack_xor, unpack_pack_pad _ (by omega)]
    refine ⟨unpack (s.cbcPass .enc c).cv c, length_unpack _ _, rfl, fun rest => ?_⟩
    simp only [chain, encChain, State.cbcPass, State.encPass, transform, hx, hl]
    rw [unpack_pack_block_take _ hc, unpack_pack_block]
    rfl
  | dec =>
    have hx : quadBlock (pack (s.mem.readBytes s.inAddr c)) =
        asBlock (padBlock (s.mem.readBytes s.inAddr c)) := by
      apply quadBlock_eq
      rw [unpack_pack_pad _ (by omega)]
    refine ⟨unpack ((s.cbcPass .dec c).tout.xor s.cv) c, length_unpack _ _, rfl, fun rest => ?_⟩
    simp only [chain, decChain, State.cbcPass, State.decPass, transform, hx, hl]
    rw [← take_unpack ((pack _).xor _) hc, unpack_xor, unpack_pack_block, unpack_pack_pad _ (by omega)]
    rfl

end Sys2Proof.Machine
end

