-- ==== Sys2Proof/Laws/PerInstr.lean ====
section
/-! SUPPORT. The family LaidOut of statements about every command as syntax: its word has its opcode in bits 3:0, its
count field in bits 8:4 and zero in bits 31:9 (spec/30_encoding.md R90 to R92). -/

namespace Sys2Proof.Laws.LaidOut

/-- The word of `i` is laid out as format C says. -/
def Statement (i : Instr) : Prop :=
  opField (encode i) = opcode i ∧ cntField (encode i) = countField i ∧ rsvField (encode i) = 0

theorem cbcEnc : Statement .cbcEnc := ⟨opField_encode _, cntField_encode _, rsvField_encode _⟩

theorem cbcDec : Statement .cbcDec := ⟨opField_encode _, cntField_encode _, rsvField_encode _⟩

theorem packB : Statement .packB := ⟨opField_encode _, cntField_encode _, rsvField_encode _⟩

theorem packP (cnt : BitVec 5) : Statement (.packP cnt) := ⟨opField_encode _, cntField_encode _, rsvField_encode _⟩

theorem unpackB : Statement .unpackB := ⟨opField_encode _, cntField_encode _, rsvField_encode _⟩

theorem unpackP (cnt : BitVec 5) : Statement (.unpackP cnt) :=
  ⟨opField_encode _, cntField_encode _, rsvField_encode _⟩

end Sys2Proof.Laws.LaidOut
end

