-- ==== Sys2Proof/Laws/Progress.lean ====
section
/-! SUPPORT. What the invariant gives: the one enabled step of a busy block, its ranges in the address space, and how
runs of the machine compose. -/

namespace Sys2Proof.Machine

/-! ### Ranges and the length split -/

theorem inRange_iff {aw n : Nat} {a : Nat} : inRange aw a n = true ↔ a + n ≤ 2 ^ aw :=
  decide_eq_true_iff

theorem inRange_mono {aw n m : Nat} {a : Nat} (h : inRange aw a n = true) (hm : m ≤ n) : inRange aw a m = true := by
  rw [inRange_iff] at h ⊢
  omega

/-- Where a range lies in the address space, so does the empty one at its start. -/
theorem inRange_empty {aw n : Nat} {a : Nat} (h : inRange aw a n = true) : inRange aw a 0 = true :=
  inRange_mono h (Nat.zero_le n)

@[simp] theorem toNat_remainder (len : Nat) : (remainder len).toNat = len % 16 := by
  simp [remainder]

/-- The address a cursor has advanced to, while bytes of its range are left. -/
theorem advance_eq {aw n m : Nat} {a : Nat} (h : inRange aw a (n + m) = true) (hm : 0 < m) :
    advance aw a n = a + n :=
  fit_of_lt (by rw [inRange_iff] at h; omega)

/-- A cursor that has advanced inside its range leaves the rest of the range in the address space. -/
theorem inRange_advance {aw n m : Nat} {a : Nat} (h : inRange aw a (n + m) = true) :
    inRange aw (advance aw a n) m = true := by
  rcases Nat.eq_zero_or_pos m with rfl | hm
  · exact inRange_iff.2 (fit_lt aw (a + n)).le
  · rw [advance_eq h hm, inRange_iff, Nat.add_assoc]
    exact inRange_iff.1 h

theorem advance_advance (aw : Nat) (a : Nat) (n m : Nat) :
    advance aw (advance aw a n) m = advance aw a (n + m) := by
  simp only [advance, fit, Nat.mod_add_mod, Nat.add_assoc]

theorem advance_zero {aw : Nat} {a : Nat} (h : a < 2 ^ aw) : advance aw a 0 = a := fit_of_lt h

/-- The number of blocks of a length of `aw` bits is a number of `aw - 4` bits (10_state.md R39). -/
theorem blockCount_lt {aw : Nat} {len : Nat} (h : len < 2 ^ aw) : blockCount len < 2 ^ (aw - 4) := by
  refine Nat.div_lt_of_lt_mul (lt_of_lt_of_le h ?_)
  rw [show 16 = 2 ^ 4 from rfl, ← Nat.pow_add]
  exact Nat.pow_le_pow_right (by omega) (by omega)

/-! ### Values keep their widths -/

theorem handle_lt_setContext {P : List Context} {d : Dir} {h n : Nat} {bytes : List Byte}
    (hP : ∀ c ∈ P, c.handle < n) : ∀ c ∈ setContext P d h bytes, c.handle < n := by
  intro c hc
  obtain ⟨c', h', rfl⟩ := List.mem_map.1 hc
  split_ifs <;> exact hP c' h'

theorem cbcPass_valuesFit {s : State} (d : Dir) (c : Nat) (h : s.valuesFit) : (s.cbcPass d c).valuesFit := by
  obtain ⟨-, -, h3, h4, h5, h6, h7⟩ := h
  cases d <;> exact ⟨fit_lt _ _, fit_lt _ _, h3, h4, h5, h6, handle_lt_setContext h7⟩

/-- No effect of a command changes the width AW, and every one leaves values of their widths. -/
theorem valuesFit_of_effect {i : Instr} {s t : State} (h : ExecEffect i s t) (hv : s.valuesFit) :
    t.valuesFit ∧ t.addrWidth = s.addrWidth := by
  obtain ⟨h1, h2, h3, h4, h5, h6, h7⟩ := id hv
  cases h with
  | acceptedCbc => exact ⟨⟨h1, h2, h3, h4, h5, blockCount_lt h4, h7⟩, rfl⟩
  | block _ d =>
    obtain ⟨p1, p2, p3, p4, p5, p6, p7⟩ := cbcPass_valuesFit d 16 hv
    exact ⟨⟨p1, p2, p3, p4, p5, lt_of_le_of_lt (Nat.sub_le _ _) p6, p7⟩, by cases d <;> rfl⟩
  | partialBlock _ d => exact ⟨cbcPass_valuesFit d _ hv, by cases d <;> rfl⟩
  | packed => exact ⟨⟨fit_lt _ _, h2, h3, h4, h5, h6, h7⟩, rfl⟩
  | unpacked => exact ⟨⟨h1, fit_lt _ _, h3, h4, h5, h6, h7⟩, rfl⟩
  | nothing => exact ⟨hv, rfl⟩
  | rejected => exact ⟨hv, rfl⟩
  | acceptedMarshal => exact ⟨hv, rfl⟩
  | loadedIv => exact ⟨hv, rfl⟩
  | storedIv => exact ⟨hv, rfl⟩

/-! ### The step of a CBC command in each phase -/

theorem exec_cbc_idle (d : Dir) {s : State} (h : s.phase = .idle) :
    exec (cbcCommand d) s = .next (s.commandCbc d (encode (cbcCommand d))) := by
  cases d <;> simp [cbcCommand, exec, execCbcEnc, execCbcDec, h]

theorem exec_cbc_loadIv (d : Dir) {s : State} (h : s.phase = .loadIv) :
    exec (cbcCommand d) s = s.sequencerStep (s.ivAddr, 16) (s.ivAddr, 0) s.loadIvBody := by
  cases d <;> simp [cbcCommand, exec, execCbcEnc, execCbcDec, h, State.loadIvStep]

theorem exec_cbc_block (d : Dir) {s : State} (h : s.phase = .block) (hn : s.nleft ≠ 0) :
    exec (cbcCommand d) s = s.sequencerStep (s.inAddr, 16) (s.outAddr, 16) (s.cbcPass d 16).endBlock := by
  cases d <;> simp only [cbcCommand, exec, execCbcEnc, execCbcDec, h, State.blockStep, if_neg hn, State.cbcPass]

theorem exec_cbc_partial (d : Dir) {s : State} (h : s.phase = .partialBlock) (hr : s.rlen ≠ 0) :
    exec (cbcCommand d) s = s.sequencerStep (s.inAddr, s.rlen.toNat) (s.outAddr, s.rlen.toNat)
      (s.cbcPass d s.rlen.toNat).endPartial := by
  cases d <;> simp only [cbcCommand, exec, execCbcEnc, execCbcDec, h, State.partialStep, if_neg hr, State.cbcPass]

theorem exec_cbc_storeIv (d : Dir) {s : State} (h : s.phase = .storeIv) :
    exec (cbcCommand d) s = s.sequencerStep (s.ivAddr, 0) (s.ivAddr, 16) s.storeIvBody := by
  cases d <;> simp [cbcCommand, exec, execCbcEnc, execCbcDec, h, State.storeIvStep]

/-! ### The one enabled step -/

/-- A busy state that meets the invariant has an accepted command. -/
theorem command_of_inv {s : State} (h : s.Inv) (hb : s.busy = true) : ∃ i, decode s.cmd = .command i := by
  obtain ⟨-, -, -, -, -, hp⟩ := h
  unfold State.phaseInv State.runsCbc State.runsMarshal at hp
  unfold State.busy Phase.busy at hb
  split at hp <;> simp_all
  all_goals first
    | rcases hp.1 with h | h <;> exact ⟨_, h⟩
    | obtain h | ⟨_, h⟩ | h | ⟨_, h⟩ := hp
      · exact ⟨_, h.1⟩
      · exact ⟨_, h.1⟩
      · exact ⟨_, h.1⟩
      · exact ⟨_, h.1⟩

theorem step_of_cbc {s : State} {d : Dir} {i : Instr} (h : s.phaseInv) (hp : s.phase ≠ .marshal) (hb : s.busy = true)
    (hi : i = cbcCommand d) : ∃ after, exec i s = s.sequencerStep (s.readsOf i) (s.writesOf i) after ∧
      inRange s.addrWidth (s.readsOf i).1 (s.readsOf i).2 = true ∧
      inRange s.addrWidth (s.writesOf i).1 (s.writesOf i).2 = true := by
  subst hi
  have hr : s.readsOf (cbcCommand d) = s.cbcReads := by cases d <;> rfl
  have hw : s.writesOf (cbcCommand d) = s.cbcWrites := by cases d <;> rfl
  rw [hr, hw]
  unfold State.phaseInv State.fits at h
  unfold State.busy Phase.busy at hb
  split at h <;> rename_i hs
  · simp [hs] at hb
  · simp [hs] at hb
  · exact ⟨s.loadIvBody, by rw [exec_cbc_loadIv d hs]; simp [State.cbcReads, State.cbcWrites, hs],
      by simpa [State.cbcReads, hs] using h.2.1, by simpa [State.cbcWrites, hs] using inRange_empty h.2.1⟩
  · obtain ⟨-, -, ⟨-, -, hin, hout⟩, hn⟩ := h
    exact ⟨(s.cbcPass d 16).endBlock, by rw [exec_cbc_block d hs hn]; simp [State.cbcReads, State.cbcWrites, hs],
      by simpa [State.cbcReads, hs] using inRange_mono hin (by omega),
      by simpa [State.cbcWrites, hs] using inRange_mono hout (by omega)⟩
  · obtain ⟨-, -, ⟨-, -, hin, hout⟩, -, hl⟩ := h
    exact ⟨(s.cbcPass d s.rlen.toNat).endPartial,
      by rw [exec_cbc_partial d hs hl]; simp [State.cbcReads, State.cbcWrites, hs],
      by simpa [State.cbcReads, hs] using inRange_mono hin (by omega),
      by simpa [State.cbcWrites, hs] using inRange_mono hout (by omega)⟩
  · exact ⟨s.storeIvBody, by rw [exec_cbc_storeIv d hs]; simp [State.cbcReads, State.cbcWrites, hs],
      by simpa [State.cbcReads, hs] using inRange_empty h.2.1, by simpa [State.cbcWrites, hs] using h.2.1⟩
  · exact absurd hs hp

theorem step_of_marshal {s : State} {i : Instr} (h : s.runsMarshal) (hp : s.phase = .marshal)
    (hd : decode s.cmd = .command i) : ∃ after, exec i s = s.sequencerStep (s.readsOf i) (s.writesOf i) after ∧
      inRange s.addrWidth (s.readsOf i).1 (s.readsOf i).2 = true ∧
      inRange s.addrWidth (s.writesOf i).1 (s.writesOf i).2 = true := by
  obtain ⟨hc, hr⟩ | ⟨cnt, hc, hr⟩ | ⟨hc, hr⟩ | ⟨cnt, hc, hr⟩ := h <;> rw [hd] at hc <;> cases hc
  · exact ⟨s.packBody 16, by simp [exec, execPackB, hp, State.readsOf, State.writesOf],
      by simpa [State.readsOf, hp] using hr, by simpa [State.writesOf] using inRange_empty hr⟩
  · exact ⟨s.packBody (effectiveCount cnt), by simp [exec, execPackP, hp, State.readsOf, State.writesOf],
      by simpa [State.readsOf, hp] using hr, by simpa [State.writesOf] using inRange_empty hr⟩
  · exact ⟨s.unpackBody 16, by simp [exec, execUnpackB, hp, State.readsOf, State.writesOf],
      by simpa [State.readsOf] using inRange_empty hr, by simpa [State.writesOf, hp] using hr⟩
  · exact ⟨s.unpackBody (effectiveCount cnt), by simp [exec, execUnpackP, hp, State.readsOf, State.writesOf],
      by simpa [State.readsOf] using inRange_empty hr, by simpa [State.writesOf, hp] using hr⟩

/-- The one enabled step of a busy state that meets the invariant: over the bytes the phase says, which lie in the
address space. -/
theorem exec_of_inv {s : State} {i : Instr} (h : s.Inv) (hb : s.busy = true) (hd : decode s.cmd = .command i) :
    ∃ after, exec i s = s.sequencerStep (s.readsOf i) (s.writesOf i) after ∧
      inRange s.addrWidth (s.readsOf i).1 (s.readsOf i).2 = true ∧
      inRange s.addrWidth (s.writesOf i).1 (s.writesOf i).2 = true := by
  obtain ⟨-, -, -, -, -, hp⟩ := h
  by_cases hm : s.phase = .marshal
  · exact step_of_marshal (by simpa [State.phaseInv, hm] using hp) hm hd
  · have hc : s.runsCbc := by
      unfold State.phaseInv at hp
      unfold State.busy Phase.busy at hb
      split at hp <;> simp_all
    rcases hc with hc | hc <;> rw [hd] at hc <;> cases hc
    · exact step_of_cbc (d := .enc) hp hm hb rfl
    · exact step_of_cbc (d := .dec) hp hm hb rfl

/-! ### Runs -/

@[simp] theorem runsTo_zero (s t : State) : s.runsTo 0 t ↔ s = t :=
  ⟨fun h => Host.Outcome.next.inj h, fun h => congrArg Host.Outcome.next h⟩

theorem run_succ (M : Host.Core) (k : Nat) (s u : M.State) :
    M.run (k + 1) s = .next u ↔ ∃ t, M.step s = .next t ∧ M.run k t = .next u := by
  simp only [Host.Core.run]
  cases M.step s with
  | next t => exact ⟨fun h => ⟨t, rfl, h⟩, fun ⟨_, ht, h⟩ => Host.Outcome.next.inj ht ▸ h⟩
  | fault r => exact ⟨nofun, fun ⟨_, ht, _⟩ => nomatch ht⟩
  | refused r => exact ⟨nofun, fun ⟨_, ht, _⟩ => nomatch ht⟩

/-- A run of `k + 1` steps is a step and a run of `k` steps. -/
theorem runsTo_succ {s u : State} {k : Nat} : s.runsTo (k + 1) u ↔ ∃ t, step s = .next t ∧ t.runsTo k u :=
  run_succ core k s u

theorem runsTo_add {s t u : State} {j k : Nat} (h : s.runsTo j t) (h' : t.runsTo k u) : s.runsTo (j + k) u := by
  induction j generalizing s with
  | zero => simp only [runsTo_zero] at h; subst h; simpa using h'
  | succ j ih =>
    obtain ⟨v, hv, hr⟩ := runsTo_succ.1 h
    rw [Nat.succ_add]
    exact runsTo_succ.2 ⟨v, hv, ih hr⟩

/-- A machine's runs are functions: two runs of one length end alike. -/
theorem runsTo_unique {s t u : State} {k : Nat} (h : s.runsTo k t) (h' : s.runsTo k u) : t = u := by
  unfold State.runsTo at h h'
  rw [h] at h'
  exact (Host.Outcome.next.inj h')

end Sys2Proof.Machine
end

