-- ==== Sys2Proof/Tests/Slice0.lean ====
section
/-! SUPPORT. Small tests of the model, with results taken from spec/95_test_vectors.md or worked out by hand from the
rules, and for each statement of Certificates/Slice0 with hypotheses a named state and operands that meet them. -/

namespace Sys2Proof.Tests

open Sys2Proof.Machine

/-! ## Helpers -/

/-- The next state, if there is one. -/
def nextOf : Host.Outcome State Fault Refusal → Option State
  | .next t => some t
  | .fault _ => none
  | .refused _ => none

/-- Memory that holds a byte sequence at an address and lists nothing else. -/
def bytesAt (a : Nat) (s : List Byte) : Memory := Memory.writeBytes [] a s

/-- The source bytes of V2. -/
def bytesV2 : List Byte :=
  [0xA1, 0xB2, 0xC3, 0xD4, 0xE5, 0xF6, 0x07, 0x18, 0x29, 0x3A, 0x4B, 0x5C, 0x6D, 0x7E, 0x8F, 0x90]

/-- The registers of V11 after reset, with the fixture contexts of section 0 of 95_test_vectors.md. -/
def start : State :=
  { State.reset with
    inAddr := 0x100, outAddr := 0x200, ivAddr := 0x300, len := 32, ctx := 0x1000
    contexts := [⟨.enc, 0x1000, []⟩, ⟨.dec, 0x2000, []⟩] }

/-- The state with an accepted command word and a phase. -/
def busyIn (w : Word) (p : Phase) : State := { start with cmd := w, phase := p, nleft := 2 }

/-- `W` of V3. -/
def quadV3 : Quad := ⟨0x11223344, 0x55667788, 0x99AABBCC, 0xDDEEFF00⟩

/-! ## WellFormed: the ill-formed terms are refused (30_encoding.md R92) -/

theorem test_wf_refuses_packP_zero : (Instr.packP 0).wf = false := by decide

theorem test_wf_refuses_packP_seventeen : (Instr.packP 17).wf = false := by decide

theorem test_wf_refuses_unpackP_zero : (Instr.unpackP 0).wf = false := by decide

theorem test_wf_refuses_unpackP_thirty_one : (Instr.unpackP 31).wf = false := by decide

/-- R101: the assembler refuses a count outside 1 to 16 and gives the word otherwise. -/
theorem test_assemble : assemble (.packP 17) = none ∧ assemble (.packP 5) = some (.hostWrite 0x00 0x55) := by decide

/-! ## Decode: words written out from the bit strings of 30_encoding.md R93, V10 -/

theorem test_decode_cbcEnc : decode 0b00000000000000000000000000000001 = .command .cbcEnc := by decide

theorem test_decode_cbcDec : decode 0b00000000000000000000000000000010 = .command .cbcDec := by decide

theorem test_decode_packB : decode 0b00000000000000000000000000000100 = .command .packB := by decide

theorem test_decode_packP : decode 0b00000000000000000000000010010101 = .command (.packP 9) ∧
    decode 0b00000000000000000000000100000101 = .command (.packP 16) := by decide

theorem test_decode_unpackB : decode 0b00000000000000000000000000000110 = .command .unpackB := by decide

theorem test_decode_unpackP : decode 0b00000000000000000000000000110111 = .command (.unpackP 3) ∧
    decode 0b00000000000000000000000100000111 = .command (.unpackP 16) := by decide

/-- V11, the rows of ILLEGAL_OP. -/
theorem test_decode_illegal : decode 0x00000000 = .reject .illegalOp ∧ decode 0x00000003 = .reject .illegalOp ∧
    decode 0x00000008 = .reject .illegalOp ∧ decode 0x00000203 = .reject .illegalOp ∧
    decode 0xFFFFFFFF = .reject .illegalOp := by decide

/-- V11, the rows of RESERVED_BITS. -/
theorem test_decode_reserved : decode 0x00000011 = .reject .reservedBits ∧
    decode 0x00000201 = .reject .reservedBits ∧ decode 0x80000004 = .reject .reservedBits ∧
    decode 0x00000016 = .reject .reservedBits ∧ decode 0x00000305 = .reject .reservedBits := by decide

/-- V11, the rows of BAD_COUNT. -/
theorem test_decode_badCount : decode 0x00000005 = .reject .badCount ∧ decode 0x00000115 = .reject .badCount ∧
    decode 0x000001F5 = .reject .badCount ∧ decode 0x00000007 = .reject .badCount ∧
    decode 0x00000117 = .reject .badCount := by decide

/-- V10's words, encoded. -/
theorem test_encode : encode .cbcDec = 0x00000002 ∧ encode (.packP 16) = 0x00000105 ∧
    encode (.unpackP 1) = 0x00000017 := by decide

theorem test_decodeTableWord : decodeTableWord 32 0x55 = some (.packP 5) ∧ decodeTableWord 32 0x3 = none := by decide

/-! ## pack and unpack -/

/-- V2, rows 5 and 15. -/
theorem test_pack : pack (bytesV2.take 5) = ⟨0xA1B2C3D4, 0xE5000000, 0, 0⟩ ∧
    pack (bytesV2.take 15) = ⟨0xA1B2C3D4, 0xE5F60718, 0x293A4B5C, 0x6D7E8F00⟩ := by decide

/-- V6: no sign extension and no carry between lanes. -/
theorem test_pack_full :
    pack [0xFF, 0, 0, 0, 0, 0, 0, 0x80, 0x7F, 0xFF, 0xFF, 0xFF, 0, 0, 0, 1] =
      ⟨0xFF000000, 0x00000080, 0x7FFFFFFF, 0x00000001⟩ := by decide

/-- V5: the rejected value LSB of PARTIAL_JUSTIFY. -/
theorem test_pack_lsb : packAs .lsb (bytesV2.take 5) = ⟨0xA1B2C3D4, 0x000000E5, 0, 0⟩ ∧
    packAs .lsb (bytesV2.take 7) = ⟨0xA1B2C3D4, 0x00E5F607, 0, 0⟩ ∧
    unpackAs .lsb (packAs .lsb (bytesV2.take 7)) 7 = bytesV2.take 7 := by decide

/-- V3, `c = 9`. -/
theorem test_unpack : unpack quadV3 9 = [0x11, 0x22, 0x33, 0x44, 0x55, 0x66, 0x77, 0x88, 0x99] := by decide

/-! ## Memory -/

theorem test_reset_memory_wf : State.reset.mem.wf 64 = true := by decide

/-- A byte equal to what an unlisted address reads as is not listed. -/
theorem test_write_canonical : Memory.write [(5, 1)] 5 0 = [] ∧ Memory.write [(5, 1)] 4 2 = [(4, 2), (5, 1)] := by
  decide

/-! ## STATUS (10_state.md R23; V10, V14, V50) -/

theorem test_status : State.reset.status = 0x00000000 ∧ (busyIn 1 .loadIv).status = 0x00000101 ∧
    (busyIn 4 .marshal).status = 0x00000501 ∧ { start with done := true }.status = 0x00000002 ∧
    { start with err := some .badCtx }.status = 0x00000054 ∧ { start with phase := .halt }.status = 0x00000708 := by
  decide

/-- V14: a write of 4 to STATUS clears ERR and ERRCODE and keeps ERRINFO; 0xFFFFFFF9 clears nothing. -/
theorem test_status_write :
    let s : State := { start with err := some .badCount, done := true, errInfo := 0x115 }
    (s.writeReg .status 4).status = 0x00000002 ∧ (s.writeReg .status 4).errInfo = 0x115 ∧
      s.writeReg .status 0xFFFFFFF9 = s := by decide

/-- R21, R33: `W3` is at 0x58 and nothing is at 0x60. -/
theorem test_offsets : regAt 0x58 = some .w3 ∧ regAt 0x60 = none ∧ regAt 0x04 = none := by decide

/-! ## Acceptance and rejection (V10 to V13) -/

theorem test_accept_cbcEnc : (nextOf (exec .cbcEnc start)).map
    (fun t => (t.status, t.cmd, t.nleft, t.rlen)) = some (0x00000101, 0x00000001, 2, 0) := by decide

/-- V13: an encrypt context given to CBC.DEC. -/
theorem test_reject_cbcDec : (nextOf (exec .cbcDec start)).map (fun t => (t.status, t.cmd, t.errInfo)) =
    some (0x00000054, 0x00000000, 0x00000002) := by decide

/-- V12: the IV range is checked even when LEN = 0, and ADDR_RANGE comes before BAD_CTX. -/
theorem test_reject_ivRange :
    (nextOf (exec .cbcEnc { start with ivAddr := 0xFFFFFFFFFFFFFFF1, len := 0, ctx := 0 })).map State.status =
      some 0x00000044 := by decide

/-- V12: PACK.P 9 and PACK.P 8 at the top of the address space. -/
theorem test_range_packP :
    (nextOf (exec (.packP 9) { start with inAddr := 0xFFFFFFFFFFFFFFF8 })).map State.status = some 0x00000044 ∧
    (nextOf (exec (.packP 8) { start with inAddr := 0xFFFFFFFFFFFFFFF8 })).map State.status = some 0x00000501 := by
  decide

/-- R8, R31, R166 with AW = 16: a host write keeps 16 bits, a range may end at `2^16`, and the cursor then reads 0. -/
theorem test_other_width :
    let s : State := { start with addrWidth := 16, inAddr := 0xFFF8 }
    (s.writeReg .len 0x12345).len = 0x2345 ∧
    (nextOf (exec (.packP 9) s)).map State.status = some 0x00000044 ∧
    (nextOf (exec (.packP 8) s)).map State.status = some 0x00000501 ∧
    (nextOf (exec (.packP 8) { s with phase := .marshal })).map State.inAddr = some 0 := by decide

/-! ## Marshaller steps -/

/-- The example of R144 with V6's bytes at V2's address form: `IN_ADDR` advances by 16. -/
theorem test_packB_step :
    let s : State := { busyIn 0x4 .marshal with mem := bytesAt 0x100 bytesV2, w := quadV3 }
    (nextOf (exec .packB s)).map (fun t => (t.w, t.inAddr, t.status)) =
      some (⟨0xA1B2C3D4, 0xE5F60718, 0x293A4B5C, 0x6D7E8F90⟩, 0x110, 0x00000002) := by decide

/-- R145's example: `pack.p 5` clears the words above the count. -/
theorem test_packP_step :
    let s : State := { busyIn 0x55 .marshal with mem := bytesAt 0x100 bytesV2, w := quadV3 }
    (nextOf (exec (.packP 5) s)).map (fun t => (t.w, t.inAddr)) =
      some (⟨0xA1B2C3D4, 0xE5000000, 0, 0⟩, 0x105) := by decide

/-- V12: UNPACK.B whose range ends at the top of the address space leaves the cursor at 0. -/
theorem test_unpackB_step :
    let s : State := { busyIn 0x6 .marshal with outAddr := 0xFFFFFFFFFFFFFFF0, w := quadV3 }
    (nextOf (exec .unpackB s)).map (fun t => (t.outAddr, t.mem.read 0xFFFFFFFFFFFFFFF0, t.mem.read 0xFFFFFFFFFFFFFFFE,
      t.mem.read 0)) = some (0, 0x11, 0xFF, 0) := by decide

/-- R147's example: `unpack.p 6` leaves the guard bytes. -/
theorem test_unpackP_step :
    let s : State := { busyIn 0x67 .marshal with mem := bytesAt 0x200 (List.replicate 8 0xEE), w := quadV3 }
    (nextOf (exec (.unpackP 6) s)).map (fun t => (t.mem.readBytes 0x200 8, t.outAddr, t.w)) =
      some ([0x11, 0x22, 0x33, 0x44, 0x55, 0x66, 0xEE, 0xEE], 0x206, quadV3) := by decide

/-! ## CBC steps: the provider's answer is the vector's, as a hypothesis -/

/-- The IV bytes `IVA`. -/
def ivA : List Byte := [0xF0, 0xE1, 0xD2, 0xC3, 0xB4, 0xA5, 0x96, 0x87, 0x78, 0x69, 0x5A, 0x4B, 0x3C, 0x2D, 0x1E, 0x0F]

theorem encPass_of {s : State} {c : Nat} {x : Block} {y : Block × List Byte}
    (hx : quadBlock ((pack (s.mem.readBytes s.inAddr c)).xor s.cv) = x)
    (hy : Config.xfEnc s.contexts s.ctx x = y) :
    s.encPass c =
      { s with
        tin := pack (s.mem.readBytes s.inAddr c), inAddr := advance s.addrWidth s.inAddr c, tout := pack y.1.bytes
        contexts := setContext s.contexts .enc s.ctx y.2
        mem := s.mem.writeBytes s.outAddr (unpack (pack y.1.bytes) c), outAddr := advance s.addrWidth s.outAddr c
        cv := pack y.1.bytes } := by
  simp only [State.encPass, transform, xf, hx, hy]

theorem decPass_of {s : State} {c : Nat} {x : Block} {y : Block × List Byte}
    (hx : quadBlock (pack (s.mem.readBytes s.inAddr c)) = x) (hy : Config.xfDec s.contexts s.ctx x = y) :
    s.decPass c =
      { s with
        tin := pack (s.mem.readBytes s.inAddr c), inAddr := advance s.addrWidth s.inAddr c, tout := pack y.1.bytes
        contexts := setContext s.contexts .dec s.ctx y.2
        mem := s.mem.writeBytes s.outAddr (unpack ((pack y.1.bytes).xor s.cv) c), outAddr := advance s.addrWidth s.outAddr c
        cv := pack (s.mem.readBytes s.inAddr c) } := by
  simp only [State.decPass, transform, xf, hx, hy]

/-- V20: LOAD_IV of `IVA`. -/
theorem test_loadIv :
    (nextOf (exec .cbcEnc { busyIn 1 .loadIv with mem := bytesAt 0x300 ivA })).map (fun t => (t.cv, t.status)) =
      some (⟨0xF0E1D2C3, 0xB4A59687, 0x78695A4B, 0x3C2D1E0F⟩, 0x00000201) := by decide

/-- The state before the first BLOCK step of V24. -/
def encV24 : State :=
  { busyIn 1 .block with
    cv := pack ivA, mem := bytesAt 0x100 [0, 1, 2, 3, 4, 5, 6, 7, 8, 9, 10, 11, 12, 13, 14, 15] }

/-- V24, the first BLOCK step: `X` to the provider, its answer to memory and to `CV`. -/
theorem test_cbcEnc_block
    (hy : Config.xfEnc encV24.contexts 0x1000 ⟨[0xF0, 0xE0, 0xD0, 0xC0, 0xB0, 0xA0, 0x90, 0x80, 0x70, 0x60, 0x50, 0x40,
        0x30, 0x20, 0x10, 0x00], rfl⟩ =
      (⟨[0xEF, 0xEE, 0xED, 0xEC, 0xEB, 0xEA, 0xE9, 0xE8, 0xE7, 0xE6, 0xE5, 0xE4, 0xE3, 0xE2, 0xE1, 0xE0], rfl⟩, [])) :
    (nextOf (exec .cbcEnc encV24)).map (fun t => (t.tin, t.cv, t.mem.read 0x200, t.mem.read 0x20F, t.inAddr, t.status)) =
      some (⟨0x00010203, 0x04050607, 0x08090A0B, 0x0C0D0E0F⟩, ⟨0xEFEEEDEC, 0xEBEAE9E8, 0xE7E6E5E4, 0xE3E2E1E0⟩, 0xEF,
        0xE0, 0x110, 0x00000201) := by
  show (nextOf (encV24.blockStep (encV24.encPass 16))).map _ = _
  rw [encPass_of (by decide) hy]
  decide

/-- The state before the PARTIAL step of V28: five bytes. -/
def encV28 : State :=
  { busyIn 1 .partialBlock with
    cv := pack ivA, nleft := 0, rlen := 5
    mem := Memory.writeBytes (bytesAt 0x100 [0x41, 0x42, 0x43, 0x44, 0x45, 0x99]) 0x205 [0xEE] }

/-- V28: five bytes out, the guard byte kept, the whole answer carried. -/
theorem test_cbcEnc_partial
    (hy : Config.xfEnc encV28.contexts 0x1000 ⟨[0xB1, 0xA3, 0x91, 0x87, 0xF1, 0xA5, 0x96, 0x87, 0x78, 0x69, 0x5A, 0x4B,
        0x3C, 0x2D, 0x1E, 0x0F], rfl⟩ =
      (⟨[0xB2, 0xAF, 0xB4, 0x2D, 0xF0, 0xF0, 0xF0, 0xF0, 0xF0, 0xF0, 0xF0, 0xF0, 0xF0, 0xF0, 0xF0, 0xA1], rfl⟩, [])) :
    (nextOf (exec .cbcEnc encV28)).map (fun t => (t.mem.readBytes 0x200 6, t.cv, t.outAddr, t.status)) =
      some ([0xB2, 0xAF, 0xB4, 0x2D, 0xF0, 0xEE], ⟨0xB2AFB42D, 0xF0F0F0F0, 0xF0F0F0F0, 0xF0F0F0A1⟩, 0x205,
        0x00000401) := by
  show (nextOf (encV28.partialStep (encV28.encPass 5))).map _ = _
  rw [encPass_of (by decide) hy]
  decide

/-- The state before the first BLOCK step of V23. -/
def decV23 : State :=
  { busyIn 2 .block with
    ctx := 0x2000, mem := bytesAt 0x100 [1, 2, 3, 4, 5, 6, 7, 8, 9, 10, 11, 12, 13, 14, 15, 0], nleft := 1 }

/-- V23: `CV` afterwards is the ciphertext as read, not the plaintext and not `TOUT`. -/
theorem test_cbcDec_block
    (hy : Config.xfDec decV23.contexts 0x2000 ⟨[1, 2, 3, 4, 5, 6, 7, 8, 9, 10, 11, 12, 13, 14, 15, 0], rfl⟩ =
      (⟨[0, 1, 2, 3, 4, 5, 6, 7, 8, 9, 10, 11, 12, 13, 14, 15], rfl⟩, [])) :
    (nextOf (exec .cbcDec decV23)).map (fun t => (t.tout, t.cv, t.mem.read 0x201, t.status)) =
      some (⟨0x00010203, 0x04050607, 0x08090A0B, 0x0C0D0E0F⟩, ⟨0x01020304, 0x05060708, 0x090A0B0C, 0x0D0E0F00⟩, 1,
        0x00000401) := by
  show (nextOf (decV23.blockStep (decV23.decPass 16))).map _ = _
  rw [decPass_of (by decide) hy]
  decide

/-- The state before the PARTIAL step of V28's decryption. -/
def decV28 : State :=
  { busyIn 2 .partialBlock with
    ctx := 0x2000, cv := pack ivA, nleft := 0, rlen := 5, mem := bytesAt 0x100 [0xB2, 0xAF, 0xB4, 0x2D, 0xF0, 0x77] }

/-- V28: the zero-padded ciphertext goes to the provider and to `CV`. -/
theorem test_cbcDec_partial
    (hy : Config.xfDec decV28.contexts 0x2000 ⟨[0xB2, 0xAF, 0xB4, 0x2D, 0xF0, 0, 0, 0, 0, 0, 0, 0, 0, 0, 0, 0], rfl⟩ =
      (⟨[0x10, 0xA3, 0x91, 0x87, 0xF1, 0xA5, 0xA6, 0x97, 0x88, 0x79, 0x6A, 0x5B, 0x4C, 0x3D, 0x2E, 0x1F], rfl⟩, [])) :
    (nextOf (exec .cbcDec decV28)).map (fun t => (t.mem.readBytes 0x200 6, t.cv)) =
      some ([0xE0, 0x42, 0x43, 0x44, 0x45, 0], ⟨0xB2AFB42D, 0xF0000000, 0, 0⟩) := by
  show (nextOf (decV28.partialStep (decV28.decPass 5))).map _ = _
  rw [decPass_of (by decide) hy]
  decide

/-- STORE_IV writes all of `CV` and completes (R170). -/
theorem test_storeIv :
    (nextOf (exec .cbcDec { busyIn 2 .storeIv with cv := quadV3 })).map
      (fun t => (t.mem.readBytes 0x300 4, t.mem.read 0x30E, t.mem.read 0x310, t.status)) =
      some ([0x11, 0x22, 0x33, 0x44], 0xFF, 0, 0x00000002) := by decide

/-! ## Halt, stuck, fetch -/

/-- V50: `fatal_in` at the `CMD` write. -/
theorem test_halt : (nextOf (step { start with fatalIn := true, inputs := [wr .cmd 1] })).map
    (fun t => (t.status, t.cmd)) = some (0x00000708, 0) := by decide

/-- R66: a byte that is not admitted leaves the block as it was. -/
theorem test_stuck : (nextOf (step { busyIn 4 .marshal with denied := [⟨0x10F, 1, .read⟩] })).map State.status =
    some 0x00000501 := by decide

/-- `withFetchWord` has the next step run the word: `pack.b` is accepted from reset. -/
theorem test_withFetchWord : (nextOf (step (State.reset.withFetchWord 32 4))).map (fun t => (t.status, t.cmd)) =
    some (0x00000501, 4) := by decide

/-! ## Witnesses: states and operands that meet the hypotheses of each statement -/

/-- DecodeMakesTheTestsInOrder, clause by clause, at V11's boundary words. -/
theorem witness_decode_clauses :
    ((0x0 : Word).toNat % 16 ∉ [1, 2, 4, 5, 6, 7]) ∧
    ((0x305 : Word).toNat % 16 ∈ [1, 2, 4, 5, 6, 7] ∧ (0x305 : Word).toNat / 512 ≠ 0) ∧
    ((0x11 : Word).toNat % 16 ∈ [1, 2, 4, 6] ∧ (0x11 : Word).toNat / 512 = 0 ∧ (0x11 : Word).toNat / 16 % 32 ≠ 0) ∧
    ((0x5 : Word).toNat % 16 ∈ [5, 7] ∧ (0x5 : Word).toNat / 512 = 0 ∧ (0x5 : Word).toNat / 16 % 32 = 0) ∧
    ((0x117 : Word).toNat % 16 ∈ [5, 7] ∧ (0x117 : Word).toNat / 512 = 0 ∧ 16 < (0x117 : Word).toNat / 16 % 32) ∧
    ((0x1 : Word).toNat % 16 = 1 ∧ (0x2 : Word).toNat % 16 = 2 ∧ (0x4 : Word).toNat % 16 = 4 ∧
      (0x6 : Word).toNat % 16 = 6) ∧
    ((0x15 : Word).toNat % 16 = 5 ∧ (0x15 : Word).toNat / 16 % 32 = 1) ∧
    ((0x105 : Word).toNat % 16 = 5 ∧ (0x105 : Word).toNat / 16 % 32 = 16) ∧
    ((0x17 : Word).toNat % 16 = 7 ∧ (0x17 : Word).toNat / 16 % 32 = 1) ∧
    ((0x107 : Word).toNat % 16 = 7 ∧ (0x107 : Word).toNat / 16 % 32 = 16) := by decide

/-- DecodeAndEncodeAgree, both directions, at the largest count. -/
theorem witness_decode_encode : decode 0x00000107 = .command (.unpackP 16) ∧ (Instr.unpackP 16).wf = true ∧
    encode (.unpackP 16) = 0x00000107 := by decide

/-- TableRowsCoverTheirWords: a row, a command word of it and a word of it rejected for its count. -/
theorem witness_table_row : ⟨"PACK.P", 0xFFFFFE0F, 0x00000005⟩ ∈ commandTable ∧
    TableRow.covers ⟨"PACK.P", 0xFFFFFE0F, 0x00000005⟩ 0x00000105 = true ∧
    TableRow.covers ⟨"PACK.P", 0xFFFFFE0F, 0x00000005⟩ 0x00000115 = true := by decide

/-- LengthSplitAtAcceptance. -/
theorem witness_length_split : start.phase = .idle ∧
    ∃ t, exec (cbcCommand .enc) { start with len := 33 } = .next t ∧ t.err = none := ⟨rfl, _, rfl, rfl⟩

/-- FullCountIsFullBlock: an idle state and a busy one. -/
theorem witness_full_count : start.phase = .idle ∧ (busyIn 4 .marshal).phase ≠ .idle := by decide

/-- PackPlacesBytesBigEndian and MarshallerLaws: the shortest and the longest sequence. -/
theorem witness_pack_lengths : (1 ≤ (bytesV2.take 1).length ∧ (bytesV2.take 1).length ≤ 16) ∧
    (1 ≤ bytesV2.length ∧ bytesV2.length ≤ 16) := by decide

/-- UnpackTakesBytesBigEndian, XorUnitIsWordWise and MarshallerLaws: the counts, indexes and words at their ends. -/
theorem witness_unpack_counts : ((1 ≤ 1 ∧ 1 ≤ 16) ∧ (1 ≤ 16 ∧ 16 ≤ 16) ∧ 15 < 16 ∧ 3 < 4) := by decide

/-- MemWriteWritesExactlyItsBytes: two bytes at the top of the address space. -/
theorem witness_mem_write : Memory.wf [(0x10, 1)] 64 = true ∧
    (0xFFFFFFFFFFFFFFFE : Nat) + ([1, 2] : List Byte).length ≤ 2 ^ 64 := by decide

/-- StepsWriteOnlyTheirRange: `unpack.p 1` and the byte after its range; NotAdmitted excepted, every step is of this form. -/
theorem witness_steps_write : (∃ t, exec (.unpackP 1) (busyIn 0x17 .marshal) = .next t) ∧
    ¬ inBytes ((busyIn 0x17 .marshal).writesOf (.unpackP 1)) 0x201 :=
  ⟨⟨_, rfl⟩, fun h => absurd h.2 (by decide)⟩

/-- The invariant holds of a block in MARSHAL with `pack.b` accepted. -/
theorem witness_marshal_inv : (busyIn 4 .marshal).Inv :=
  ⟨by decide, by unfold State.valuesFit; decide, by decide, by decide, .inr ⟨.packB, by decide⟩, .inl ⟨by decide, by decide⟩⟩

/-- NotAdmittedAccessIsStuck, by a read at the last byte of the range and by a write at the first. -/
theorem witness_stuck_read :
    let s : State := { busyIn 4 .marshal with denied := [⟨0x10F, 1, .read⟩] }
    s.Inv ∧ s.busy = true ∧ s.fatalIn = false ∧ s.inputs = [] ∧ decode s.cmd = .command .packB ∧
      ∃ a, inBytes (s.readsOf .packB) a ∧ s.admits .read a = false :=
  ⟨witness_marshal_inv, by decide, rfl, rfl, by decide, 0x10F, ⟨by decide, by decide⟩, by decide⟩

theorem witness_stuck_write :
    let s : State := { busyIn 6 .marshal with denied := [⟨0x200, 1, .write⟩] }
    s.Inv ∧ s.busy = true ∧ s.fatalIn = false ∧ s.inputs = [] ∧ decode s.cmd = .command .unpackB ∧
      ∃ a, inBytes (s.writesOf .unpackB) a ∧ s.admits .write a = false :=
  ⟨⟨by decide, by unfold State.valuesFit; decide, by decide, by decide, .inr ⟨.unpackB, by decide⟩, .inr (.inr (.inl ⟨by decide, by decide⟩))⟩,
    by decide, rfl, rfl, by decide, 0x200, ⟨by decide, by decide⟩, by decide⟩

/-- StatusFields: a state with no error and one with an error. -/
theorem witness_status : start.err = none ∧ { start with err := some ErrCode.badCtx }.err = some .badCtx := by decide

/-- HostReadChangesNothing and HostWriteWhileIdle: every register can be the next access. -/
theorem witness_host_access : ∀ r ∈ allRegs,
    { busyIn 1 .block with inputs := [rd r] }.inputs = rd r :: [] ∧ start.phase = .idle ∧
      { start with inputs := [wr r 7] }.inputs = wr r 7 :: [] := by decide

/-- HostWriteWhileBusyIgnored. -/
theorem witness_write_busy : (busyIn 1 .storeIv).busy = true ∧
    { busyIn 1 .storeIv with inputs := [.hostWrite 0 2] }.inputs = [.hostWrite 0 2] := by decide

/-- HaltAndUnmappedAccess: HALT, and the first offset past the table. -/
theorem witness_halt_unmapped : { start with phase := .halt }.phase = .halt ∧ ∀ r, regOffset r ≠ 0x60 :=
  ⟨rfl, fun r => by cases r <;> decide⟩

/-- ResetEventEffect, in the middle of a command. -/
theorem witness_reset_event : { busyIn 1 .block with inputs := [.reset] }.inputs = [.reset] := rfl

/-- CommandWriteRunsTheCommand, both clauses. -/
theorem witness_command_write : start.phase = .idle ∧ start.fatalIn = false ∧
    decode (BitVec.ofNat 32 0x55) = .command (.packP 5) ∧ decodeTableWord 32 0x55 = some (.packP 5) := by
  decide

/-- SequencerRunsTheAcceptedCommand, NotAdmittedAccessIsStuck, AcceptedCommandCompletes: a busy block. -/
theorem witness_sequencer : (busyIn 4 .marshal).busy = true ∧ (busyIn 4 .marshal).fatalIn = false ∧
    decode (busyIn 4 .marshal).cmd = .command .packB ∧ (busyIn 4 .marshal).inputs = [] := by decide

/-- NoEnabledStepNoChange: IDLE and HALT. -/
theorem witness_no_step : start.phase = .idle ∧ { start with phase := .halt }.phase = .halt ∧ start.inputs = [] := by
  decide

/-- RejectionEffect, both clauses: a bad word, and a command whose checks fail. -/
theorem witness_rejection : decode (BitVec.ofNat 32 0x3) = .reject .illegalOp ∧ start.fatalIn = false ∧
    ∃ t, exec .cbcDec start = .next t ∧ t.err = some .badCtx := ⟨by decide, rfl, _, rfl, rfl⟩

/-- CbcAcceptOrReject, its three clauses, at the top of the address space (V12). -/
theorem witness_cbc_accept : start.phase = .idle ∧
    0xFFFFFFFFFFFFFFF0 + 16 ≤ 2 ^ start.addrWidth ∧ ¬ 0xFFFFFFFFFFFFFFF1 + 16 ≤ 2 ^ start.addrWidth ∧
    (∃ c ∈ start.contexts, c.dir = Dir.enc ∧ c.handle = start.ctx) ∧
    ¬ ∃ c ∈ start.contexts, c.dir = Dir.dec ∧ c.handle = start.ctx := by decide

/-- MarshallerAcceptOrReject, its clauses at counts 0, 1, 16, 17 and at the top of the address space. -/
theorem witness_marshal_accept : start.phase = .idle ∧ (0 : BitVec 5).toNat = 0 ∧ 16 < (17 : BitVec 5).toNat ∧
    (1 ≤ (1 : BitVec 5).toNat ∧ (16 : BitVec 5).toNat ≤ 16) ∧
    2 ^ start.addrWidth < 0xFFFFFFFFFFFFFFF8 + (9 : BitVec 5).toNat ∧
    0xFFFFFFFFFFFFFFF8 + (8 : BitVec 5).toNat ≤ 2 ^ start.addrWidth := by decide

/-- FatalInputHalts, FatalInputStaysUntilAdapterReset: a busy and an idle block with `fatal_in` = 1. -/
theorem witness_fatal : { busyIn 1 .block with fatalIn := true }.fatalIn = true ∧ (busyIn 1 .block).busy = true ∧
    { start with fatalIn := true, inputs := [.adapterReset] }.fatalIn = true ∧
    (∃ t, step { start with fatalIn := true, inputs := [.adapterReset] } = .next t) ∧
    ∃ t, step { start with fatalIn := true, inputs := [.hostRead 8] } = .next t :=
  ⟨rfl, rfl, rfl, ⟨_, rfl⟩, _, rfl⟩

/-- HaltLeftOnlyByReset: a host access, an event of the environment and the reset in HALT. -/
theorem witness_halt : (∃ t, step { start with phase := .halt, inputs := [wr .cmd 1] } = .next t) ∧
    (∃ t, step { start with phase := .halt, inputs := [.adapterReset] } = .next t) ∧
    ∃ t, step { start with phase := .halt, inputs := [.reset] } = .next t := ⟨⟨_, rfl⟩, ⟨_, rfl⟩, _, rfl⟩

/-- PhaseTransitionsAreTheTable, EveryStepKeepsTheInvariant, CmdHoldsTheLastAcceptedWord (both clauses): an accepting
step. -/
theorem witness_accepting_step : start.phase = .idle ∧ ∃ t, step { start with inputs := [wr .cmd 1] } = .next t ∧
    t.phase = .loadIv ∧ t.cmd = 1 ∧ t.busy = true := ⟨rfl, _, rfl, rfl, rfl, rfl⟩

/-- ErrInfoWrittenOnlyByRejection (both clauses): a rejecting step. -/
theorem witness_rejecting_step : start.phase = .idle ∧ start.fatalIn = false ∧
    ∃ t, step { start with inputs := [wr .cmd 3] } = .next t ∧ t.errInfo = 3 ∧ t.phase = .idle :=
  ⟨rfl, rfl, _, rfl, rfl, rfl⟩

/-- LoadIvStep, both clauses, with the IV at the top of the address space. -/
theorem witness_loadIv :
    let s : State := { busyIn 1 .loadIv with ivAddr := 0xFFFFFFFFFFFFFFF0 }
    s.phase = .loadIv ∧ s.ivAddr + 16 ≤ 2 ^ s.addrWidth ∧ s.admitsAll .read s.ivAddr 16 = true ∧
      ∃ t, exec (cbcCommand .enc) start = .next t ∧ t.err = none :=
  ⟨rfl, by decide, by decide, _, rfl, rfl⟩

/-- StoreIvStep. -/
theorem witness_storeIv :
    let s : State := { busyIn 1 .storeIv with ivAddr := 0xFFFFFFFFFFFFFFF0 }
    s.phase = .storeIv ∧ s.ivAddr + 16 ≤ 2 ^ s.addrWidth ∧ s.admitsAll .write s.ivAddr 16 = true ∧
      s.mem.wf s.addrWidth = true := by decide

/-- EncryptBlockStep and DecryptBlockStep, with the output at the top of the address space. -/
theorem witness_block :
    let s : State := { encV24 with outAddr := 0xFFFFFFFFFFFFFFF0 }
    s.phase = .block ∧ s.nleft ≠ 0 ∧ s.inAddr + 16 ≤ 2 ^ s.addrWidth ∧ s.outAddr + 16 ≤ 2 ^ s.addrWidth ∧
      s.admitsAll .read s.inAddr 16 = true ∧ s.admitsAll .write s.outAddr 16 = true ∧ s.mem.wf s.addrWidth = true := by decide

/-- EncryptPartialStep and DecryptPartialStep, at 1 and at 15 bytes. -/
theorem witness_partial : ∀ r ∈ ([1, 15] : List (BitVec 4)),
    let s : State := { encV28 with rlen := r, outAddr := 0xFFFFFFFFFFFFFFF1 }
    s.phase = .partialBlock ∧ s.rlen ≠ 0 ∧ s.inAddr + s.rlen.toNat ≤ 2 ^ s.addrWidth ∧
      s.outAddr + s.rlen.toNat ≤ 2 ^ s.addrWidth ∧ s.admitsAll .read s.inAddr s.rlen.toNat = true ∧
      s.admitsAll .write s.outAddr s.rlen.toNat = true ∧ s.mem.wf s.addrWidth = true := by decide

/-- PackStep, its two forms, at counts 1 and 16. -/
theorem witness_pack_step :
    let s : State := { busyIn 4 .marshal with inAddr := 0xFFFFFFFFFFFFFFF0 }
    s.phase = .marshal ∧ s.inAddr + 16 ≤ 2 ^ s.addrWidth ∧ s.admitsAll .read s.inAddr 16 = true ∧
      countLegal 1 = true ∧ countLegal 16 = true ∧ (16 : BitVec 5).toNat = 16 ∧ s.admitsAll .read s.inAddr 1 = true := by
  decide

/-- UnpackStep, its two forms, at counts 1 and 16. -/
theorem witness_unpack_step :
    let s : State := { busyIn 6 .marshal with outAddr := 0xFFFFFFFFFFFFFFF0 }
    s.phase = .marshal ∧ s.outAddr + 16 ≤ 2 ^ s.addrWidth ∧ s.admitsAll .write s.outAddr 16 = true ∧
      s.mem.wf s.addrWidth = true ∧ countLegal 1 = true ∧ countLegal 16 = true ∧ (16 : BitVec 5).toNat = 16 ∧
      s.admitsAll .write s.outAddr 1 = true := by decide

/-- CommandsKeepTheRegistersTheyDoNotName: each kind of command, accepted and running. -/
theorem witness_frames : (∃ t, exec (cbcCommand .dec) (busyIn 2 .loadIv) = .next t) ∧
    (∃ t, exec .packB (busyIn 4 .marshal) = .next t) ∧ (∃ t, exec (.packP 16) (busyIn 0x105 .marshal) = .next t) ∧
    (∃ t, exec .unpackB (busyIn 6 .marshal) = .next t) ∧ (∃ t, exec (.unpackP 1) (busyIn 0x17 .marshal) = .next t) ∧
    (∀ d, Instr.packB ≠ cbcCommand d) ∧ (busyIn 4 .marshal).phase ≠ .idle :=
  ⟨⟨_, rfl⟩, ⟨_, rfl⟩, ⟨_, rfl⟩, ⟨_, rfl⟩, ⟨_, rfl⟩, fun d => by cases d <;> decide, by decide⟩

/-- FlagsChangeOnlyAtCompletion: a step that does not complete and one that does. -/
theorem witness_flags : (busyIn 1 .loadIv).busy = true ∧ (∃ t, exec .cbcEnc (busyIn 1 .loadIv) = .next t) ∧
    (busyIn 1 .storeIv).busy = true ∧ ∃ t, exec .cbcEnc (busyIn 1 .storeIv) = .next t :=
  ⟨rfl, ⟨_, rfl⟩, rfl, _, rfl⟩

/-- OnlyPassesUseThePort: a step that uses the port and one that does not. -/
theorem witness_port : (∃ t, exec .cbcDec decV23 = .next t) ∧ ∃ t, exec .cbcDec (busyIn 2 .storeIv) = .next t :=
  ⟨⟨_, rfl⟩, _, rfl⟩

/-- HiddenRegistersAreNotObserved: two idle states with different hidden registers. -/
theorem witness_hidden : start.agreesWith { start with cv := quadV3, tin := quadV3, nleft := 5, rlen := 3 } ∧
    ∃ t, step start = .next t := ⟨⟨rfl, by decide, by decide⟩, _, rfl⟩

/-- ContextCreationAndDiscard: the events, and another handle and the other direction. The two sizes are OPEN: one of
the two clauses on them applies, whatever they are. -/
theorem witness_contexts : { start with inputs := [.initContext .enc 0x3000 [1]] }.inputs =
      [.initContext .enc 0x3000 [1]] ∧
    { start with inputs := [.discardContext .dec 0x2000] }.inputs = [.discardContext .dec 0x2000] ∧
    ((Dir.dec ≠ Dir.enc ∨ (0x3000 : Nat) ≠ 0x3000) ∧ (Dir.enc ≠ Dir.enc ∨ (0x1000 : Nat) ≠ 0x3000)) ∧
    (Config.ctxSize ≤ Config.ctxMax ∨ Config.ctxMax < Config.ctxSize) :=
  ⟨rfl, rfl, by decide, by omega⟩

/-- AcceptedCommandCompletes and NoStepFaultsUnderTheInvariant: a CBC command in BLOCK with two blocks left. -/
theorem witness_block_inv :
    let s : State := busyIn 1 .block
    s.Inv ∧ s.busy = true ∧ s.fatalIn = false ∧ s.admitsEverything ∧ s.inputs = [] :=
  ⟨⟨by decide, by unfold State.valuesFit; decide, by decide, by decide, .inr ⟨.cbcEnc, by decide⟩,
      .inl (by decide), by decide, ⟨by decide, by decide, by decide, by decide⟩, by decide⟩,
    by decide, rfl, rfl, rfl⟩

/-- CbcCommandClosedForm: two blocks and five bytes, in place. -/
theorem witness_closed_form :
    State.readyForCbc { start with len := 37, outAddr := 0x100, inputs := [command .cbcEnc] } .enc :=
  ⟨rfl, rfl, by decide, by unfold State.valuesFit; decide, ⟨by decide, by decide, by decide, by decide⟩, rfl, .inl (by decide), rfl⟩

/-- ZeroLengthLeavesMemory. -/
theorem witness_zero_length :
    State.readyForCbc { start with len := 0, ctx := 0x2000, inputs := [command .cbcDec] } .dec :=
  ⟨rfl, rfl, by decide, by unfold State.valuesFit; decide, ⟨by decide, by decide, by decide, by decide⟩, rfl, .inr (by decide), rfl⟩

/-- ContinuityAtBlockBoundaries: P2's split of 48 bytes as 16 and 32. -/
theorem witness_continuity : start.phase = .idle ∧ start.fatalIn = false ∧ start.mem.wf start.addrWidth = true ∧
    start.admitsEverything ∧ xfValid start.contexts .enc start.ctx = true ∧ 16 % 16 = 0 ∧
    16 + 32 < 2 ^ start.addrWidth ∧ start.valuesFit ∧ start.inAddr + (16 + 32) ≤ 2 ^ start.addrWidth ∧
    start.outAddr + (16 + 32) ≤ 2 ^ start.addrWidth ∧ start.ivAddr + 16 ≤ 2 ^ start.addrWidth ∧
    (start.outAddr ≤ start.inAddr ∨ start.inAddr + (16 + 32) ≤ start.outAddr) ∧
    start.ivApartFrom start.inAddr (16 + 32) :=
  ⟨rfl, rfl, by decide, rfl, by decide, by decide, by decide, by unfold State.valuesFit; decide, by decide, by decide,
    by decide, by decide, .inr (by decide)⟩

/-- R279: what only the environment, the sequencer or another agent is still to do leaves a run over; an action of
the host does not, nor does HALT. -/
theorem test_over_well :
    { start with done := true, inputs := [.fatalRise, .reset, .sequencer, .agentWrite 0 1] : State }.overWell = true ∧
    { start with done := true, inputs := [.fatalRise, rd .status] : State }.overWell = false ∧
    { start with done := true, inputs := [.memWrite 0 1] : State }.overWell = false ∧
    { start with done := true, phase := .halt : State }.overWell = false := by
  decide

/-- RunIsOverWhenTheHostHasNoFurtherAction: a state in HALT, and one that is BUSY. -/
theorem witness_never_over_well :
    { start with phase := .halt : State }.phase = .halt ∧ { start with phase := .marshal : State }.busy = true := by
  decide

/-! ### WholeBlocksRoundTrip

The provider's functions are OPEN constants, so nothing can show that they have the named properties of
40_transform_port.md R124: the witness is for the fixture provider `ID` of 95_test_vectors.md section 0. -/

/-- One block to encrypt. -/
def plain : State :=
  { start with
    len := 16, mem := Memory.writeBytes (bytesAt 0x100 bytesV2) 0x300 ivA, inputs := [command .cbcEnc] }

/-- The state before the BLOCK step of `plain`'s command. -/
def plainBlock : State :=
  { plain with cmd := 1, cv := pack ivA, phase := .block, nleft := 1, inputs := [] }

/-- The XOR of the block and the IV. -/
def plainX : Quad := (pack bytesV2).xor (pack ivA)

/-- The state after the BLOCK step, under `ID`. -/
def cipherBlock : State :=
  { plainBlock with
    tin := pack bytesV2, inAddr := 0x110, tout := plainX, cv := plainX, outAddr := 0x210, nleft := 0
    phase := .storeIv, mem := plainBlock.mem.writeBytes 0x200 (unpack plainX 16) }

/-- What the command leaves, under `ID`. -/
def cipher : State := cipherBlock.storeIvBody

/-- The decryption of what `plain`'s command left, with the IV bytes placed anew at 0x400. -/
def back : State :=
  { start with
    len := 16, ctx := 0x2000, inAddr := 0x200, outAddr := 0x500, ivAddr := 0x400
    mem := cipher.mem.writeBytes 0x400 ivA, inputs := [command .cbcDec] }

theorem plain_runs_to_cipher (hE : ∀ P h x, Config.xfEnc P h x = (x, [])) :
    plain.runsTo (1 + cbcSteps plain.len) cipher := by
  have h1 : plain.runsTo 2 plainBlock := by
    refine runsTo_succ.2 ⟨_, rfl, runsTo_succ.2 ⟨_, rfl, (runsTo_zero _ _).2 ?_⟩⟩
    decide
  have h2 : step plainBlock = .next cipherBlock := by
    show plainBlock.blockStep (plainBlock.encPass 16) = _
    rw [encPass_of rfl (hE _ _ _)]
    show Host.Outcome.next _ = _
    congr 1
  have h3 : step cipherBlock = .next cipher := rfl
  have hk : 1 + cbcSteps plain.len = 2 + (1 + 1) := by decide
  rw [hk]
  exact runsTo_add h1 (runsTo_succ.2 ⟨_, h2, runsTo_succ.2 ⟨_, h3, (runsTo_zero _ _).2 rfl⟩⟩)

theorem witness_round_trip (hE : ∀ P h x, Config.xfEnc P h x = (x, []))
    (hD : ∀ P h x, Config.xfDec P h x = (x, [])) :
    plain.readyForCbc .enc ∧ plain.len % 16 = 0 ∧ plain.ivApartFrom plain.outAddr plain.len ∧
    plain.runsTo (1 + cbcSteps plain.len) cipher ∧ back.readyForCbc .dec ∧ back.len = plain.len ∧
    back.ivApartFrom back.outAddr back.len ∧ back.contexts = cipher.contexts ∧
    back.mem.readBytes back.inAddr back.len = cipher.mem.readBytes plain.outAddr plain.len ∧
    back.mem.readBytes back.ivAddr 16 = plain.mem.readBytes plain.ivAddr 16 ∧
    XfLocal .dec back.ctx ∧ XfReadonly .enc plain.ctx ∧ XfReadonly .dec back.ctx ∧
    XfInverse plain.contexts plain.ctx back.ctx :=
  ⟨⟨rfl, rfl, by decide, by unfold State.valuesFit; decide, ⟨by decide, by decide, by decide, by decide⟩, rfl, .inr (by decide), rfl⟩, by decide,
    .inr (by decide), plain_runs_to_cipher hE,
    ⟨rfl, rfl, by decide, by unfold State.valuesFit; decide, ⟨by decide, by decide, by decide, by decide⟩, rfl, .inr (by decide), rfl⟩, rfl,
    .inl (by decide), by decide, by decide, by decide, fun P Q x _ => by simp [xf, hD], fun P x y => by simp [xf, hE],
    fun P x y => by simp [xf, hD], fun x => by simp [xf, hE, hD]⟩

end Sys2Proof.Tests
end

/-! PROOF. Every step keeps the invariant: each of its clauses is kept by every effect of a command, and the whole by
every effect of the machine's turn. -/

namespace Sys2Proof.Machine

/-! ### The invariant, phase by phase -/

theorem phaseInv_of_not_busy {s : State} (h : s.busy = false) : s.phaseInv := by
  unfold State.busy at h
  unfold State.phaseInv
  cases hp : s.phase with
  | idle => trivial
  | halt => trivial
  | _ => simp [hp, Phase.busy] at h

theorem phaseInv_loadIv {s : State} (h : s.phase = .loadIv) :
    s.phaseInv ↔ s.runsCbc ∧ inRange s.addrWidth s.ivAddr 16 = true ∧ s.fits := by
  simp only [State.phaseInv, h]

theorem phaseInv_block {s : State} (h : s.phase = .block) :
    s.phaseInv ↔ s.runsCbc ∧ inRange s.addrWidth s.ivAddr 16 = true ∧ s.fits ∧ s.nleft ≠ 0 := by
  simp only [State.phaseInv, h]

theorem phaseInv_partialBlock {s : State} (h : s.phase = .partialBlock) :
    s.phaseInv ↔ s.runsCbc ∧ inRange s.addrWidth s.ivAddr 16 = true ∧ s.fits ∧ s.nleft = 0 ∧ s.rlen ≠ 0 := by
  simp only [State.phaseInv, h]

theorem phaseInv_storeIv {s : State} (h : s.phase = .storeIv) :
    s.phaseInv ↔ s.runsCbc ∧ inRange s.addrWidth s.ivAddr 16 = true ∧ s.nleft = 0 := by
  simp only [State.phaseInv, h]

theorem phaseInv_marshal {s : State} (h : s.phase = .marshal) : s.phaseInv ↔ s.runsMarshal := by
  simp only [State.phaseInv, h]

/-- Whichever phase `next(NLEFT, RLEN)` is, what is left of a CBC command fits it (42_sequencer.md R169). -/
theorem phaseInv_nextPhase {s : State} (h : s.phase = nextPhase s.nleft s.rlen) (hc : s.runsCbc)
    (hiv : inRange s.addrWidth s.ivAddr 16 = true) (hf : s.fits) : s.phaseInv := by
  unfold nextPhase at h
  split_ifs at h with hn hr
  · exact (phaseInv_block h).2 ⟨hc, hiv, hf, hn⟩
  · exact (phaseInv_partialBlock h).2 ⟨hc, hiv, hf, not_not.1 hn, hr⟩
  · exact (phaseInv_storeIv h).2 ⟨hc, hiv, not_not.1 hn⟩

/-- A block that is not BUSY meets the invariant as soon as the clauses that hold in every phase do. -/
theorem inv_of_not_busy {s : State} (h : s.busy = false) (hm : s.mem.wf s.addrWidth = true) (hv : s.valuesFit)
    (hf : s.done = true → s.err = none) (hc : s.cmd = 0 ∨ ∃ i, decode s.cmd = .command i) : s.Inv :=
  ⟨hm, hv, hf, fun hb => absurd hb (by simp [h]), hc, phaseInv_of_not_busy h⟩

/-! ### An engine's pass and the accepted command -/

/-- A pass stores `c` bytes at the output cursor. -/
theorem cbcPass_mem (s : State) (d : Dir) (c : Nat) :
    ∃ q, (s.cbcPass d c).mem = s.mem.writeBytes s.outAddr (unpack q c) := by
  cases d <;> exact ⟨_, rfl⟩

/-- A store of the first `c` bytes of a quad keeps the canonical form where its range lies in the address space. -/
theorem wf_writeBytes_unpack {aw : Nat} {m : Memory} {a c : Nat} (q : Quad) (h : m.wf aw = true)
    (hw : inRange aw a c = true) : (m.writeBytes a (unpack q c)).wf aw = true :=
  Memory.wf_writeBytes h _ (by rw [length_unpack]; exact inRange_iff.1 hw)

theorem wf_cbcPass {s : State} (d : Dir) {c : Nat} (h : s.mem.wf s.addrWidth = true)
    (hw : inRange s.addrWidth s.outAddr c = true) : (s.cbcPass d c).mem.wf s.addrWidth = true := by
  obtain ⟨q, hq⟩ := cbcPass_mem s d c
  rw [hq]
  exact wf_writeBytes_unpack q h hw

/-- At acceptance all of `LEN` is left, as `NLEFT` blocks and `RLEN` bytes (30_encoding.md R98). -/
theorem fits_accepted {s : State} (hin : inRange s.addrWidth s.inAddr s.len = true)
    (hout : inRange s.addrWidth s.outAddr s.len = true) (hn : s.nleft = blockCount s.len)
    (hr : s.rlen = remainder s.len) : s.fits := by
  have hall : 16 * s.nleft + s.rlen.toNat = s.len := by
    rw [hn, hr, toNat_remainder]
    exact Nat.div_add_mod s.len 16
  unfold State.fits
  rw [hall]
  exact ⟨hr, le_rfl, hin, hout⟩

/-- A BLOCK step takes 16 bytes off what is left, and both cursors pass as many. -/
theorem fits_endBlock {s : State} (d : Dir) (h : s.fits) (hn : s.nleft ≠ 0) : (s.cbcPass d 16).endBlock.fits := by
  obtain ⟨hr, hle, hin, hout⟩ := h
  have hall : 16 * s.nleft + s.rlen.toNat = 16 + (16 * (s.nleft - 1) + s.rlen.toNat) := by omega
  rw [hall] at hin hout
  have hle' : 16 * (s.nleft - 1) + s.rlen.toNat ≤ s.len := by omega
  cases d <;> exact ⟨hr, hle', inRange_advance hin, inRange_advance hout⟩

theorem runsCbc_accepted {s : State} {d : Dir} (h : s.cmd = encode (cbcCommand d)) : s.runsCbc := by
  unfold State.runsCbc
  rw [h]
  cases d
  · exact .inl (decode_encode rfl)
  · exact .inr (decode_encode rfl)

/-- A marshaller command whose checks pass is well-formed. -/
theorem wf_of_marshalReady {s : State} {i : Instr} (h : s.marshalReady i) : i.wf = true := by
  cases i with
  | packB => rfl
  | unpackB => rfl
  | packP cnt => exact h.1
  | unpackP cnt => exact h.1
  | cbcEnc => exact h.elim
  | cbcDec => exact h.elim

theorem runsMarshal_accepted {s : State} {i : Instr} (h : s.marshalReady i) (hc : s.cmd = encode i) :
    s.runsMarshal := by
  have hd : decode s.cmd = .command i := hc ▸ decode_encode (wf_of_marshalReady h)
  cases i with
  | packB => exact .inl ⟨hd, h⟩
  | packP cnt => exact .inr (.inl ⟨cnt, hd, h.2⟩)
  | unpackB => exact .inr (.inr (.inl ⟨hd, h⟩))
  | unpackP cnt => exact .inr (.inr (.inr ⟨cnt, hd, h.2⟩))
  | cbcEnc => exact h.elim
  | cbcDec => exact h.elim

/-! ### What every effect of a command keeps, clause by clause -/

section Effects

variable {i : Instr} {s t : State}

theorem wf_of_effect (h : ExecEffect i s t) (hm : s.mem.wf s.addrWidth = true) : t.mem.wf s.addrWidth = true := by
  cases h with
  | block _ d _ _ _ hw => exact wf_cbcPass d hm hw
  | partialBlock _ d _ _ _ hw => exact wf_cbcPass d hm hw
  | storedIv _ d _ hw => exact wf_writeBytes_unpack _ hm hw
  | unpacked _ c _ hw => exact wf_writeBytes_unpack _ hm hw
  | _ => exact hm

/-- ERR is set by a rejection only, which clears DONE; an acceptance clears both; the later steps of a command, which
find both clear, set DONE at completion only (10_state.md R42). -/
theorem flags_of_effect (h : ExecEffect i s t) (hd : s.done = true → s.err = none)
    (hb : s.busy = true → s.done = false ∧ s.err = none) :
    (t.done = true → t.err = none) ∧ (t.busy = true → t.done = false ∧ t.err = none) := by
  have clean {p : Phase} (hp : s.phase = p) (hpb : p.busy = true) : s.done = false ∧ s.err = none :=
    hb (by rw [State.busy, hp, hpb])
  cases h with
  | nothing => exact ⟨hd, hb⟩
  | rejected hp => exact ⟨nofun, fun hb' => by simp [State.busy, hp, Phase.busy] at hb'⟩
  | acceptedCbc => exact ⟨fun _ => rfl, fun _ => ⟨rfl, rfl⟩⟩
  | acceptedMarshal => exact ⟨fun _ => rfl, fun _ => ⟨rfl, rfl⟩⟩
  | loadedIv hp => exact ⟨hd, fun _ => clean hp rfl⟩
  | block hp d => cases d <;> exact ⟨hd, fun _ => clean hp rfl⟩
  | partialBlock hp d => cases d <;> exact ⟨hd, fun _ => clean hp rfl⟩
  | storedIv hp => exact ⟨fun _ => (clean hp rfl).2, nofun⟩
  | packed hp => exact ⟨fun _ => (clean hp rfl).2, nofun⟩
  | unpacked hp => exact ⟨fun _ => (clean hp rfl).2, nofun⟩

theorem cmd_of_effect (h : ExecEffect i s t) (hc : s.cmd = 0 ∨ ∃ j, decode s.cmd = .command j) :
    t.cmd = 0 ∨ ∃ j, decode t.cmd = .command j := by
  cases h with
  | acceptedCbc _ d hi => subst hi; exact .inr ⟨cbcCommand d, decode_encode (by cases d <;> rfl)⟩
  | acceptedMarshal _ hr => exact .inr ⟨i, decode_encode (wf_of_marshalReady hr)⟩
  | block _ d => cases d <;> exact hc
  | partialBlock _ d => cases d <;> exact hc
  | _ => exact hc

/-- Every row of R172 leads to a phase whose clause holds (42_sequencer.md R164, R169, R172). -/
theorem phaseInv_of_effect (h : ExecEffect i s t) (hp : s.phaseInv) : t.phaseInv := by
  cases h with
  | nothing => exact hp
  | rejected h => exact phaseInv_of_not_busy (by simp [State.busy, h, Phase.busy])
  | acceptedCbc _ d hi hc =>
    obtain ⟨hin, hout, hiv, -⟩ := hc
    exact (phaseInv_loadIv rfl).2
      ⟨runsCbc_accepted (d := d) (congrArg encode hi), hiv, fits_accepted hin hout rfl rfl⟩
  | acceptedMarshal _ hr => exact (phaseInv_marshal rfl).2 (runsMarshal_accepted (i := i) hr rfl)
  | loadedIv h =>
    obtain ⟨hc, hiv, hf⟩ := (phaseInv_loadIv h).1 hp
    exact phaseInv_nextPhase rfl hc hiv hf
  | block h d _ hn =>
    obtain ⟨hc, hiv, hf, -⟩ := (phaseInv_block h).1 hp
    have hf' := fits_endBlock d hf hn
    cases d <;> exact phaseInv_nextPhase rfl hc hiv hf'
  | partialBlock h d =>
    obtain ⟨hc, hiv, -, hn, -⟩ := (phaseInv_partialBlock h).1 hp
    cases d <;> exact (phaseInv_storeIv rfl).2 ⟨hc, hiv, hn⟩
  | storedIv => exact phaseInv_of_not_busy rfl
  | packed => exact phaseInv_of_not_busy rfl
  | unpacked => exact phaseInv_of_not_busy rfl

theorem inv_of_effect (h : ExecEffect i s t) (hs : s.Inv) : t.Inv ∧ t.addrWidth = s.addrWidth := by
  obtain ⟨hm, hv, hd, hb, hc, hp⟩ := hs
  obtain ⟨hv', hw⟩ := valuesFit_of_effect h hv
  obtain ⟨hd', hb'⟩ := flags_of_effect h hd hb
  exact ⟨⟨hw ▸ wf_of_effect h hm, hv', hd', hb', cmd_of_effect h hc, phaseInv_of_effect h hp⟩, hw⟩

end Effects

/-! ### What a write to a register other than `CMD` keeps -/

theorem writeReg_addrWidth (s : State) (r : Reg) (v : Nat) : (s.writeReg r v).addrWidth = s.addrWidth := by
  cases r <;> rfl

/-- An address, `LEN` or `CTX` is stored reduced to its AW bits; no other write changes a value of AW bits. -/
theorem valuesFit_writeReg {s : State} (r : Reg) (v : Nat) (h : s.valuesFit) : (s.writeReg r v).valuesFit := by
  obtain ⟨hin, hout, hiv, hlen, hctx, hn, hP⟩ := id h
  cases r with
  | inAddr => exact ⟨fit_lt _ _, hout, hiv, hlen, hctx, hn, hP⟩
  | outAddr => exact ⟨hin, fit_lt _ _, hiv, hlen, hctx, hn, hP⟩
  | ivAddr => exact ⟨hin, hout, fit_lt _ _, hlen, hctx, hn, hP⟩
  | len => exact ⟨hin, hout, hiv, fit_lt _ _, hctx, hn, hP⟩
  | ctx => exact ⟨hin, hout, hiv, hlen, fit_lt _ _, hn, hP⟩
  | _ => exact h

/-- A write to `STATUS` only clears flags; no other write changes one. -/
theorem flags_writeReg {s : State} (r : Reg) (v : Nat) (h : s.done = true → s.err = none) :
    (s.writeReg r v).done = true → (s.writeReg r v).err = none := by
  cases r with
  | status =>
    intro hd
    have hdone : s.done = true := (Bool.and_eq_true_iff.1 hd).1
    simp [State.writeReg, h hdone]
  | _ => exact h

theorem inv_writeReg {s : State} (r : Reg) (v : Nat) (hp : s.phase = .idle) (hs : s.Inv) : (s.writeReg r v).Inv := by
  obtain ⟨hm, hv, hd, -, hc, -⟩ := hs
  have hb : s.busy = false := by rw [State.busy, hp]; rfl
  exact inv_of_not_busy (by cases r <;> exact hb) (by cases r <;> exact hm) (valuesFit_writeReg r v hv)
    (flags_writeReg r v hd) (by cases r <;> exact hc)

/-! ### Every event keeps the invariant -/

/-- The invariant reads neither the list of events nor the host's read port nor `fatal_in`. -/
theorem inv_outside {s : State} (rest : List Input) (v : Nat) (b : Bool) :
    { s with inputs := rest, rdData := v, fatalIn := b }.Inv ↔ s.Inv :=
  Iff.rfl

theorem inv_enterHalt {s : State} (hs : s.Inv) : s.enterHalt.Inv := by
  obtain ⟨hm, hv, hd, -, hc, -⟩ := hs
  exact inv_of_not_busy rfl hm hv hd hc

theorem inv_reject {s : State} (code : ErrCode) (w : Word) (hp : s.phase = .idle) (hs : s.Inv) :
    (s.reject code w).Inv := by
  obtain ⟨hm, hv, -, -, hc, -⟩ := hs
  exact inv_of_not_busy (by rw [State.busy, State.reject_phase, hp]; rfl) hm hv nofun hc

theorem inv_resetEvent {s : State} (hs : s.Inv) : s.resetEvent.Inv := by
  obtain ⟨hm, ⟨-, -, -, -, -, -, hP⟩, -⟩ := hs
  have h0 : 0 < 2 ^ s.addrWidth := Nat.two_pow_pos _
  exact inv_of_not_busy rfl hm ⟨h0, h0, h0, h0, h0, fit_lt _ _, hP⟩ nofun (.inl rfl)

theorem inv_of_turnEffect {s t : State} (h : TurnEffect s t) (hs : s.Inv) : t.Inv ∧ t.addrWidth = s.addrWidth := by
  cases h with
  | silent rest v => exact ⟨(inv_outside rest v s.fatalIn).2 hs, rfl⟩
  | haltedStep rest v => exact ⟨(inv_outside rest v s.fatalIn).2 (inv_enterHalt hs), rfl⟩
  | haltedWrite rest => exact ⟨(inv_outside rest s.rdData s.fatalIn).2 (inv_enterHalt hs), rfl⟩
  | badWord rest v code hp => exact ⟨inv_reject code _ hp hs, rfl⟩
  | wrote rest v i t _ _ _ _ ht =>
    exact inv_of_effect (s := { s with inputs := rest }) ht ((inv_outside rest s.rdData s.fatalIn).2 hs)
  | stepped rest v i t _ _ _ _ ht =>
    exact inv_of_effect (s := { s with inputs := rest, rdData := v }) ht ((inv_outside rest v s.fatalIn).2 hs)
  | register rest r v hp => exact ⟨inv_writeReg r v hp hs, writeReg_addrWidth _ r v⟩
  | reset => exact ⟨inv_resetEvent hs, rfl⟩
  | fatal rest b => exact ⟨(inv_outside rest s.rdData b).2 hs, rfl⟩
  | provider rest P hP =>
    obtain ⟨hm, ⟨hin, hout, hiv, hlen, hctx, hn, hQ⟩, hrest⟩ := hs
    exact ⟨⟨hm, ⟨hin, hout, hiv, hlen, hctx, hn, fun c hc => (hP c hc).elim (hQ c) id⟩, hrest⟩, rfl⟩
  | stored rest a b =>
    obtain ⟨hm, hrest⟩ := hs
    exact ⟨⟨Memory.wf_write hm b (fit_lt _ a), hrest⟩, rfl⟩

/-- Settles O47: every next state of a turn is one of its effects, and each effect keeps the invariant and AW. -/
theorem everyStepKeepsTheInvariant : Obligations.EveryStepKeepsTheInvariant := by
  unfold Obligations.EveryStepKeepsTheInvariant
  intro s t hs h
  exact inv_of_turnEffect (turn_effect h) hs

/-- `CBC.ENC` before its last full block, with five bytes to follow. -/
def lastBlockLeft : State := { State.reset with cmd := 1, len := 37, phase := .block, nleft := 1, rlen := 5 }

/-- A state that meets the invariant and takes a step: a BLOCK step, to PARTIAL. -/
theorem witness_everyStepKeepsTheInvariant :
    ∃ t, step lastBlockLeft = .next t ∧ t.phase = .partialBlock ∧ t.Inv ∧ t.addrWidth = lastBlockLeft.addrWidth := by
  have hv : lastBlockLeft.valuesFit := by unfold State.valuesFit; decide
  have hfits : lastBlockLeft.fits := ⟨by decide, by decide, by decide, by decide⟩
  have hs : lastBlockLeft.Inv := ⟨by decide, hv, by decide, by decide, .inr ⟨.cbcEnc, by decide⟩,
    (phaseInv_block rfl).2 ⟨.inl (by decide), by decide, hfits, by decide⟩⟩
  exact ⟨_, rfl, rfl, everyStepKeepsTheInvariant _ _ hs rfl⟩

end Sys2Proof.Machine

/-! PROOF. No outcome depends on a hidden register the command has not written: agreement of two states is kept by
every update that leaves the hidden registers alone, hence by every event, and by every step of a command. -/

namespace Sys2Proof.Machine

/-! ### The action of a command in each phase -/

theorem exec_halt (i : Instr) {s : State} (h : s.phase = .halt) : exec i s = .next s := by
  cases i <;> simp only [exec, execCbcEnc, execCbcDec, execPackB, execPackP, execUnpackB, execUnpackP, h]

theorem exec_cbc_marshal (d : Dir) {s : State} (h : s.phase = .marshal) :
    exec (cbcCommand d) s = .fault .noEnabledStep := by
  cases d <;> simp only [cbcCommand, exec, execCbcEnc, execCbcDec, h]

theorem exec_cbc_block_none (d : Dir) {s : State} (h : s.phase = .block) (hn : s.nleft = 0) :
    exec (cbcCommand d) s = .fault .noEnabledStep := by
  cases d <;> simp only [cbcCommand, exec, execCbcEnc, execCbcDec, h, State.blockStep, if_pos hn]

theorem exec_cbc_partial_none (d : Dir) {s : State} (h : s.phase = .partialBlock) (hr : s.rlen = 0) :
    exec (cbcCommand d) s = .fault .noEnabledStep := by
  cases d <;> simp only [cbcCommand, exec, execCbcEnc, execCbcDec, h, State.partialStep, if_pos hr]

/-- The range check of a marshaller command is on the cursor it advances, its count check that of its word. -/
theorem exec_packs_idle {i : Instr} {c : Nat} (hi : packs i = some c) {s : State} (h : s.phase = .idle) :
    exec i s = .next (s.commandMarshal i.wf s.inAddr c (encode i)) := by
  cases i <;> cases hi <;> simp only [exec, execPackB, execPackP, h, Instr.wf]

theorem exec_packs_marshal {i : Instr} {c : Nat} (hi : packs i = some c) {s : State} (h : s.phase = .marshal) :
    exec i s = s.sequencerStep (s.inAddr, c) (s.inAddr, 0) (s.packBody c) := by
  cases i <;> cases hi <;> simp only [exec, execPackB, execPackP, h]

theorem exec_unpacks_idle {i : Instr} {c : Nat} (hi : unpacks i = some c) {s : State} (h : s.phase = .idle) :
    exec i s = .next (s.commandMarshal i.wf s.outAddr c (encode i)) := by
  cases i <;> cases hi <;> simp only [exec, execUnpackB, execUnpackP, h, Instr.wf]

theorem exec_unpacks_marshal {i : Instr} {c : Nat} (hi : unpacks i = some c) {s : State} (h : s.phase = .marshal) :
    exec i s = s.sequencerStep (s.outAddr, 0) (s.outAddr, c) (s.unpackBody c) := by
  cases i <;> cases hi <;> simp only [exec, execUnpackB, execUnpackP, h]

/-- The phases of the CBC engines are none of a marshaller command's (42_sequencer.md R172). -/
theorem exec_marshaller_fault {i : Instr} (hi : ∀ d, i ≠ cbcCommand d) {s : State} (hb : s.busy = true)
    (hm : s.phase ≠ .marshal) : exec i s = .fault .noEnabledStep := by
  cases i with
  | cbcEnc => exact absurd rfl (hi .enc)
  | cbcDec => exact absurd rfl (hi .dec)
  | _ => cases hp : s.phase <;> simp_all [exec, execPackB, execPackP, execUnpackB, execUnpackP, State.busy, Phase.busy]

/-- A command is a CBC command, packs or unpacks. -/
theorem command_kinds (i : Instr) :
    (∃ d, i = cbcCommand d) ∨ (∃ c, packs i = some c) ∨ ∃ c, unpacks i = some c := by
  cases i with
  | cbcEnc => exact .inl ⟨.enc, rfl⟩
  | cbcDec => exact .inl ⟨.dec, rfl⟩
  | packB => exact .inr (.inl ⟨_, rfl⟩)
  | packP cnt => exact .inr (.inl ⟨_, rfl⟩)
  | unpackB => exact .inr (.inr ⟨_, rfl⟩)
  | unpackP cnt => exact .inr (.inr ⟨_, rfl⟩)

/-! ### Updates that leave the hidden registers alone -/

/-- `s` with other values in the hidden registers that R38 is about. -/
def State.withHidden (s : State) (cv tin tout : Quad) (nleft : Nat) (rlen : BitVec 4) : State :=
  { s with cv := cv, tin := tin, tout := tout, nleft := nleft, rlen := rlen }

/-- `f` neither reads nor writes a hidden register: it does the same whatever they hold, and they keep it. -/
def KeepsHidden (f : State → State) : Prop :=
  ∀ s cv tin tout nleft rlen, f (s.withHidden cv tin tout nleft rlen) = (f s).withHidden cv tin tout nleft rlen

theorem agreesWith_iff {s u : State} : s.agreesWith u ↔ ∃ cv tin tout nleft rlen,
    u = s.withHidden cv tin tout nleft rlen ∧
    (s.phase = .block ∨ s.phase = .partialBlock ∨ s.phase = .storeIv → cv = s.cv) ∧
    (s.phase = .loadIv ∨ s.phase = .block ∨ s.phase = .partialBlock → nleft = s.nleft ∧ rlen = s.rlen) := by
  constructor
  · rintro ⟨hu, hcv, hn⟩
    exact ⟨u.cv, u.tin, u.tout, u.nleft, u.rlen, hu, hcv, hn⟩
  · rintro ⟨cv, tin, tout, nleft, rlen, rfl, hcv, hn⟩
    exact ⟨rfl, hcv, hn⟩

/-- Outside the phases of the CBC engines no hidden register is read, so agreement says nothing of them. -/
theorem agreesWith_withHidden {s : State} (hp : s.phase = .idle ∨ s.phase = .marshal ∨ s.phase = .halt)
    (cv tin tout : Quad) (nleft : Nat) (rlen : BitVec 4) : s.agreesWith (s.withHidden cv tin tout nleft rlen) := by
  refine ⟨rfl, fun h => ?_, fun h => ?_⟩ <;> rcases hp with hp | hp | hp <;> simp [hp] at h

theorem agreesWith_refl (s : State) : s.agreesWith s := ⟨rfl, fun _ => rfl, fun _ => ⟨rfl, rfl⟩⟩

/-- An update that leaves the hidden registers alone keeps agreement, where it keeps `PHASE` or leads to a phase that
reads none of them. -/
theorem agreesWith_update {s u : State} (h : s.agreesWith u) {f : State → State} (hf : KeepsHidden f)
    (hp : (f s).phase = s.phase ∨ (f s).phase = .idle ∨ (f s).phase = .marshal ∨ (f s).phase = .halt) :
    (f s).agreesWith (f u) := by
  obtain ⟨cv, tin, tout, nleft, rlen, rfl, hcv, hn⟩ := agreesWith_iff.1 h
  rw [hf]
  rcases hp with hp | hp
  · have hfs : f s = (f s).withHidden s.cv s.tin s.tout s.nleft s.rlen := hf s s.cv s.tin s.tout s.nleft s.rlen
    refine ⟨rfl, fun h => ?_, fun h => ?_⟩
    · rw [hfs]; exact hcv (hp ▸ h)
    · rw [hfs]; exact hn (hp ▸ h)
  · exact agreesWith_withHidden hp cv tin tout nleft rlen

theorem readReg_withHidden (s : State) (cv tin tout : Quad) (nleft : Nat) (rlen : BitVec 4) (r : Reg) :
    (s.withHidden cv tin tout nleft rlen).readReg r = s.readReg r := by
  cases r <;> rfl

theorem readOffset_withHidden (s : State) (cv tin tout : Quad) (nleft : Nat) (rlen : BitVec 4) (offset : Nat) :
    (s.withHidden cv tin tout nleft rlen).readOffset offset = s.readOffset offset := by
  unfold State.readOffset
  split
  · exact readReg_withHidden s cv tin tout nleft rlen _
  · rfl

theorem keepsHidden_hostRead (offset : Nat) : KeepsHidden (hostRead offset) := by
  intro s cv tin tout nleft rlen
  rw [hostRead, readOffset_withHidden]
  rfl

theorem keepsHidden_writeReg (r : Reg) (v : Nat) : KeepsHidden (State.writeReg · r v) := by
  intro s cv tin tout nleft rlen
  cases r <;> rfl

theorem phase_writeReg (s : State) (r : Reg) (v : Nat) : (s.writeReg r v).phase = s.phase := by
  cases r <;> rfl

theorem keepsHidden_initContext (d : Dir) (h : Nat) (bytes : List Byte) :
    KeepsHidden (State.initContext · d h bytes) := by
  intro s cv tin tout nleft rlen
  unfold State.initContext
  beta_reduce
  split_ifs <;> rfl

theorem phase_initContext (s : State) (d : Dir) (h : Nat) (bytes : List Byte) :
    (s.initContext d h bytes).phase = s.phase := by
  unfold State.initContext
  split_ifs <;> rfl

theorem keepsHidden_inputs (rest : List Input) : KeepsHidden fun s => { s with inputs := rest } :=
  fun _ _ _ _ _ _ => rfl

theorem keepsHidden_fatalIn (b : Bool) : KeepsHidden fun s => { s with fatalIn := b } := fun _ _ _ _ _ _ => rfl

theorem keepsHidden_discardContext (d : Dir) (h : Nat) :
    KeepsHidden fun s => { s with contexts := dropContext s.contexts d (fit s.addrWidth h) } :=
  fun _ _ _ _ _ _ => rfl

theorem keepsHidden_enterHalt : KeepsHidden State.enterHalt := fun _ _ _ _ _ _ => rfl

theorem keepsHidden_reject (code : ErrCode) (w : Word) : KeepsHidden (State.reject · code w) := fun _ _ _ _ _ _ => rfl

theorem keepsHidden_packBody (c : Nat) : KeepsHidden (State.packBody · c) := fun _ _ _ _ _ _ => rfl

theorem keepsHidden_unpackBody (c : Nat) : KeepsHidden (State.unpackBody · c) := fun _ _ _ _ _ _ => rfl

theorem keepsHidden_storeByte (a : Nat) (b : Byte) : KeepsHidden (State.storeByte · a b) := fun _ _ _ _ _ _ => rfl

/-! ### What the checks and a step read -/

section WithHidden

variable (s : State) (cv tin tout : Quad) (nleft : Nat) (rlen : BitVec 4)

/-- The ranges of a step and their admission depend on no hidden register. -/
theorem sequencerStep_withHidden (rd wr : Nat × Nat) (after : State) :
    (s.withHidden cv tin tout nleft rlen).sequencerStep rd wr after =
      if inRange s.addrWidth rd.1 rd.2 && inRange s.addrWidth wr.1 wr.2 then
        if s.admitsAll .read rd.1 rd.2 && s.admitsAll .write wr.1 wr.2 then .next after
        else .next (s.withHidden cv tin tout nleft rlen)
      else .fault .pastTop := rfl

/-- The checks of a CBC command read no hidden register; its acceptance writes `NLEFT` and `RLEN`, whatever they held
(42_sequencer.md R164). -/
theorem commandCbc_withHidden (d : Dir) (w : Word) :
    (s.withHidden cv tin tout nleft rlen).commandCbc d w =
      if !(inRange s.addrWidth s.inAddr s.len && inRange s.addrWidth s.outAddr s.len &&
          inRange s.addrWidth s.ivAddr 16) then
        (s.reject .addrRange w).withHidden cv tin tout nleft rlen
      else if !xfValid s.contexts d s.ctx then (s.reject .badCtx w).withHidden cv tin tout nleft rlen
      else (s.accept w .loadIv).withHidden cv tin tout (blockCount s.len) (remainder s.len) := rfl

end WithHidden

/-- The checks of a marshaller command read no hidden register, and its acceptance writes none. -/
theorem keepsHidden_commandMarshal (legal : Bool) (a c : Nat) (w : Word) :
    KeepsHidden fun s => s.commandMarshal legal a c w := by
  intro s cv tin tout nleft rlen
  unfold State.commandMarshal
  beta_reduce
  rw [show (s.withHidden cv tin tout nleft rlen).addrWidth = s.addrWidth from rfl]
  split_ifs <;> rfl

theorem phase_commandMarshal {s : State} (hp : s.phase = .idle) (legal : Bool) (a c : Nat) (w : Word) :
    (s.commandMarshal legal a c w).phase = .idle ∨ (s.commandMarshal legal a c w).phase = .marshal := by
  rcases commandMarshal_cases s legal a c w with ⟨code, he⟩ | ⟨-, -, he⟩ <;> rw [he]
  · exact .inl hp
  · exact .inr rfl

/-! ### Outcomes that agree -/

/-- If the first outcome is a next state, the second is one that agrees with it. -/
def OutcomesAgree (o p : Host.Outcome State Fault Refusal) : Prop :=
  ∀ t, o = .next t → ∃ v, p = .next v ∧ t.agreesWith v

theorem outcomesAgree_next {s u : State} (h : s.agreesWith u) : OutcomesAgree (.next s) (.next u) := by
  rintro t ⟨⟩
  exact ⟨u, rfl, h⟩

theorem outcomesAgree_fault (r : Fault) (p : Host.Outcome State Fault Refusal) : OutcomesAgree (.fault r) p := nofun

section Agreeing

variable {s u : State} (h : s.agreesWith u)
include h

theorem phase_of_agrees : u.phase = s.phase := by
  obtain ⟨_, _, _, _, _, rfl, -⟩ := agreesWith_iff.1 h
  rfl

theorem fatalIn_of_agrees : u.fatalIn = s.fatalIn := by
  obtain ⟨_, _, _, _, _, rfl, -⟩ := agreesWith_iff.1 h
  rfl

theorem inputs_of_agrees : u.inputs = s.inputs := by
  obtain ⟨_, _, _, _, _, rfl, -⟩ := agreesWith_iff.1 h
  rfl

theorem readReg_of_agrees (r : Reg) : u.readReg r = s.readReg r := by
  obtain ⟨cv, tin, tout, nleft, rlen, rfl, -⟩ := agreesWith_iff.1 h
  exact readReg_withHidden s cv tin tout nleft rlen r

theorem cmd_of_agrees : u.cmd = s.cmd := by
  obtain ⟨_, _, _, _, _, rfl, -⟩ := agreesWith_iff.1 h
  rfl

/-- Both blocks take the step, or both are stuck. -/
theorem sequencerStep_agrees (rd wr : Nat × Nat) {after after' : State} (ha : after.agreesWith after') :
    OutcomesAgree (s.sequencerStep rd wr after) (u.sequencerStep rd wr after') := by
  have h' := h
  obtain ⟨_, _, _, _, _, rfl, -⟩ := agreesWith_iff.1 h
  rw [sequencerStep_withHidden, State.sequencerStep]
  split_ifs
  · exact outcomesAgree_next ha
  · exact outcomesAgree_next h'
  · exact outcomesAgree_fault _ _

theorem commandCbc_agrees (d : Dir) (w : Word) (hp : s.phase = .idle) :
    (s.commandCbc d w).agreesWith (u.commandCbc d w) := by
  obtain ⟨cv, tin, tout, nleft, rlen, rfl, -⟩ := agreesWith_iff.1 h
  rw [commandCbc_withHidden, State.commandCbc]
  split_ifs
  · exact agreesWith_withHidden (s := s.reject _ w) (.inl hp) cv tin tout nleft rlen
  · exact agreesWith_withHidden (s := s.reject _ w) (.inl hp) cv tin tout nleft rlen
  · exact ⟨rfl, nofun, fun _ => ⟨rfl, rfl⟩⟩

/-- LOAD_IV writes `CV` and reads `NLEFT` and `RLEN` (42_sequencer.md R168). -/
theorem loadIvBody_agrees (hp : s.phase = .loadIv) : s.loadIvBody.agreesWith u.loadIvBody := by
  obtain ⟨cv, tin, tout, nleft, rlen, rfl, -, hn⟩ := agreesWith_iff.1 h
  obtain ⟨rfl, rfl⟩ := hn (.inl hp)
  exact ⟨rfl, fun _ => rfl, fun _ => ⟨rfl, rfl⟩⟩

/-- A pass writes `TIN` and `TOUT` before anything reads them, so the two blocks are then the same. -/
theorem cbcPass_eq (d : Dir) (c : Nat) (hp : s.phase = .block ∨ s.phase = .partialBlock) :
    u.cbcPass d c = s.cbcPass d c := by
  obtain ⟨cv, tin, tout, nleft, rlen, rfl, hcv, hn⟩ := agreesWith_iff.1 h
  obtain ⟨rfl, rfl⟩ := hn (.inr hp)
  obtain rfl := hcv (hp.imp_right .inl)
  cases d <;> rfl

/-- STORE_IV reads `CV` and completes (42_sequencer.md R170). -/
theorem storeIvBody_agrees (hp : s.phase = .storeIv) : s.storeIvBody.agreesWith u.storeIvBody := by
  obtain ⟨cv, tin, tout, nleft, rlen, rfl, hcv, -⟩ := agreesWith_iff.1 h
  obtain rfl := hcv (.inr (.inr hp))
  exact agreesWith_withHidden (s := s.storeIvBody) (.inl rfl) s.cv tin tout nleft rlen

theorem exec_cbc_agrees (d : Dir) : OutcomesAgree (exec (cbcCommand d) s) (exec (cbcCommand d) u) := by
  have h' := h
  obtain ⟨cv, tin, tout, nleft, rlen, hu, -, hn⟩ := agreesWith_iff.1 h'
  have hpu : u.phase = s.phase := phase_of_agrees h
  cases hp : s.phase with
  | idle =>
    rw [exec_cbc_idle d hp, exec_cbc_idle d (hpu.trans hp)]
    exact outcomesAgree_next (commandCbc_agrees h d _ hp)
  | loadIv =>
    rw [exec_cbc_loadIv d hp, exec_cbc_loadIv d (hpu.trans hp),
      show u.ivAddr = s.ivAddr from readReg_of_agrees h .ivAddr]
    exact sequencerStep_agrees h _ _ (loadIvBody_agrees h hp)
  | block =>
    obtain ⟨rfl, rfl⟩ := hn (.inr (.inl hp))
    subst hu
    by_cases hz : s.nleft = 0
    · rw [exec_cbc_block_none d hp hz]
      exact outcomesAgree_fault _ _
    · rw [exec_cbc_block d hp hz, exec_cbc_block d (hpu.trans hp) hz, cbcPass_eq h d 16 (.inl hp)]
      exact sequencerStep_agrees h _ _ (agreesWith_refl _)
  | partialBlock =>
    obtain ⟨rfl, rfl⟩ := hn (.inr (.inr hp))
    subst hu
    by_cases hz : s.rlen = 0
    · rw [exec_cbc_partial_none d hp hz]
      exact outcomesAgree_fault _ _
    · rw [exec_cbc_partial d hp hz, exec_cbc_partial d (hpu.trans hp) hz, cbcPass_eq h d _ (.inr hp)]
      exact sequencerStep_agrees h _ _ (agreesWith_refl _)
  | storeIv =>
    rw [exec_cbc_storeIv d hp, exec_cbc_storeIv d (hpu.trans hp),
      show u.ivAddr = s.ivAddr from readReg_of_agrees h .ivAddr]
    exact sequencerStep_agrees h _ _ (storeIvBody_agrees h hp)
  | marshal =>
    rw [exec_cbc_marshal d hp]
    exact outcomesAgree_fault _ _
  | halt =>
    rw [exec_halt _ hp, exec_halt _ (hpu.trans hp)]
    exact outcomesAgree_next h

theorem commandMarshal_agrees (hp : s.phase = .idle) (legal : Bool) (a c : Nat) (w : Word) :
    (s.commandMarshal legal a c w).agreesWith (u.commandMarshal legal a c w) :=
  agreesWith_update h (keepsHidden_commandMarshal legal a c w)
    (.inr ((phase_commandMarshal hp legal a c w).imp_right .inl))

/-- The marshaller's datapath does not pass through the hidden registers (41_marshaller.md R148). -/
theorem exec_marshaller_agrees {i : Instr} (hi : ∀ d, i ≠ cbcCommand d) : OutcomesAgree (exec i s) (exec i u) := by
  have hpu : u.phase = s.phase := phase_of_agrees h
  have hin : u.inAddr = s.inAddr := readReg_of_agrees h .inAddr
  have hout : u.outAddr = s.outAddr := readReg_of_agrees h .outAddr
  cases hp : s.phase with
  | idle =>
    rcases command_kinds i with ⟨d, rfl⟩ | ⟨c, hc⟩ | ⟨c, hc⟩
    · exact absurd rfl (hi d)
    · rw [exec_packs_idle hc hp, exec_packs_idle hc (hpu.trans hp), hin]
      exact outcomesAgree_next (commandMarshal_agrees h hp _ _ _ _)
    · rw [exec_unpacks_idle hc hp, exec_unpacks_idle hc (hpu.trans hp), hout]
      exact outcomesAgree_next (commandMarshal_agrees h hp _ _ _ _)
  | marshal =>
    rcases command_kinds i with ⟨d, rfl⟩ | ⟨c, hc⟩ | ⟨c, hc⟩
    · exact absurd rfl (hi d)
    · rw [exec_packs_marshal hc hp, exec_packs_marshal hc (hpu.trans hp), hin]
      exact sequencerStep_agrees h _ _ (agreesWith_update h (keepsHidden_packBody c) (.inr (.inl rfl)))
    · rw [exec_unpacks_marshal hc hp, exec_unpacks_marshal hc (hpu.trans hp), hout]
      exact sequencerStep_agrees h _ _ (agreesWith_update h (keepsHidden_unpackBody c) (.inr (.inl rfl)))
  | halt =>
    rw [exec_halt _ hp, exec_halt _ (hpu.trans hp)]
    exact outcomesAgree_next h
  | _ =>
    rw [exec_marshaller_fault hi (by rw [State.busy, hp]; rfl) (by simp [hp])]
    exact outcomesAgree_fault _ _

theorem exec_agrees (i : Instr) : OutcomesAgree (exec i s) (exec i u) := by
  by_cases hi : ∃ d, i = cbcCommand d
  · obtain ⟨d, rfl⟩ := hi
    exact exec_cbc_agrees h d
  · exact exec_marshaller_agrees h fun d hd => hi ⟨d, hd⟩

/-! ### The events -/

theorem update_agrees {f : State → State} (hf : KeepsHidden f)
    (hp : (f s).phase = s.phase ∨ (f s).phase = .idle ∨ (f s).phase = .marshal ∨ (f s).phase = .halt) :
    OutcomesAgree (.next (f s)) (.next (f u)) :=
  outcomesAgree_next (agreesWith_update h hf hp)

theorem considerWrite_agrees (w : Word) : OutcomesAgree (considerWrite w s) (considerWrite w u) := by
  unfold considerWrite
  rw [phase_of_agrees h, fatalIn_of_agrees h]
  split_ifs
  · exact outcomesAgree_next h
  · exact update_agrees h keepsHidden_enterHalt (.inr (.inr (.inr rfl)))
  · cases decode w with
    | command i => exact exec_agrees h i
    | reject code => exact update_agrees h (keepsHidden_reject code w) (.inl rfl)

theorem sequencerTurn_agrees : OutcomesAgree (sequencerTurn s) (sequencerTurn u) := by
  unfold sequencerTurn State.busy
  rw [phase_of_agrees h, fatalIn_of_agrees h, cmd_of_agrees h]
  split_ifs
  · exact outcomesAgree_next h
  · exact update_agrees h keepsHidden_enterHalt (.inr (.inr (.inr rfl)))
  · cases decode s.cmd with
    | command i => exact exec_agrees h i
    | reject code => exact outcomesAgree_fault _ _

theorem hostWrite_agrees (offset v : Nat) : OutcomesAgree (hostWrite offset v s) (hostWrite offset v u) := by
  unfold hostWrite
  rw [phase_of_agrees h]
  split
  · exact considerWrite_agrees h _
  · next r _ _ =>
    split_ifs with hp
    · exact update_agrees h (keepsHidden_writeReg r v) (.inl (phase_writeReg s r v))
    · exact outcomesAgree_next h
  · exact outcomesAgree_next h

theorem waitRound_agrees (rest : List Input) : OutcomesAgree (waitRound s rest) (waitRound u rest) := by
  have hr := agreesWith_update h (keepsHidden_hostRead (regOffset .status)) (.inl rfl)
  unfold waitRound State.busy
  rw [phase_of_agrees h]
  split_ifs
  · exact sequencerTurn_agrees (agreesWith_update hr (keepsHidden_inputs _) (.inl rfl))
  · exact update_agrees hr (keepsHidden_inputs rest) (.inl rfl)

/-- The reset leaves the same free values in both (10_state.md R46). -/
theorem resetEvent_eq : u.resetEvent = s.resetEvent := by
  obtain ⟨_, _, _, _, _, rfl, -⟩ := agreesWith_iff.1 h
  rfl

theorem takeInput_agrees (e : Input) (rest : List Input) :
    OutcomesAgree (takeInput e rest s) (takeInput e rest u) := by
  have ht : State.agreesWith { s with inputs := rest } { u with inputs := rest } :=
    agreesWith_update h (keepsHidden_inputs rest) (.inl rfl)
  cases e with
  | hostWrite offset v => exact hostWrite_agrees ht offset v
  | hostRead offset => exact update_agrees ht (keepsHidden_hostRead offset) (.inl rfl)
  | wait => exact waitRound_agrees ht rest
  | sequencer => exact sequencerTurn_agrees ht
  | reset =>
    rw [takeInput, takeInput, resetEvent_eq ht]
    exact outcomesAgree_next (agreesWith_refl _)
  | fatalRise => exact update_agrees ht (keepsHidden_fatalIn true) (.inl rfl)
  | adapterReset => exact update_agrees ht (keepsHidden_fatalIn false) (.inl rfl)
  | initContext d hd bytes =>
    exact update_agrees ht (keepsHidden_initContext d hd bytes) (.inl (phase_initContext _ d hd bytes))
  | discardContext d hd => exact update_agrees ht (keepsHidden_discardContext d hd) (.inl rfl)
  | memWrite a b => exact update_agrees ht (keepsHidden_storeByte a b) (.inl rfl)
  | agentWrite a b => exact update_agrees ht (keepsHidden_storeByte a b) (.inl rfl)

theorem step_agrees : OutcomesAgree (step s) (step u) := by
  unfold step turn
  rw [inputs_of_agrees h]
  cases s.inputs with
  | nil => exact sequencerTurn_agrees h
  | cons e rest => exact takeInput_agrees h e rest

end Agreeing

/-- Settles O43: every event and every step of a command takes agreeing states to agreeing outcomes. -/
theorem hiddenRegistersAreNotObserved : Obligations.HiddenRegistersAreNotObserved := by
  unfold Obligations.HiddenRegistersAreNotObserved
  intro s u t h ht
  exact ⟨readReg_of_agrees h, step_agrees h t ht⟩

/-- `CBC.ENC` before its LOAD_IV step, with one full block and five bytes to follow. -/
def ivToLoad : State := { lastBlockLeft with len := 21, phase := .loadIv }

/-- Two blocks about to load an IV that differ in `CV`, `TIN` and `TOUT`: both take the step, to agreeing states. -/
theorem witness_hiddenRegistersAreNotObserved :
    ∃ t v, step ivToLoad = .next t ∧ t.phase = .block ∧ t.agreesWith v ∧
      step { ivToLoad with cv := ⟨1, 2, 3, 4⟩, tin := ⟨5, 6, 7, 8⟩, tout := ⟨9, 10, 11, 12⟩ } = .next v := by
  obtain ⟨t, ht, hp⟩ : ∃ t, step ivToLoad = .next t ∧ t.phase = .block := ⟨_, rfl, rfl⟩
  obtain ⟨-, v, hv, hag⟩ := hiddenRegistersAreNotObserved ivToLoad
    { ivToLoad with cv := ⟨1, 2, 3, 4⟩, tin := ⟨5, 6, 7, 8⟩, tout := ⟨9, 10, 11, 12⟩ } t
    ⟨rfl, by decide, by decide⟩ ht
  exact ⟨t, v, ht, hp, hag, hv⟩

end Sys2Proof.Machine

/-! PROOF. The register file: the fields of `STATUS`, host reads, and host writes in every phase. -/

namespace Sys2Proof.Machine

/-! ### The fields of `STATUS` -/

/-- From bit 8 up `STATUS` holds the number of the phase (10_state.md R23). -/
theorem getLsbD_status_phase (s : State) {i : Nat} (hi : i < 24) :
    s.status.getLsbD (8 + i) = (phaseCode s.phase).getLsbD i := by
  have he : s.errCode.getLsbD (8 + i - 4) = false := BitVec.getLsbD_of_ge _ _ (by omega)
  have hk : 8 + i < 32 := by omega
  have h3 : 8 + i - 3 ≠ 0 := by omega
  have h2 : 8 + i - 2 ≠ 0 := by omega
  simp [State.status, hk, he, h3, h2]

/-- Bits 7:4 of `STATUS` hold ERRCODE (10_state.md R23). -/
theorem getLsbD_status_errCode (s : State) {i : Nat} (hi : i < 4) : s.status.getLsbD (4 + i) = s.errCode.getLsbD i := by
  have hk : 4 + i < 32 := by omega
  have h8 : 4 + i < 8 := by omega
  have h3 : 4 + i - 3 ≠ 0 := by omega
  have h2 : 4 + i - 2 ≠ 0 := by omega
  simp [State.status, hk, h8, h3, h2]

/-- Bits 3:0 of `STATUS` are FATAL, ERR, DONE and BUSY (10_state.md R23). -/
theorem getLsbD_status_flags (s : State) : s.status.getLsbD 3 = s.fatal ∧ s.status.getLsbD 2 = s.err.isSome ∧
    s.status.getLsbD 1 = s.done ∧ s.status.getLsbD 0 = s.busy := by
  simp [State.status]

theorem busy_iff (s : State) : s.busy = true ↔
    s.phase = .loadIv ∨ s.phase = .block ∨ s.phase = .partialBlock ∨ s.phase = .storeIv ∨ s.phase = .marshal := by
  unfold State.busy
  cases s.phase <;> simp [Phase.busy]

theorem status_errCode (s : State) : s.status.extractLsb' 4 4 = s.errCode :=
  BitVec.eq_of_getLsbD_eq fun i hi => by
    simp only [BitVec.getLsbD_extractLsb', hi, decide_true, Bool.true_and, getLsbD_status_errCode s hi]

theorem status_phase (s : State) : s.status.extractLsb' 8 3 = phaseCode s.phase :=
  BitVec.eq_of_getLsbD_eq fun i hi => by
    simp only [BitVec.getLsbD_extractLsb', hi, decide_true, Bool.true_and, getLsbD_status_phase s (by omega : i < 24)]

theorem status_reserved (s : State) : s.status.extractLsb' 11 21 = 0 :=
  BitVec.eq_of_getLsbD_eq fun i hi => by
    have hp : (phaseCode s.phase).getLsbD (3 + i) = false := BitVec.getLsbD_of_ge _ _ (by omega)
    have hk : 11 + i = 8 + (3 + i) := by omega
    simp only [BitVec.getLsbD_extractLsb', hk, getLsbD_status_phase s (by omega : 3 + i < 24), hp, Bool.and_false,
      BitVec.ofNat_eq_ofNat, BitVec.getLsbD_zero]

/-- Settles O14, field by field. -/
theorem statusFields : Obligations.StatusFields := by
  unfold Obligations.StatusFields
  refine ⟨fun s => ?_, ⟨rfl, rfl, rfl, rfl, rfl, rfl, rfl⟩, rfl, rfl, rfl, rfl, rfl⟩
  obtain ⟨hfatal, herr, hdone, hbusy⟩ := getLsbD_status_flags s
  refine ⟨?_, hdone, ?_, ?_, fun h => ?_, fun c h => ?_, status_phase s, status_reserved s⟩
  · rw [hbusy]
    exact busy_iff s
  · rw [herr]
    exact Option.isSome_iff_exists
  · rw [hfatal]
    exact decide_eq_true_iff
  · rw [status_errCode, State.errCode, h]
  · rw [status_errCode, State.errCode, h]

/-! ### Host reads -/

theorem step_of_event {s : State} {e : Input} {rest : List Input} (h : s.inputs = e :: rest) :
    step s = takeInput e rest s := by
  unfold step turn
  rw [h]

theorem step_of_no_event {s : State} (h : s.inputs = []) : step s = sequencerTurn s := by
  unfold step turn
  rw [h]

theorem regAt_regOffset (r : Reg) : regAt (regOffset r) = some r := by
  cases r <;> rfl

theorem regAt_of_unmapped {offset : Nat} (h : ∀ r, regOffset r ≠ offset) : regAt offset = none :=
  List.find?_eq_none.2 fun r _ => by simpa using h r

theorem readOffset_inputs (s : State) (rest : List Input) (offset : Nat) :
    State.readOffset { s with inputs := rest } offset = s.readOffset offset := by
  unfold State.readOffset
  split
  · next r _ => cases r <;> rfl
  · rfl

theorem step_hostRead {s : State} {offset : Nat} {rest : List Input} (h : s.inputs = .hostRead offset :: rest) :
    step s = .next { s with inputs := rest, rdData := s.readOffset offset } := by
  rw [step_of_event h, ← readOffset_inputs s rest offset]
  rfl

theorem readOffset_regOffset (s : State) (r : Reg) : s.readOffset (regOffset r) = s.readReg r := by
  rw [State.readOffset, regAt_regOffset]

/-- Settles O15: what a read returns is the register's value, whichever register it is. -/
theorem hostReadChangesNothing : Obligations.HostReadChangesNothing := by
  unfold Obligations.HostReadChangesNothing
  intro s r rest h
  refine ⟨s.readReg r, readOffset_regOffset s r ▸ step_hostRead h, ?_⟩
  cases r <;> simp [State.readReg]

/-! ### Host writes -/

theorem step_hostWrite {s : State} {offset v : Nat} {rest : List Input} (h : s.inputs = .hostWrite offset v :: rest) :
    step s = hostWrite offset v { s with inputs := rest } :=
  step_of_event h

/-- Outside IDLE a host write is ignored, whatever its offset (10_state.md R32, R33). -/
theorem hostWrite_not_idle {s : State} (hp : s.phase ≠ .idle) (offset v : Nat) : hostWrite offset v s = .next s := by
  unfold hostWrite
  split
  · exact if_pos hp
  · exact if_neg hp
  · rfl

theorem step_hostWrite_not_idle {s : State} {offset v : Nat} {rest : List Input} (hp : s.phase ≠ .idle)
    (h : s.inputs = .hostWrite offset v :: rest) : step s = .next { s with inputs := rest } :=
  (step_hostWrite h).trans (hostWrite_not_idle (s := { s with inputs := rest }) hp offset v)

theorem hostWrite_unmapped {offset : Nat} (h : ∀ r, regOffset r ≠ offset) (v : Nat) (s : State) :
    hostWrite offset v s = .next s := by
  rw [hostWrite, regAt_of_unmapped h]

theorem hostWrite_cmd (v : Nat) (s : State) : hostWrite (regOffset .cmd) v s = considerWrite (BitVec.ofNat 32 v) s := by
  rw [hostWrite, regAt_regOffset]

theorem hostWrite_reg {r : Reg} (hr : r ≠ .cmd) (v : Nat) {s : State} (hp : s.phase = .idle) :
    hostWrite (regOffset r) v s = .next (s.writeReg r v) := by
  rw [hostWrite, regAt_regOffset]
  cases r with
  | cmd => exact absurd rfl hr
  | _ => exact if_pos hp

theorem step_wr_cmd {s : State} {v : Nat} {rest : List Input} (h : s.inputs = wr .cmd v :: rest) :
    step s = considerWrite (BitVec.ofNat 32 v) { s with inputs := rest } :=
  (step_hostWrite h).trans (hostWrite_cmd v _)

theorem step_wr_reg (r : Reg) {s : State} {v : Nat} {rest : List Input} (hr : r ≠ .cmd) (hp : s.phase = .idle)
    (h : s.inputs = wr r v :: rest) : step s = .next (State.writeReg { s with inputs := rest } r v) :=
  (step_hostWrite h).trans (hostWrite_reg hr v hp)

/-- Write-one-to-clear (10_state.md R23) by the bits of the value written. -/
theorem writeReg_status (s : State) (v : Nat) : s.writeReg .status v =
    { s with
      done := if v.testBit 1 then false else s.done
      err := if v.testBit 2 then none else s.err } := by
  have hbit (k : Nat) (hk : k < 32) : (BitVec.ofNat 32 v).getLsbD k = v.testBit k := by
    rw [BitVec.getLsbD_ofNat, decide_eq_true hk, Bool.true_and]
  have hdone : (s.done && !v.testBit 1) = if v.testBit 1 then false else s.done := by
    cases v.testBit 1 <;> simp
  rw [State.writeReg, State.writeStatus, hbit 1 (by omega), hbit 2 (by omega), hdone]

/-- Settles O16, register by register. -/
theorem hostWriteWhileIdle : Obligations.HostWriteWhileIdle := by
  unfold Obligations.HostWriteWhileIdle
  intro s v rest hp
  exact ⟨step_wr_reg .inAddr nofun hp, step_wr_reg .outAddr nofun hp, step_wr_reg .ivAddr nofun hp,
    step_wr_reg .len nofun hp, step_wr_reg .ctx nofun hp, step_wr_reg .w0 nofun hp, step_wr_reg .w1 nofun hp,
    step_wr_reg .w2 nofun hp, step_wr_reg .w3 nofun hp, step_wr_reg .errInfo nofun hp,
    fun h => (step_wr_reg .status nofun hp h).trans (congrArg _ (writeReg_status _ v)), step_wr_cmd⟩

theorem not_idle_of_busy {s : State} (h : s.busy = true) : s.phase ≠ .idle := by
  intro hp
  simp [State.busy, hp, Phase.busy] at h

/-- Settles O17. -/
theorem hostWriteWhileBusyIgnored : Obligations.HostWriteWhileBusyIgnored := by
  unfold Obligations.HostWriteWhileBusyIgnored
  intro s offset v rest hb h
  exact step_hostWrite_not_idle (not_idle_of_busy hb) h

/-- Settles O18. -/
theorem haltAndUnmappedAccess : Obligations.HaltAndUnmappedAccess := by
  unfold Obligations.HaltAndUnmappedAccess
  refine ⟨fun s offset v rest hp h => ?_, fun s offset v rest hr => ⟨fun h => ?_, fun h => ?_⟩⟩
  · exact step_hostWrite_not_idle (by simp [hp]) h
  · exact (step_hostWrite h).trans (hostWrite_unmapped hr v _)
  · have hread : s.readOffset offset = 0 := by rw [State.readOffset, regAt_of_unmapped hr]
    exact hread ▸ step_hostRead h

/-! ### The reset state -/

/-- Settles O19. -/
theorem resetStateReadsZero : Obligations.ResetStateReadsZero := by
  unfold Obligations.ResetStateReadsZero
  refine ⟨fun r => ?_, rfl⟩
  cases r with
  | status => decide
  | _ => rfl

/-- Settles O46: the reset state is IDLE, so no clause on a running command applies. -/
theorem resetMeetsTheInvariant : Obligations.ResetMeetsTheInvariant := by
  unfold Obligations.ResetMeetsTheInvariant
  have h0 : 0 < 2 ^ State.reset.addrWidth := Nat.two_pow_pos _
  have hn : 0 < 2 ^ (State.reset.addrWidth - 4) := Nat.two_pow_pos _
  exact inv_of_not_busy rfl rfl ⟨h0, h0, h0, h0, h0, hn, nofun⟩ nofun (.inl rfl)

/-! ### The hypotheses can be met -/

/-- A read in the middle of a command. -/
theorem witness_hostReadChangesNothing :
    step { lastBlockLeft with inputs := [rd .len] } = .next { lastBlockLeft with inputs := [], rdData := 37 } := by
  obtain ⟨v, hs, -, -, -, -, -, hlen, -⟩ :=
    hostReadChangesNothing { lastBlockLeft with inputs := [rd .len] } .len [] rfl
  rw [hs, hlen rfl]
  rfl

/-- A value too wide for the register. -/
theorem witness_hostWriteWhileIdle :
    step { State.reset with inputs := [wr .inAddr (2 ^ 64 + 5)] } = .next { State.reset with inAddr := 5 } :=
  (hostWriteWhileIdle { State.reset with inputs := [wr .inAddr (2 ^ 64 + 5)] } _ [] rfl).1 rfl

theorem witness_hostWriteWhileBusyIgnored :
    step { lastBlockLeft with inputs := [wr .cmd 4] } = .next lastBlockLeft :=
  hostWriteWhileBusyIgnored { lastBlockLeft with inputs := [wr .cmd 4] } _ _ [] rfl rfl

/-- A write in HALT, and a read at the first offset past the table. -/
theorem witness_haltAndUnmappedAccess :
    step { State.reset with phase := .halt, inputs := [wr .len 7] } = .next { State.reset with phase := .halt } ∧
      step { lastBlockLeft with rdData := 1, inputs := [.hostRead 0x60] } = .next lastBlockLeft := by
  have hr (r : Reg) : regOffset r ≠ 0x60 := by cases r <;> decide
  exact ⟨haltAndUnmappedAccess.1 { State.reset with phase := .halt, inputs := [wr .len 7] } _ _ [] rfl rfl,
    (haltAndUnmappedAccess.2 { lastBlockLeft with rdData := 1, inputs := [.hostRead 0x60] } 0x60 0 [] hr).2 rfl⟩

end Sys2Proof.Machine

/-! PROOF. What a command leaves unchanged, and what changes `CMD`, `ERRINFO`, the flags and `fatal_in`. -/

namespace Sys2Proof.Machine

/-! ### Frames over the effects of a command -/

theorem busy_nextPhase (n : Nat) {r : BitVec 4} : (nextPhase n r).busy = true := by
  unfold nextPhase
  split_ifs <;> rfl

theorem cbc_ne_of_packs {i : Instr} {c : Nat} (h : packs i = some c) (d : Dir) : i ≠ cbcCommand d := by
  rintro rfl
  cases d <;> cases h

theorem cbc_ne_of_unpacks {i : Instr} {c : Nat} (h : unpacks i = some c) (d : Dir) : i ≠ cbcCommand d := by
  rintro rfl
  cases d <;> cases h

theorem unpacks_of_packs {i : Instr} {c : Nat} (h : packs i = some c) : unpacks i = none := by
  cases i <;> cases h <;> rfl

section Effects

variable {i : Instr} {s t : State} (h : ExecEffect i s t)
include h

/-- AW, `IV_ADDR`, `LEN`, `CTX`, `fatal_in`, the platform and the model's own fields (10_state.md R47). -/
theorem effect_keeps_surroundings : t.addrWidth = s.addrWidth ∧ t.ivAddr = s.ivAddr ∧ t.len = s.len ∧ t.ctx = s.ctx ∧
    t.fatalIn = s.fatalIn ∧ t.denied = s.denied ∧ t.inputs = s.inputs ∧ t.rdData = s.rdData ∧
    t.freeIx = s.freeIx := by
  cases h with
  | block _ d => cases d <;> exact ⟨rfl, rfl, rfl, rfl, rfl, rfl, rfl, rfl, rfl⟩
  | partialBlock _ d => cases d <;> exact ⟨rfl, rfl, rfl, rfl, rfl, rfl, rfl, rfl, rfl⟩
  | _ => exact ⟨rfl, rfl, rfl, rfl, rfl, rfl, rfl, rfl, rfl⟩

/-- A CBC command does not name `W` (10_state.md R34). -/
theorem cbc_effect_keeps_w (hi : ∃ d, i = cbcCommand d) : t.w = s.w := by
  obtain ⟨d, rfl⟩ := hi
  cases h with
  | block _ d => cases d <;> rfl
  | partialBlock _ d => cases d <;> rfl
  | packed _ c hc => exact absurd rfl (cbc_ne_of_packs hc d)
  | _ => rfl

/-- A marshaller command names no hidden register and does not use the port (41_marshaller.md R148). -/
theorem marshaller_effect_keeps_hidden (hi : ∀ d, i ≠ cbcCommand d) : t.cv = s.cv ∧ t.tin = s.tin ∧ t.tout = s.tout ∧
    t.nleft = s.nleft ∧ t.rlen = s.rlen ∧ t.contexts = s.contexts := by
  cases h with
  | acceptedCbc _ d hd => exact absurd hd (hi d)
  | loadedIv _ d hd => exact absurd hd (hi d)
  | block _ d hd => exact absurd hd (hi d)
  | partialBlock _ d hd => exact absurd hd (hi d)
  | _ => exact ⟨rfl, rfl, rfl, rfl, rfl, rfl⟩

theorem packing_effect_keeps_output {c : Nat} (hi : packs i = some c) : t.mem = s.mem ∧ t.outAddr = s.outAddr := by
  cases h with
  | block _ d hd => exact absurd hd (cbc_ne_of_packs hi d)
  | partialBlock _ d hd => exact absurd hd (cbc_ne_of_packs hi d)
  | storedIv _ d hd => exact absurd hd (cbc_ne_of_packs hi d)
  | unpacked _ n hn => simp [unpacks_of_packs hi] at hn
  | _ => exact ⟨rfl, rfl⟩

theorem unpacking_effect_keeps_input {c : Nat} (hi : unpacks i = some c) : t.w = s.w ∧ t.inAddr = s.inAddr := by
  cases h with
  | block _ d hd => exact absurd hd (cbc_ne_of_unpacks hi d)
  | partialBlock _ d hd => exact absurd hd (cbc_ne_of_unpacks hi d)
  | packed _ n hn => simp [unpacks_of_packs hn] at hi
  | _ => exact ⟨rfl, rfl⟩

/-- `CMD` and `ERRINFO` are written by the considered write only (10_state.md R22, R29). -/
theorem running_effect_keeps_words (hp : s.phase ≠ .idle) : t.cmd = s.cmd ∧ t.errInfo = s.errInfo := by
  cases h with
  | rejected hidle => exact absurd hidle hp
  | acceptedCbc hidle => exact absurd hidle hp
  | acceptedMarshal hidle => exact absurd hidle hp
  | block _ d => cases d <;> exact ⟨rfl, rfl⟩
  | partialBlock _ d => cases d <;> exact ⟨rfl, rfl⟩
  | _ => exact ⟨rfl, rfl⟩

/-- The flags change at completion only (10_state.md R42, 42_sequencer.md R171). -/
theorem running_effect_flags (hb : s.busy = true) :
    t.err = s.err ∧ (t.busy = true ∧ t.done = s.done ∨ t.phase = .idle ∧ t.done = true) := by
  cases h with
  | nothing => exact ⟨rfl, .inl ⟨hb, rfl⟩⟩
  | rejected hidle => exact absurd hidle (not_idle_of_busy hb)
  | acceptedCbc hidle => exact absurd hidle (not_idle_of_busy hb)
  | acceptedMarshal hidle => exact absurd hidle (not_idle_of_busy hb)
  | loadedIv => exact ⟨rfl, .inl ⟨busy_nextPhase _, rfl⟩⟩
  | block _ d => cases d <;> exact ⟨rfl, .inl ⟨busy_nextPhase _, rfl⟩⟩
  | partialBlock _ d => cases d <;> exact ⟨rfl, .inl ⟨rfl, rfl⟩⟩
  | storedIv => exact ⟨rfl, .inr ⟨rfl, rfl⟩⟩
  | packed => exact ⟨rfl, .inr ⟨rfl, rfl⟩⟩
  | unpacked => exact ⟨rfl, .inr ⟨rfl, rfl⟩⟩

end Effects

/-- In IDLE a command is rejected, or accepted with its word in `CMD` and the flags clear (42_sequencer.md R164,
60_exceptions.md R233). -/
theorem idle_effect {i : Instr} {s t : State} (h : ExecEffect i s t) (hp : s.phase = .idle) :
    (∃ code, t = s.reject code (encode i)) ∨
      (t.cmd = encode i ∧ t.errInfo = s.errInfo ∧ t.busy = true ∧ t.done = false ∧ t.err = none) := by
  cases h with
  | nothing hne => exact absurd hp hne
  | rejected _ code => exact .inl ⟨code, rfl⟩
  | acceptedCbc => exact .inr ⟨rfl, rfl, rfl, rfl, rfl⟩
  | acceptedMarshal => exact .inr ⟨rfl, rfl, rfl, rfl, rfl⟩
  | _ => simp_all

/-- Settles O38, clause by clause. -/
theorem commandsKeepTheRegistersTheyDoNotName : Obligations.CommandsKeepTheRegistersTheyDoNotName := by
  unfold Obligations.CommandsKeepTheRegistersTheyDoNotName
  intro i s t ht
  have h := exec_effect ht
  refine ⟨effect_keeps_surroundings h, cbc_effect_keeps_w h, marshaller_effect_keeps_hidden h, fun hi => ?_,
    fun hi => ?_, running_effect_keeps_words h⟩
  · obtain rfl | ⟨cnt, rfl⟩ := hi <;> exact packing_effect_keeps_output h rfl
  · obtain rfl | ⟨cnt, rfl⟩ := hi <;> exact unpacking_effect_keeps_input h rfl

/-- Settles O39. -/
theorem flagsChangeOnlyAtCompletion : Obligations.FlagsChangeOnlyAtCompletion := by
  unfold Obligations.FlagsChangeOnlyAtCompletion
  intro i s t hb ht
  exact running_effect_flags (exec_effect ht) hb

/-! ### `CMD` and `ERRINFO` over the machine's turn -/

/-- The decoder reads a command off the three fields of its word (30_encoding.md R90, R94). -/
theorem fields_of_decode {w : Word} {i : Instr} (h : decode w = .command i) :
    rsvField w = 0 ∧ cntField w = countField i ∧ opField w = opcode i := by
  simp only [decode] at h
  split_ifs at h <;> simp only [Decoded.command.injEq] at h <;> subst h <;> simp_all [countField, opcode]

theorem encode_of_decode {w : Word} {i : Instr} (h : decode w = .command i) : encode i = w := by
  obtain ⟨hrsv, hcnt, hop⟩ := fields_of_decode h
  exact word_eq_of_fields ((rsvField_encode i).trans hrsv.symm) ((cntField_encode i).trans hcnt.symm)
    ((opField_encode i).trans hop.symm)

/-- A considered write halts the block, or is rejected, or is accepted; the last two record the word written. -/
theorem considerWrite_idle {w : Word} {s t : State} (hp : s.phase = .idle) (h : considerWrite w s = .next t) :
    (s.fatalIn = true ∧ t = s.enterHalt) ∨ (∃ code, t = s.reject code w) ∨
      (t.cmd = w ∧ t.errInfo = s.errInfo ∧ t.busy = true ∧ t.done = false ∧ t.err = none) := by
  rw [considerWrite, if_neg (not_not.2 hp)] at h
  split_ifs at h with hf
  · cases h
    exact .inl ⟨hf, rfl⟩
  · split at h
    · next i hd =>
      rw [← encode_of_decode hd]
      exact .inr (idle_effect (exec_effect h) hp)
    · next code _ =>
      cases h
      exact .inr (.inl ⟨code, rfl⟩)

theorem step_wr_cmd_idle {s t : State} {v : Nat} {rest : List Input} (hp : s.phase = .idle)
    (hi : s.inputs = wr .cmd v :: rest) (h : step s = .next t) :
    (s.fatalIn = true ∧ t = State.enterHalt { s with inputs := rest }) ∨
      (∃ code, t = State.reject { s with inputs := rest } code (BitVec.ofNat 32 v)) ∨
      (t.cmd = BitVec.ofNat 32 v ∧ t.errInfo = s.errInfo ∧ t.busy = true ∧ t.done = false ∧ t.err = none) :=
  considerWrite_idle (s := { s with inputs := rest }) hp ((step_wr_cmd hi).symm.trans h)

/-- Every step keeps `CMD` and `ERRINFO`, but for the reset and a considered write. -/
theorem step_words {s t : State} (h : step s = .next t) :
    (t.cmd = s.cmd ∧ t.errInfo = s.errInfo) ∨ (∃ rest, s.inputs = .reset :: rest ∧ t.cmd = 0 ∧ t.errInfo = 0) ∨
      ∃ v rest, s.phase = .idle ∧ s.inputs = wr .cmd v :: rest := by
  cases turn_effect h with
  | haltedWrite rest v hp _ hi => exact .inr (.inr ⟨v, rest, hp, hi⟩)
  | badWord rest v _ hp hi => exact .inr (.inr ⟨v, rest, hp, hi⟩)
  | wrote rest v _ _ hp _ hi => exact .inr (.inr ⟨v, rest, hp, hi⟩)
  | stepped rest v i t hb _ _ _ ht =>
    have hp : s.phase ≠ .idle := not_idle_of_busy hb
    exact .inl (running_effect_keeps_words (s := { s with inputs := rest, rdData := v }) ht hp)
  | register rest r v hp => cases r <;> exact .inl ⟨rfl, rfl⟩
  | reset rest hi => exact .inr (.inl ⟨rest, hi, rfl, rfl⟩)
  | _ => exact .inl ⟨rfl, rfl⟩

/-- Settles O41. -/
theorem cmdHoldsTheLastAcceptedWord : Obligations.CmdHoldsTheLastAcceptedWord := by
  unfold Obligations.CmdHoldsTheLastAcceptedWord
  intro s t h
  constructor
  · rcases step_words h with ⟨hcmd, -⟩ | ⟨rest, hi, hcmd, -⟩ | ⟨v, rest, hp, hi⟩
    · exact .inl hcmd
    · exact .inr (.inl ⟨rest, hi, hcmd⟩)
    · rcases step_wr_cmd_idle hp hi h with ⟨-, rfl⟩ | ⟨code, rfl⟩ | ⟨hcmd, -, hflags⟩
      · exact .inl rfl
      · exact .inl rfl
      · exact .inr (.inr ⟨v, rest, hp, hi, hcmd, hflags⟩)
  · intro v rest hp hi hb
    rcases step_wr_cmd_idle hp hi h with ⟨-, rfl⟩ | ⟨code, rfl⟩ | ⟨hcmd, -⟩
    · exact nomatch hb
    · exact absurd hp (not_idle_of_busy (s := s) hb)
    · exact hcmd

/-- Settles O42. -/
theorem errInfoWrittenOnlyByRejection : Obligations.ErrInfoWrittenOnlyByRejection := by
  unfold Obligations.ErrInfoWrittenOnlyByRejection
  intro s t h
  constructor
  · rcases step_words h with ⟨-, hinfo⟩ | ⟨rest, hi, -, hinfo⟩ | ⟨v, rest, hp, hi⟩
    · exact .inl hinfo
    · exact .inr (.inl ⟨rest, hi, hinfo⟩)
    · rcases step_wr_cmd_idle hp hi h with ⟨-, rfl⟩ | ⟨code, rfl⟩ | ⟨-, hinfo, -⟩
      · exact .inl rfl
      · exact .inr (.inr ⟨v, rest, code, hp, hi, rfl, rfl, rfl, hp⟩)
      · exact .inl hinfo
  · intro v rest hp hf hi hidle
    rcases step_wr_cmd_idle hp hi h with ⟨hf', -⟩ | ⟨code, rfl⟩ | ⟨-, -, hb, -⟩
    · exact absurd hf' (by simp [hf])
    · rfl
    · exact absurd hidle (not_idle_of_busy hb)

/-! ### `fatal_in` over the machine's turn -/

theorem exec_keeps_fatalIn {i : Instr} {s t : State} (h : exec i s = .next t) : t.fatalIn = s.fatalIn := by
  obtain ⟨-, -, -, -, hf, -⟩ := effect_keeps_surroundings (exec_effect h)
  exact hf

theorem considerWrite_keeps_fatalIn {w : Word} {s t : State} (h : considerWrite w s = .next t) :
    t.fatalIn = s.fatalIn := by
  unfold considerWrite at h
  split_ifs at h
  · cases h; rfl
  · cases h; rfl
  · split at h
    · exact exec_keeps_fatalIn h
    · cases h; rfl

theorem sequencerTurn_keeps_fatalIn {s t : State} (h : sequencerTurn s = .next t) : t.fatalIn = s.fatalIn := by
  unfold sequencerTurn at h
  split_ifs at h
  · cases h; rfl
  · cases h; rfl
  · split at h
    · exact exec_keeps_fatalIn h
    · cases h

theorem hostWrite_keeps_fatalIn {offset v : Nat} {s t : State} (h : hostWrite offset v s = .next t) :
    t.fatalIn = s.fatalIn := by
  unfold hostWrite at h
  split at h
  · exact considerWrite_keeps_fatalIn h
  · next r _ _ =>
    split_ifs at h
    · cases h
      cases r <;> rfl
    · cases h; rfl
  · cases h; rfl

theorem waitRound_keeps_fatalIn {rest : List Input} {s t : State} (h : waitRound s rest = .next t) :
    t.fatalIn = s.fatalIn := by
  unfold waitRound at h
  split_ifs at h
  · exact sequencerTurn_keeps_fatalIn (s := { hostRead (regOffset .status) s with inputs := .wait :: rest }) h
  · cases h; rfl

/-- Of all events only the adapter's reset clears `fatal_in`. -/
theorem takeInput_fatalIn {e : Input} {rest : List Input} {s t : State} (hf : s.fatalIn = true)
    (he : e ≠ .adapterReset) (h : takeInput e rest s = .next t) : t.fatalIn = true := by
  cases e with
  | hostWrite offset v => exact (hostWrite_keeps_fatalIn h).trans hf
  | wait => exact (waitRound_keeps_fatalIn h).trans hf
  | sequencer => exact (sequencerTurn_keeps_fatalIn h).trans hf
  | fatalRise => cases h; rfl
  | adapterReset => exact absurd rfl he
  | initContext d hd bytes =>
    cases h
    unfold State.initContext
    split_ifs
    · exact hf
    · rfl
  | _ => cases h; exact hf

/-- Settles O44. -/
theorem fatalInputStaysUntilAdapterReset : Obligations.FatalInputStaysUntilAdapterReset := by
  unfold Obligations.FatalInputStaysUntilAdapterReset
  intro s t hf h
  refine ⟨fun hne => ?_, fun ⟨rest, hi⟩ => ?_⟩
  · cases hi : s.inputs with
    | nil => exact (sequencerTurn_keeps_fatalIn ((step_of_no_event hi).symm.trans h)).trans hf
    | cons e rest => exact takeInput_fatalIn hf (fun he => hne rest (he ▸ hi)) ((step_of_event hi).symm.trans h)
  · rw [step_of_event hi] at h
    cases h
    rfl

/-! ### The hypotheses can be met -/

theorem witness_commandsKeepTheRegistersTheyDoNotName :
    ∃ t, exec .cbcEnc lastBlockLeft = .next t ∧ t.nleft = 0 ∧ t.len = 37 ∧ t.w = lastBlockLeft.w ∧ t.cmd = 1 := by
  obtain ⟨t, ht, hn⟩ : ∃ t, exec .cbcEnc lastBlockLeft = .next t ∧ t.nleft = 0 := ⟨_, rfl, rfl⟩
  obtain ⟨⟨-, -, hlen, -⟩, hw, -, -, -, hwords⟩ := commandsKeepTheRegistersTheyDoNotName _ _ _ ht
  exact ⟨t, ht, hn, hlen, hw ⟨.enc, rfl⟩, (hwords (by decide)).1⟩

/-- `CBC.ENC` before its STORE_IV step. -/
def ivToStore : State := { lastBlockLeft with phase := .storeIv, nleft := 0 }

theorem witness_flagsChangeOnlyAtCompletion :
    ∃ t, exec .cbcEnc ivToStore = .next t ∧ t.phase = .idle ∧ t.err = none ∧ t.done = true := by
  obtain ⟨t, ht, hp⟩ : ∃ t, exec .cbcEnc ivToStore = .next t ∧ t.phase = .idle := ⟨_, rfl, rfl⟩
  obtain ⟨herr, ⟨hb, -⟩ | ⟨-, hd⟩⟩ := flagsChangeOnlyAtCompletion _ _ _ rfl ht
  · exact absurd hp (not_idle_of_busy hb)
  · exact ⟨t, ht, hp, herr, hd⟩

/-- An accepted `PACK.B`. -/
theorem witness_cmdHoldsTheLastAcceptedWord :
    ∃ t, step { State.reset with inputs := [wr .cmd 4] } = .next t ∧ t.busy = true ∧ t.cmd = 4 := by
  obtain ⟨t, ht, hb⟩ : ∃ t, step { State.reset with inputs := [wr .cmd 4] } = .next t ∧ t.busy = true := ⟨_, rfl, rfl⟩
  exact ⟨t, ht, hb, (cmdHoldsTheLastAcceptedWord _ _ ht).2 4 [] rfl rfl hb⟩

/-- A rejected word, of no opcode. -/
theorem witness_errInfoWrittenOnlyByRejection :
    ∃ t, step { State.reset with inputs := [wr .cmd 3] } = .next t ∧ t.phase = .idle ∧ t.errInfo = 3 := by
  obtain ⟨t, ht, hp⟩ : ∃ t, step { State.reset with inputs := [wr .cmd 3] } = .next t ∧ t.phase = .idle :=
    ⟨_, rfl, rfl⟩
  exact ⟨t, ht, hp, (errInfoWrittenOnlyByRejection _ _ ht).2 3 [] rfl rfl rfl hp⟩

/-- The block's own reset leaves `fatal_in`. -/
theorem witness_fatalInputStaysUntilAdapterReset :
    ∃ t, step { lastBlockLeft with fatalIn := true, inputs := [.reset] } = .next t ∧ t.fatalIn = true := by
  obtain ⟨t, ht⟩ : ∃ t, step { lastBlockLeft with fatalIn := true, inputs := [.reset] } = .next t := ⟨_, rfl⟩
  exact ⟨t, ht, (fatalInputStaysUntilAdapterReset _ _ rfl ht).1 nofun⟩

end Sys2Proof.Machine

/-! PROOF. Caller memory: what `MemWrite` stores, the bytes a step of a command writes, and the block that is stuck at
an access that is not admitted. -/

namespace Sys2Proof.Machine

/-! ### MemWrite -/

/-- Settles O11, by the laws of `MemWrite` inside its range, outside it, and of the canonical form. -/
theorem memWriteWritesExactlyItsBytes : Obligations.MemWriteWritesExactlyItsBytes := by
  unfold Obligations.MemWriteWritesExactlyItsBytes
  intro aw m a s hm ha
  refine ⟨fun k hk => ?_, fun x hx => Memory.read_writeBytes_outside m a s hx, Memory.wf_writeBytes hm s ha⟩
  rw [Memory.read_writeBytes_inside hm ha hk, List.getD_eq_getElem s 0 hk]

/-! ### The bytes a step writes -/

theorem writesOf_cbc (s : State) (d : Dir) : s.writesOf (cbcCommand d) = s.cbcWrites := by
  cases d <;> rfl

theorem cbcWrites_block {s : State} (h : s.phase = .block) : s.cbcWrites = (s.outAddr, 16) := by
  simp only [State.cbcWrites, h]

theorem cbcWrites_partialBlock {s : State} (h : s.phase = .partialBlock) :
    s.cbcWrites = (s.outAddr, s.rlen.toNat) := by
  simp only [State.cbcWrites, h]

theorem cbcWrites_storeIv {s : State} (h : s.phase = .storeIv) : s.cbcWrites = (s.ivAddr, 16) := by
  simp only [State.cbcWrites, h]

theorem writesOf_unpacks {i : Instr} {c : Nat} (hi : unpacks i = some c) {s : State} (h : s.phase = .marshal) :
    s.writesOf i = (s.outAddr, c) := by
  cases i <;> cases hi <;> simp only [State.writesOf, if_pos h]

/-- A command leaves memory as it was, or stores the first bytes of a quad over the whole range that R71 gives its
step in that phase (20_memory.md R63, R71). -/
theorem effect_mem {i : Instr} {s t : State} (h : ExecEffect i s t) :
    t.mem = s.mem ∨ ∃ q, t.mem = s.mem.writeBytes (s.writesOf i).1 (unpack q (s.writesOf i).2) := by
  cases h with
  | block hp d hi =>
    rw [hi, writesOf_cbc, cbcWrites_block hp]
    exact .inr (cbcPass_mem s d 16)
  | partialBlock hp d hi =>
    rw [hi, writesOf_cbc, cbcWrites_partialBlock hp]
    exact .inr (cbcPass_mem s d s.rlen.toNat)
  | storedIv hp d hi =>
    rw [hi, writesOf_cbc, cbcWrites_storeIv hp]
    exact .inr ⟨s.cv, rfl⟩
  | unpacked hp c hi =>
    rw [writesOf_unpacks hi hp]
    exact .inr ⟨s.w, rfl⟩
  | _ => exact .inl rfl

/-- Settles O12: a command stores nothing, or exactly over its range. -/
theorem stepsWriteOnlyTheirRange : Obligations.StepsWriteOnlyTheirRange := by
  unfold Obligations.StepsWriteOnlyTheirRange
  intro i s t h a ha
  obtain hm | ⟨q, hm⟩ := effect_mem (exec_effect h)
  · rw [hm]
  · rw [hm]
    exact Memory.read_writeBytes_outside _ _ _ (by rwa [length_unpack])

/-! ### The stuck block -/

/-- One byte of a range that is not admitted, and the range is not. -/
theorem admitsAll_eq_false {s : State} {acc : Access} {r : Nat × Nat} {a : Nat} (ha : inBytes r a)
    (h : s.admits acc a = false) : s.admitsAll acc r.1 r.2 = false := by
  obtain ⟨hlo, hhi⟩ := ha
  refine List.all_eq_false.2 ⟨a - r.1, List.mem_range.2 (by omega), ?_⟩
  simp [Nat.add_sub_cancel' hlo, h]

/-- A step with a byte that is not admitted does not happen (20_memory.md R66). -/
theorem sequencerStep_stuck {s : State} (after : State) {rd wr : Nat × Nat}
    (hr : inRange s.addrWidth rd.1 rd.2 = true) (hw : inRange s.addrWidth wr.1 wr.2 = true)
    (ha : s.admitsAll .read rd.1 rd.2 = false ∨ s.admitsAll .write wr.1 wr.2 = false) :
    s.sequencerStep rd wr after = .next s := by
  rcases ha with ha | ha <;> simp [State.sequencerStep, hr, hw, ha]

/-- A busy block with no event listed and `fatal_in` = 0 takes the step of its command. -/
theorem step_of_busy {s : State} {i : Instr} (hb : s.busy = true) (hf : s.fatalIn = false) (hi : s.inputs = [])
    (hd : decode s.cmd = .command i) : step s = exec i s := by
  rw [step_of_no_event hi]
  simp [sequencerTurn, hb, hf, hd]

/-- A state that a step leaves as it is stays for ever. -/
theorem runsTo_of_fixed {s : State} (h : step s = .next s) (k : Nat) : s.runsTo k s := by
  induction k with
  | zero => exact (runsTo_zero s s).2 rfl
  | succ k ih => exact runsTo_succ.2 ⟨s, h, ih⟩

/-- Settles O13: under the invariant the next step is over its two ranges, in the address space, and does not happen. -/
theorem notAdmittedAccessIsStuck : Obligations.NotAdmittedAccessIsStuck := by
  unfold Obligations.NotAdmittedAccessIsStuck
  intro s i hs hb hf hi hd ⟨a, ha⟩
  obtain ⟨after, hexec, hr, hw⟩ := exec_of_inv hs hb hd
  have hden : s.admitsAll .read (s.readsOf i).1 (s.readsOf i).2 = false ∨
      s.admitsAll .write (s.writesOf i).1 (s.writesOf i).2 = false :=
    ha.imp (fun ⟨hin, hn⟩ => admitsAll_eq_false hin hn) (fun ⟨hin, hn⟩ => admitsAll_eq_false hin hn)
  refine runsTo_of_fixed ?_
  rw [step_of_busy hb hf hi hd, hexec, sequencerStep_stuck after hr hw hden]

/-! ### The hypotheses can be met -/

/-- Two bytes at the top of a space of 16 bytes, over a byte of memory. -/
theorem witness_memWriteWritesExactlyItsBytes :
    (Memory.writeBytes [(14, 9)] 14 [5, 0]).read 15 = 0 ∧ (Memory.writeBytes [(14, 9)] 14 [5, 0]).wf 4 = true := by
  obtain ⟨hin, -, hwf⟩ := memWriteWritesExactlyItsBytes 4 [(14, 9)] 14 [5, 0] (by decide) (by decide)
  exact ⟨hin 1 (by decide), hwf⟩

/-- The byte just above the 16 of the IV. -/
theorem witness_stepsWriteOnlyTheirRange :
    ∃ t, exec .cbcEnc { ivToStore with mem := [(16, 7)] } = .next t ∧ t.phase = .idle ∧ t.mem.read 16 = 7 := by
  obtain ⟨t, ht, hp⟩ : ∃ t, exec .cbcEnc { ivToStore with mem := [(16, 7)] } = .next t ∧ t.phase = .idle :=
    ⟨_, rfl, rfl⟩
  exact ⟨t, ht, hp, stepsWriteOnlyTheirRange _ _ _ ht 16 (by unfold inBytes; decide)⟩

/-- `PACK.B` whose last byte must not be read. -/
def packDenied : State := { State.reset with cmd := 4, phase := .marshal, denied := [⟨15, 1, .read⟩] }

/-- `UNPACK.B` whose last byte must not be written. -/
def unpackDenied : State := { State.reset with cmd := 6, phase := .marshal, denied := [⟨15, 1, .write⟩] }

theorem witness_notAdmittedAccessIsStuck (k : Nat) :
    packDenied.runsTo k packDenied ∧ unpackDenied.runsTo k unpackDenied := by
  have hpack : packDenied.Inv := ⟨by decide, by unfold State.valuesFit; decide, by decide, by decide,
    .inr ⟨.packB, by decide⟩, (phaseInv_marshal rfl).2 (.inl ⟨by decide, by decide⟩)⟩
  have hunpack : unpackDenied.Inv := ⟨by decide, by unfold State.valuesFit; decide, by decide, by decide,
    .inr ⟨.unpackB, by decide⟩, (phaseInv_marshal rfl).2 (.inr (.inr (.inl ⟨by decide, by decide⟩)))⟩
  exact ⟨notAdmittedAccessIsStuck _ .packB hpack rfl rfl rfl (by decide)
      ⟨15, .inl ⟨by unfold inBytes; decide, by decide⟩⟩ k,
    notAdmittedAccessIsStuck _ .unpackB hunpack rfl rfl rfl (by decide)
      ⟨15, .inr ⟨by unfold inBytes; decide, by decide⟩⟩ k⟩

end Sys2Proof.Machine

/-! PROOF. The encoding of the commands: the decoder on the fields of a word, the command table, the length split at
acceptance, and the full count. -/

namespace Sys2Proof.Machine

/-! ### A word by its fields -/

/-- A word is a command's exactly when its three fields are (30_encoding.md R90). -/
theorem encode_eq_iff {i : Instr} {w : Word} :
    encode i = w ↔ rsvField w = 0 ∧ cntField w = countField i ∧ opField w = opcode i := by
  constructor
  · rintro rfl
    exact ⟨rsvField_encode i, cntField_encode i, opField_encode i⟩
  · rintro ⟨hrsv, hcnt, hop⟩
    exact word_eq_of_fields ((rsvField_encode i).trans hrsv.symm) ((cntField_encode i).trans hcnt.symm)
      ((opField_encode i).trans hop.symm)

theorem toNat_opField (w : Word) : (opField w).toNat = w.toNat % 16 := by
  simp [opField]

theorem toNat_cntField (w : Word) : (cntField w).toNat = w.toNat / 16 % 32 := by
  simp [cntField, Nat.shiftRight_eq_div_pow]

theorem toNat_rsvField (w : Word) : (rsvField w).toNat = w.toNat / 512 := by
  have hw : w.toNat / 512 < 2 ^ 23 := by omega
  simpa [rsvField, Nat.shiftRight_eq_div_pow] using hw

theorem opField_eq_iff {w : Word} {b : BitVec 4} : opField w = b ↔ w.toNat % 16 = b.toNat := by
  rw [← BitVec.toNat_inj, toNat_opField]

theorem cntField_eq_iff {w : Word} {b : BitVec 5} : cntField w = b ↔ w.toNat / 16 % 32 = b.toNat := by
  rw [← BitVec.toNat_inj, toNat_cntField]

theorem rsvField_eq_zero_iff {w : Word} : rsvField w = 0 ↔ w.toNat / 512 = 0 := by
  rw [← BitVec.toNat_inj, toNat_rsvField]
  exact Iff.rfl

/-! ### The decoder, clause by clause (30_encoding.md R94) -/

theorem decode_illegalOp {w : Word} (hop : w.toNat % 16 ∉ [1, 2, 4, 5, 6, 7]) : decode w = .reject .illegalOp :=
  if_pos (by simpa [opField_eq_iff] using hop)

theorem decode_reservedBits {w : Word} (hop : w.toNat % 16 ∈ [1, 2, 4, 5, 6, 7]) (hrsv : rsvField w ≠ 0) :
    decode w = .reject .reservedBits :=
  (if_neg (not_not.2 (by simpa [opField_eq_iff] using hop))).trans (if_pos hrsv)

theorem decode_reservedCount {w : Word} (hop : w.toNat % 16 ∈ [1, 2, 4, 6]) (hrsv : rsvField w = 0)
    (hcnt : cntField w ≠ 0) : decode w = .reject .reservedBits := by
  have hop' : opField w = 1 ∨ opField w = 2 ∨ opField w = 4 ∨ opField w = 6 := by simpa [opField_eq_iff] using hop
  rw [decode, if_neg (by tauto), if_neg (not_not.2 hrsv), if_pos ⟨hop', hcnt⟩]

/-- A word with the opcode of a partial marshaller command and no reserved bit set is the word of that command with
the count it holds, legal or not. -/
theorem encode_of_countedOp {w : Word} (hrsv : rsvField w = 0) (hop : opField w = 5 ∨ opField w = 7) :
    ∃ i, i.wf = countLegal (cntField w) ∧ encode i = w := by
  rcases hop with hop | hop
  · exact ⟨.packP (cntField w), rfl, encode_eq_iff.2 ⟨hrsv, rfl, hop⟩⟩
  · exact ⟨.unpackP (cntField w), rfl, encode_eq_iff.2 ⟨hrsv, rfl, hop⟩⟩

theorem decode_badCount {w : Word} (hop : w.toNat % 16 ∈ [5, 7]) (hrsv : rsvField w = 0)
    (hcnt : countLegal (cntField w) = false) : decode w = .reject .badCount := by
  have hop' : opField w = 5 ∨ opField w = 7 := by simpa [opField_eq_iff] using hop
  obtain ⟨i, hwf, rfl⟩ := encode_of_countedOp hrsv hop'
  exact decode_encode_illegal (hwf.trans hcnt)

/-- A word rejected for its count is laid out as a command. -/
theorem encode_of_decode_badCount {w : Word} (h : decode w = .reject .badCount) : ∃ i, encode i = w := by
  obtain ⟨hrsv, hop⟩ : rsvField w = 0 ∧ (opField w = 5 ∨ opField w = 7) := by
    simp only [decode] at h
    split_ifs at h <;> simp_all
  obtain ⟨i, -, hi⟩ := encode_of_countedOp hrsv hop
  exact ⟨i, hi⟩

theorem countLegal_iff {c : BitVec 5} : countLegal c = true ↔ 1 ≤ c.toNat ∧ c.toNat ≤ 16 := decide_eq_true_iff

theorem countLegal_eq_false_iff {c : BitVec 5} : countLegal c = false ↔ c.toNat = 0 ∨ 16 < c.toNat := by
  rw [← Bool.not_eq_true, countLegal_iff]
  omega

/-- Settles O2: the decoder reads off a command exactly the fields its encoding has. -/
theorem decodeAndEncodeAgree : Obligations.DecodeAndEncodeAgree := by
  unfold Obligations.DecodeAndEncodeAgree
  intro w i
  constructor
  · intro h
    exact ⟨wf_of_decode h, encode_of_decode h⟩
  · rintro ⟨hwf, rfl⟩
    exact decode_encode hwf

/-- The fields of a well-formed command, as numbers, decode to it. -/
theorem decode_of_fields {w : Word} {i : Instr} (hwf : i.wf = true) (hop : w.toNat % 16 = (opcode i).toNat)
    (hrsv : w.toNat / 512 = 0) (hcnt : w.toNat / 16 % 32 = (countField i).toNat) : decode w = .command i :=
  (decodeAndEncodeAgree w i).2
    ⟨hwf, encode_eq_iff.2 ⟨rsvField_eq_zero_iff.2 hrsv, cntField_eq_iff.2 hcnt, opField_eq_iff.2 hop⟩⟩

/-- A count within 5 bits, as a field of 5 bits. -/
theorem countLegal_ofNat {n : Nat} (h1 : 1 ≤ n) (h2 : n ≤ 16) :
    (BitVec.ofNat 5 n).toNat = n ∧ countLegal (BitVec.ofNat 5 n) = true := by
  have hn : (BitVec.ofNat 5 n).toNat = n := Nat.mod_eq_of_lt (by omega)
  exact ⟨hn, countLegal_iff.2 (by omega)⟩

/-- Settles O1: the rejections test by test, the commands by the fields of their encoding. -/
theorem decodeMakesTheTestsInOrder : Obligations.DecodeMakesTheTestsInOrder := by
  unfold Obligations.DecodeMakesTheTestsInOrder
  refine ⟨fun w => ⟨decode_illegalOp, fun hop hrsv => decode_reservedBits hop (mt rsvField_eq_zero_iff.1 hrsv),
    fun hop hrsv hcnt => decode_reservedCount hop (rsvField_eq_zero_iff.2 hrsv) (mt cntField_eq_iff.1 hcnt),
    fun hop hrsv hcnt => decode_badCount hop (rsvField_eq_zero_iff.2 hrsv) ?_,
    decode_of_fields (i := .cbcEnc) rfl, decode_of_fields (i := .cbcDec) rfl, decode_of_fields (i := .packB) rfl,
    fun hop hrsv h1 h2 => ?_, decode_of_fields (i := .unpackB) rfl, fun hop hrsv h1 h2 => ?_⟩, rfl, rfl, rfl⟩
  · rwa [countLegal_eq_false_iff, toNat_cntField]
  · obtain ⟨hn, hlegal⟩ := countLegal_ofNat h1 h2
    exact decode_of_fields hlegal hop hrsv hn.symm
  · obtain ⟨hn, hlegal⟩ := countLegal_ofNat h1 h2
    exact decode_of_fields hlegal hop hrsv hn.symm

/-- Settles O4. -/
theorem specWordsDecode : Obligations.SpecWordsDecode := by
  unfold Obligations.SpecWordsDecode
  decide

/-! ### The command table (30_encoding.md R93) -/

/-- A mask keeps of each field what its own field of the mask keeps. -/
theorem and_eq_iff_fields {w m p : Word} : w &&& m = p ↔ rsvField w &&& rsvField m = rsvField p ∧
    cntField w &&& cntField m = cntField p ∧ opField w &&& opField m = opField p := by
  have hrsv : rsvField (w &&& m) = rsvField w &&& rsvField m := BitVec.extractLsb'_and
  have hcnt : cntField (w &&& m) = cntField w &&& cntField m := BitVec.extractLsb'_and
  have hop : opField (w &&& m) = opField w &&& opField m := BitVec.extractLsb'_and
  rw [← hrsv, ← hcnt, ← hop]
  constructor
  · rintro rfl
    exact ⟨rfl, rfl, rfl⟩
  · rintro ⟨h1, h2, h3⟩
    exact word_eq_of_fields h1 h2 h3

/-- Every row tests all of RSV against 0 and all of OP against its opcode, and wants no bit of CNT. -/
theorem tableRow_fields : ∀ r ∈ commandTable, rsvField r.mask = BitVec.allOnes 23 ∧ rsvField r.pattern = 0 ∧
    cntField r.pattern = 0 ∧ opField r.mask = BitVec.allOnes 4 := by
  decide

theorem covers_iff_fields {r : TableRow} (hr : r ∈ commandTable) (w : Word) : r.covers w = true ↔
    rsvField w = 0 ∧ cntField w &&& cntField r.mask = 0 ∧ opField w = opField r.pattern := by
  obtain ⟨hrsv, hrsv', hcnt', hop⟩ := tableRow_fields r hr
  rw [TableRow.covers, beq_iff_eq, and_eq_iff_fields, hrsv, hrsv', hcnt', hop, BitVec.and_allOnes, BitVec.and_allOnes]

theorem countField_eq_zero {i : Instr} (h5 : opcode i ≠ 5) (h7 : opcode i ≠ 7) : countField i = 0 := by
  cases i with
  | packP cnt => exact absurd rfl h5
  | unpackP cnt => exact absurd rfl h7
  | _ => rfl

/-- Under a full mask the one count admitted is 0, that of the commands without a count. -/
theorem and_allOnes_eq_zero_iff_countField {i : Instr} (h5 : opcode i ≠ 5) (h7 : opcode i ≠ 7) (c : BitVec 5) :
    c &&& BitVec.allOnes 5 = 0 ↔ ∃ j, opcode j = opcode i ∧ countField j = c := by
  rw [BitVec.and_allOnes]
  constructor
  · rintro rfl
    exact ⟨i, rfl, countField_eq_zero h5 h7⟩
  · rintro ⟨j, hj, rfl⟩
    exact countField_eq_zero (hj ▸ h5) (hj ▸ h7)

/-- The counts that a row's mask admits are those of the commands with its opcode: 0, or any count in a `.P` row. -/
theorem count_admitted_iff {r : TableRow} (hr : r ∈ commandTable) (c : BitVec 5) :
    c &&& cntField r.mask = 0 ↔ ∃ i, opcode i = opField r.pattern ∧ countField i = c := by
  simp only [commandTable, List.mem_cons, List.not_mem_nil, or_false] at hr
  obtain rfl | rfl | rfl | rfl | rfl | rfl := hr
  · exact and_allOnes_eq_zero_iff_countField (i := .cbcEnc) (by decide) (by decide) c
  · exact and_allOnes_eq_zero_iff_countField (i := .cbcDec) (by decide) (by decide) c
  · exact and_allOnes_eq_zero_iff_countField (i := .packB) (by decide) (by decide) c
  · exact ⟨fun _ => ⟨.packP c, rfl, rfl⟩, fun _ => BitVec.and_zero⟩
  · exact and_allOnes_eq_zero_iff_countField (i := .unpackB) (by decide) (by decide) c
  · exact ⟨fun _ => ⟨.unpackP c, rfl, rfl⟩, fun _ => BitVec.and_zero⟩

/-- The mnemonics of the table and the opcodes name the same commands. -/
theorem mnemonic_eq_iff {r : TableRow} (hr : r ∈ commandTable) (i : Instr) :
    mnemonic i = r.mnemonic ↔ opcode i = opField r.pattern := by
  have hrow : ∀ r ∈ commandTable, (mnemonic i = r.mnemonic ↔ opcode i = opField r.pattern) := by
    cases i <;> simp only [mnemonic, opcode] <;> decide
  exact hrow r hr

/-- A row covers exactly the words of the commands with its opcode, whatever their count. -/
theorem covers_iff_encode {r : TableRow} (hr : r ∈ commandTable) (w : Word) :
    r.covers w = true ↔ ∃ i, opcode i = opField r.pattern ∧ encode i = w := by
  rw [covers_iff_fields hr, count_admitted_iff hr]
  constructor
  · rintro ⟨hrsv, ⟨i, hi, hcnt⟩, hop⟩
    exact ⟨i, hi, encode_eq_iff.2 ⟨hrsv, hcnt.symm, hop.trans hi.symm⟩⟩
  · rintro ⟨i, hi, he⟩
    obtain ⟨hrsv, hcnt, hop⟩ := encode_eq_iff.1 he
    exact ⟨hrsv, ⟨i, hi, hcnt.symm⟩, hop.trans hi⟩

/-- Settles O3: a row's words are the encodings with its opcode, and each of these decodes or has an illegal count. -/
theorem tableRowsCoverTheirWords : Obligations.TableRowsCoverTheirWords := by
  unfold Obligations.TableRowsCoverTheirWords
  intro w r hr
  rw [covers_iff_encode hr]
  constructor
  · rintro ⟨i, hi, rfl⟩
    refine ⟨(opField_encode i).trans hi, ?_⟩
    cases hwf : i.wf with
    | true => exact .inl ⟨i, decode_encode hwf, (mnemonic_eq_iff hr i).2 hi⟩
    | false => exact .inr (decode_encode_illegal hwf)
  · rintro ⟨hop, ⟨i, hd, hm⟩ | hd⟩
    · exact ⟨i, (mnemonic_eq_iff hr i).1 hm, encode_of_decode hd⟩
    · obtain ⟨i, rfl⟩ := encode_of_decode_badCount hd
      exact ⟨i, (opField_encode i).symm.trans hop, rfl⟩

/-! ### The length split at acceptance (30_encoding.md R98) -/

/-- Settles O5: a CBC command that leaves no error in IDLE was accepted. -/
theorem lengthSplitAtAcceptance : Obligations.LengthSplitAtAcceptance := by
  unfold Obligations.LengthSplitAtAcceptance
  refine ⟨fun len => ⟨rfl, toNat_remainder len⟩, fun d s t hp ht herr => ?_⟩
  cases exec_effect ht with
  | nothing hne => exact absurd hp hne
  | rejected => cases herr
  | acceptedCbc => exact ⟨rfl, toNat_remainder s.len⟩
  | acceptedMarshal _ hr => cases d <;> exact hr.elim
  | _ => simp_all

/-! ### The full count (30_encoding.md R99) -/

/-- Marshaller commands that take the same MARSHAL step do the same in every phase but IDLE. -/
theorem exec_marshaller_running {i j : Instr} (hi : ∀ d, i ≠ cbcCommand d) (hj : ∀ d, j ≠ cbcCommand d) {s : State}
    (hp : s.phase ≠ .idle) (hm : s.phase = .marshal → exec i s = exec j s) : exec i s = exec j s := by
  by_cases hmarshal : s.phase = .marshal
  · exact hm hmarshal
  by_cases hhalt : s.phase = .halt
  · rw [exec_halt i hhalt, exec_halt j hhalt]
  have hb : s.busy = true := by cases h : s.phase <;> simp_all [State.busy, Phase.busy]
  rw [exec_marshaller_fault hi hb hmarshal, exec_marshaller_fault hj hb hmarshal]

/-- The word a marshaller command is given by is only recorded, in `CMD` or in `ERRINFO`. -/
theorem commandMarshal_word (s : State) (legal : Bool) (a c : Nat) (v w : Word) :
    s.commandMarshal legal a c v = { s.commandMarshal legal a c w with
      cmd := (s.commandMarshal legal a c v).cmd, errInfo := (s.commandMarshal legal a c v).errInfo } := by
  unfold State.commandMarshal
  split_ifs <;> rfl

/-- Settles O6. -/
theorem fullCountIsFullBlock : Obligations.FullCountIsFullBlock := by
  unfold Obligations.FullCountIsFullBlock
  have hP : packs (.packP 16) = some 16 := rfl
  have hB : packs .packB = some 16 := rfl
  have huP : unpacks (.unpackP 16) = some 16 := rfl
  have huB : unpacks .unpackB = some 16 := rfl
  refine fun s => ⟨fun hp => ⟨?_, ?_⟩, fun hp => ?_, fun hp => ?_⟩
  · exact exec_marshaller_running (cbc_ne_of_packs hP) (cbc_ne_of_packs hB) hp fun hm =>
      (exec_packs_marshal hP hm).trans (exec_packs_marshal hB hm).symm
  · exact exec_marshaller_running (cbc_ne_of_unpacks huP) (cbc_ne_of_unpacks huB) hp fun hm =>
      (exec_unpacks_marshal huP hm).trans (exec_unpacks_marshal huB hm).symm
  · exact ⟨_, _, exec_packs_idle hP hp, exec_packs_idle hB hp, commandMarshal_word s true _ _ _ _⟩
  · exact ⟨_, _, exec_unpacks_idle huP hp, exec_unpacks_idle huB hp, commandMarshal_word s true _ _ _ _⟩

/-! ### The hypotheses can be met -/

/-- The largest count, one past it, and the count of a command that has none. -/
theorem witness_decodeMakesTheTestsInOrder : decode 0x107 = .command (.unpackP 16) ∧
    decode 0x115 = .reject .badCount ∧ decode 0x11 = .reject .reservedBits := by
  obtain ⟨-, -, -, -, -, -, -, -, -, hunpackP⟩ := decodeMakesTheTestsInOrder.1 0x107
  obtain ⟨-, -, -, hbadCount, -⟩ := decodeMakesTheTestsInOrder.1 0x115
  obtain ⟨-, -, hreserved, -⟩ := decodeMakesTheTestsInOrder.1 0x11
  exact ⟨hunpackP (by decide) (by decide) (by decide) (by decide), hbadCount (by decide) (by decide) (by decide),
    hreserved (by decide) (by decide) (by decide)⟩

theorem witness_decodeAndEncodeAgree : encode (.packP 16) = 0x105 :=
  ((decodeAndEncodeAgree 0x105 (.packP 16)).1 (by decide)).2

/-- A word that is covered by its row and rejected for its count. -/
theorem witness_tableRowsCoverTheirWords :
    TableRow.covers ⟨"PACK.P", 0xFFFFFE0F, 0x00000005⟩ 0x115 = true :=
  (tableRowsCoverTheirWords 0x115 _ (by decide)).2 ⟨by decide, .inr (by decide)⟩

/-- A block given a CBC command of two full blocks and one byte, with the context it names. -/
def twoBlocksAndAByte : State := { State.reset with len := 33, contexts := [⟨.enc, 0, []⟩] }

theorem witness_lengthSplitAtAcceptance :
    ∃ t, exec .cbcEnc twoBlocksAndAByte = .next t ∧ t.nleft = 2 ∧ t.rlen.toNat = 1 := by
  obtain ⟨t, ht, herr⟩ : ∃ t, exec .cbcEnc twoBlocksAndAByte = .next t ∧ t.err = none := ⟨_, rfl, rfl⟩
  exact ⟨t, ht, lengthSplitAtAcceptance.2 .enc _ t rfl ht herr⟩

/-- In MARSHAL the two commands of a pair are one; from reset their acceptances differ in `CMD`. -/
theorem witness_fullCountIsFullBlock :
    exec (.packP 16) { State.reset with phase := .marshal } = exec .packB { State.reset with phase := .marshal } ∧
      ∃ t u, exec (.packP 16) State.reset = .next t ∧ exec .packB State.reset = .next u ∧
        t = { u with cmd := t.cmd, errInfo := t.errInfo } :=
  ⟨((fullCountIsFullBlock _).1 (by decide)).1, (fullCountIsFullBlock _).2.1 rfl⟩

end Sys2Proof.Machine

/-! PROOF. The transform port: which steps of a command use it, and what creating or discarding a context does. -/

namespace Sys2Proof.Machine

/-! ### The steps that use the port -/

/-- A pass is one transaction, on the context of `CTX` for its direction (40_transform_port.md R121, R129). -/
theorem cbcPass_contexts (s : State) (d : Dir) (c : Nat) :
    ∃ bytes, (s.cbcPass d c).contexts = setContext s.contexts d s.ctx bytes := by
  cases d <;> exact ⟨_, rfl⟩

/-- Only the passes of BLOCK and PARTIAL are transactions (40_transform_port.md R131). -/
theorem effect_contexts {i : Instr} {s t : State} (h : ExecEffect i s t) :
    t.contexts = s.contexts ∨
      ∃ d bytes, i = cbcCommand d ∧ (s.phase = .block ∨ s.phase = .partialBlock) ∧
        t.contexts = setContext s.contexts d s.ctx bytes := by
  cases h with
  | block hp d hi =>
    obtain ⟨bytes, hP⟩ := cbcPass_contexts s d 16
    exact .inr ⟨d, bytes, hi, .inl hp, hP⟩
  | partialBlock hp d hi =>
    obtain ⟨bytes, hP⟩ := cbcPass_contexts s d s.rlen.toNat
    exact .inr ⟨d, bytes, hi, .inr hp, hP⟩
  | _ => exact .inl rfl

/-- Settles O40: a transaction replaces the context of its handle and direction and no other. -/
theorem onlyPassesUseThePort : Obligations.OnlyPassesUseThePort := by
  unfold Obligations.OnlyPassesUseThePort
  intro i s t ht
  obtain hP | ⟨d, bytes, hi, hp, hP⟩ := effect_contexts (exec_effect ht)
  · exact .inl hP
  · exact .inr ⟨d, bytes, hi, hp, hP, fun d' h hne => hP ▸ contextState_setContext s.contexts bytes hne⟩

/-! ### Creating and discarding a context -/

/-- A provider's state with a new context in front: that context is the one its handle names for its direction. -/
theorem context_cons_self (P : List Context) (d : Dir) (h : Nat) (bytes : List Byte) :
    xfValid (⟨d, h, bytes⟩ :: P) d h = true ∧ contextState (⟨d, h, bytes⟩ :: P) d h = some bytes := by
  simp [xfValid, contextState]

theorem context_cons_other (P : List Context) {d d' : Dir} {h h' : Nat} (bytes : List Byte) (hne : d' ≠ d ∨ h' ≠ h) :
    xfValid (⟨d, h, bytes⟩ :: P) d' h' = xfValid P d' h' ∧
      contextState (⟨d, h, bytes⟩ :: P) d' h' = contextState P d' h' := by
  simp only [xfValid, contextState, List.any_cons, List.find?_cons, context_ne hne, Bool.false_or, and_self]

theorem initContext_of_fits (s : State) (d : Dir) (k : Nat) (bytes : List Byte) (hs : Config.ctxSize ≤ Config.ctxMax) :
    s.initContext d k bytes =
      { s with
        contexts := ⟨d, fit s.addrWidth k, bytes⟩ :: dropContext s.contexts d (fit s.addrWidth k) } :=
  if_pos hs

theorem initContext_of_too_large (s : State) (d : Dir) (k : Nat) (bytes : List Byte)
    (hs : Config.ctxMax < Config.ctxSize) : s.initContext d k bytes = { s with fatalIn := true } :=
  if_neg (Nat.not_le.2 hs)

theorem step_initContext {s : State} {d : Dir} {k : Nat} {bytes : List Byte} {rest : List Input}
    (h : s.inputs = .initContext d k bytes :: rest) :
    step s = .next (State.initContext { s with inputs := rest } d k bytes) :=
  step_of_event h

theorem step_discardContext {s : State} {d : Dir} {k : Nat} {rest : List Input}
    (h : s.inputs = .discardContext d k :: rest) :
    step s = .next { s with inputs := rest, contexts := dropContext s.contexts d (fit s.addrWidth k) } :=
  step_of_event h

/-- Settles O45: a creation discards the old context and puts the new one in front. -/
theorem contextCreationAndDiscard : Obligations.ContextCreationAndDiscard := by
  unfold Obligations.ContextCreationAndDiscard
  refine ⟨fun s d k bytes rest hi => ⟨fun hs => ?_, fun hs => ?_⟩, fun s d k rest hi => ?_⟩
  · obtain ⟨hvalid, hstate⟩ := context_cons_self (dropContext s.contexts d (fit s.addrWidth k)) d _ bytes
    refine ⟨_, (step_initContext hi).trans (congrArg _ (initContext_of_fits _ d k bytes hs)), hvalid, hstate,
      fun d' h' hne => ?_⟩
    obtain ⟨hv, hc⟩ := context_cons_other (dropContext s.contexts d (fit s.addrWidth k)) bytes hne
    obtain ⟨hv', hc'⟩ := dropContext_other s.contexts hne
    exact ⟨hv.trans hv', hc.trans hc'⟩
  · exact (step_initContext hi).trans (congrArg _ (initContext_of_too_large _ d k bytes hs))
  · exact ⟨_, step_discardContext hi, xfValid_dropContext _ _ _, fun d' h' hne => dropContext_other s.contexts hne⟩

/-! ### The hypotheses can be met -/

/-- `CBC.ENC` before its last full block, with one handle valid for both directions. -/
def bothDirections : State := { lastBlockLeft with contexts := [⟨.enc, 0, [1]⟩, ⟨.dec, 0, [2]⟩] }

/-- A BLOCK step of `CBC.ENC` leaves the decrypt context of its handle. -/
theorem witness_onlyPassesUseThePort :
    ∃ t, exec .cbcEnc bothDirections = .next t ∧ contextState t.contexts .dec 0 = some [2] := by
  obtain ⟨t, ht⟩ : ∃ t, exec .cbcEnc bothDirections = .next t := ⟨_, rfl⟩
  obtain hP | ⟨d, bytes, hd, -, -, hother⟩ := onlyPassesUseThePort _ _ _ ht
  · exact ⟨t, ht, by rw [hP]; rfl⟩
  · cases d with
    | enc => exact ⟨t, ht, hother .dec 0 (.inl nofun)⟩
    | dec => cases hd

/-- Handles too wide for a register: a creation under a handle already valid, and the discard of one. -/
theorem witness_contextCreationAndDiscard :
    (Config.ctxSize ≤ Config.ctxMax →
      ∃ t, step { bothDirections with inputs := [.initContext .enc (2 ^ 64) [3]] } = .next t ∧
        contextState t.contexts .enc 0 = some [3] ∧ contextState t.contexts .dec 0 = some [2]) ∧
    ∃ t, step { bothDirections with inputs := [.discardContext .dec (2 ^ 64)] } = .next t ∧
      xfValid t.contexts .dec 0 = false ∧ xfValid t.contexts .enc 0 = true := by
  obtain ⟨hcreate, hdiscard⟩ := contextCreationAndDiscard
  constructor
  · intro hs
    obtain ⟨P, ht, -, hnew, hother⟩ :=
      (hcreate { bothDirections with inputs := [.initContext .enc (2 ^ 64) [3]] } _ _ _ [] rfl).1 hs
    exact ⟨_, ht, hnew, (hother .dec 0 (.inl nofun)).2⟩
  · obtain ⟨P, ht, hgone, hother⟩ :=
      hdiscard { bothDirections with inputs := [.discardContext .dec (2 ^ 64)] } _ _ [] rfl
    exact ⟨_, ht, hgone, (hother .enc 0 (.inl nofun)).1⟩

end Sys2Proof.Machine

/-! PROOF. The marshaller: `pack` and `unpack` byte by byte with their six laws, and the MARSHAL step of `PACK.*` and
`UNPACK.*`. -/

namespace Sys2Proof.Machine

/-! ### `pack` and `unpack` -/

/-- A byte of the padded block as a word (41_marshaller.md R141): zero beyond the bytes of the sequence. -/
theorem setWidth_getD (s : List Byte) (k : Nat) :
    (s.getD k 0).setWidth 32 = if h : k < s.length then s[k].setWidth 32 else (0 : Word) := by
  split
  · next h => rw [List.getD_eq_getElem s 0 h]
  · next h => rw [List.getD_eq_default s 0 (Nat.le_of_not_lt h)]; rfl

/-- Settles O7: a packed word is its four lanes, and a lane beyond the bytes holds zero. -/
theorem packPlacesBytesBigEndian : Obligations.PackPlacesBytesBigEndian := by
  unfold Obligations.PackPlacesBytesBigEndian
  intro s _ _ b j hj
  have hb : ∀ k, (s.getD k 0).setWidth 32 = b k := setWidth_getD s
  rw [get_pack s hj, packWord_msb]
  simp only [hb, BitVec.shiftLeft_zero]

/-- The low byte of a word, kept in a word: the mask of 41_marshaller.md R142. -/
theorem setWidth_low_byte (v : Word) : (v.setWidth 8).setWidth 32 = v &&& 0xFF := by
  refine BitVec.eq_of_toNat_eq ?_
  have hmask : v.toNat &&& (0xFF : Word).toNat = v.toNat % 2 ^ 8 := Nat.and_two_pow_sub_one_eq_mod v.toNat 8
  rw [BitVec.toNat_setWidth, BitVec.toNat_setWidth, BitVec.toNat_and, hmask]
  omega

/-- Settles O8: byte `k` of an unpacked quad is byte `k` of the quad. -/
theorem unpackTakesBytesBigEndian : Obligations.UnpackTakesBytesBigEndian := by
  unfold Obligations.UnpackTakesBytesBigEndian
  intro q c _ _
  refine ⟨length_unpack q c, fun k hk => ?_⟩
  rw [getD_unpack q hk]
  exact setWidth_low_byte _

/-- The lanes of `c` packed bytes: byte `k` of them, then zero (41_marshaller.md R140, R141). -/
theorem quadByte_pack_of_getD {s : List Byte} {c : Nat} {f : Nat → Byte} (hs : s.length = c)
    (hf : ∀ k < c, s.getD k 0 = f k) {k : Nat} (hk : k < 16) :
    quadByte (pack s) k = if k < c then f k else 0 := by
  rw [quadByte_pack s hk]
  split
  · next h => exact hf k h
  · next h => exact List.getD_eq_default s 0 (by omega)

theorem quadByte_pack_unpack (q : Quad) (c : Nat) {k : Nat} (hk : k < 16) :
    quadByte (pack (unpack q c)) k = if k < c then quadByte q k else 0 :=
  quadByte_pack_of_getD (length_unpack q c) (fun _ => getD_unpack q) hk

/-- Settles O9: each law of 41_marshaller.md R143 by the bytes of the quads. -/
theorem marshallerLaws : Obligations.MarshallerLaws := by
  unfold Obligations.MarshallerLaws
  refine ⟨fun s _ hs => ?_, pack_unpack_full, fun q c _ _ k hk => quadByte_pack_unpack q c hk, fun s _ hs => ?_,
    fun q c _ hc => (take_unpack q hc).symm, fun p q k hk => ?_⟩
  · rw [unpack_pack s hs, List.take_left]
  · calc pack s = pack (unpack (pack s) 16) := (pack_unpack_full _).symm
      _ = pack (padBlock s) := by rw [unpack_pack_pad s hs]
  · simp only [getD_unpack _ hk, quadByte_xor]

/-! ### The MARSHAL step -/

/-- The byte count of a packing command is the one `packs` gives it (30_encoding.md R99). -/
theorem packs_of_form {i : Instr} {c : Nat}
    (h : i = .packB ∧ c = 16 ∨ ∃ cnt, i = .packP cnt ∧ countLegal cnt = true ∧ c = cnt.toNat) :
    packs i = some c := by
  obtain ⟨rfl, rfl⟩ | ⟨cnt, rfl, -, rfl⟩ := h <;> rfl

/-- The byte count of an unpacking command is the one `unpacks` gives it (30_encoding.md R99). -/
theorem unpacks_of_form {i : Instr} {c : Nat}
    (h : i = .unpackB ∧ c = 16 ∨ ∃ cnt, i = .unpackP cnt ∧ countLegal cnt = true ∧ c = cnt.toNat) :
    unpacks i = some c := by
  obtain ⟨rfl, rfl⟩ | ⟨cnt, rfl, -, rfl⟩ := h <;> rfl

theorem quadByte_pack_readBytes (m : Memory) (a c : Nat) {k : Nat} (hk : k < 16) :
    quadByte (pack (m.readBytes a c)) k = if k < c then m.read (a + k) else 0 :=
  quadByte_pack_of_getD (Memory.length_readBytes m a c) (fun _ => Memory.getD_readBytes m a) hk

/-- Settles O36: the step happens, and `W` is the bytes of its range, packed. -/
theorem packStep : Obligations.PackStep := by
  unfold Obligations.PackStep
  intro s i c hi hp hr ha
  have hin : inRange s.addrWidth s.inAddr c = true := inRange_iff.2 hr
  have hstep : exec i s = .next (s.packBody c) :=
    (exec_packs_marshal (packs_of_form hi) hp).trans (sequencerStep_happens _ hin (inRange_empty hin) ha rfl)
  exact ⟨pack (s.mem.readBytes s.inAddr c), hstep, fun k hk => quadByte_pack_readBytes s.mem s.inAddr c hk⟩

/-- Settles O37: the step happens, and memory is what storing the first bytes of `W` makes of it. -/
theorem unpackStep : Obligations.UnpackStep := by
  unfold Obligations.UnpackStep
  intro s i c hi hp hr ha hm
  have hout : inRange s.addrWidth s.outAddr c = true := inRange_iff.2 hr
  have hstep : exec i s = .next (s.unpackBody c) :=
    (exec_unpacks_marshal (unpacks_of_form hi) hp).trans (sequencerStep_happens _ (inRange_empty hout) hout rfl ha)
  have hl : (unpack s.w c).length = c := length_unpack s.w c
  refine ⟨s.mem.writeBytes s.outAddr (unpack s.w c), hstep, fun k hk => ?_, fun x hx => ?_,
    wf_writeBytes_unpack s.w hm hout⟩
  · rw [Memory.read_writeBytes_inside hm (by rwa [hl]) (by rwa [hl]), getD_unpack s.w hk]
    rfl
  · exact Memory.read_writeBytes_outside _ _ _ (by rwa [hl])

/-! ### The hypotheses can be met -/

/-- A word that is full, one that is cut short, and one that is all padding. -/
theorem witness_packPlacesBytesBigEndian : (pack [1, 2, 3, 4, 5, 6]).get 0 = 0x01020304 ∧
    (pack [1, 2, 3, 4, 5, 6]).get 1 = 0x05060000 ∧ (pack [1, 2, 3, 4, 5, 6]).get 3 = 0 := by
  have hword := packPlacesBytesBigEndian [1, 2, 3, 4, 5, 6] (by decide) (by decide)
  exact ⟨hword 0 (by decide), hword 1 (by decide), hword 3 (by decide)⟩

/-- Six bytes of a quad, the last in the second lane of its word. -/
theorem witness_unpackTakesBytesBigEndian : (unpack ⟨0x01020304, 0x05060708, 0, 0⟩ 6).length = 6 ∧
    ((unpack ⟨0x01020304, 0x05060708, 0, 0⟩ 6).getD 5 0).setWidth 32 = (0x06 : Word) := by
  obtain ⟨hl, hbyte⟩ := unpackTakesBytesBigEndian ⟨0x01020304, 0x05060708, 0, 0⟩ 6 (by decide) (by decide)
  exact ⟨hl, (hbyte 5 (by decide)).trans (by decide)⟩

/-- One byte there and back, and padded; the lane past a count of two. -/
theorem witness_marshallerLaws : unpack (pack [7]) 1 = [7] ∧ pack [7] = pack (7 :: List.replicate 15 0) ∧
    unpackByte .msb (pack (unpack ⟨0x01020304, 0, 0, 0⟩ 2)) 16 2 = 0 := by
  obtain ⟨hback, -, hlane, hpad, -⟩ := marshallerLaws
  exact ⟨hback [7] (by decide) (by decide), hpad [7] (by decide) (by decide),
    hlane ⟨0x01020304, 0, 0, 0⟩ 2 (by decide) (by decide) 2 (by decide)⟩

/-- Memory's bytes 14 and 15 in a space of 16 bytes, with `PACK.P 2` or `UNPACK.P 2` accepted at address 14. -/
def marshalAtTheTop (w : Word) : State :=
  { State.reset with
    addrWidth := 4, cmd := w, phase := .marshal, inAddr := 14, outAddr := 14, w := ⟨0x01020304, 0, 0, 0⟩
    mem := [(14, 8), (15, 9)] }

/-- Two bytes from the top of the space: the cursor wraps to 0, and the third lane is zero. -/
theorem witness_packStep : ∃ t, exec (.packP 2) (marshalAtTheTop 0x25) = .next t ∧ t.inAddr = 0 ∧
    quadByte t.w 1 = 9 ∧ quadByte t.w 2 = 0 := by
  obtain ⟨q, ht, hlane⟩ := packStep (marshalAtTheTop 0x25) (.packP 2) 2 (.inr ⟨2, rfl, by decide, rfl⟩) rfl (by decide)
    (by decide)
  exact ⟨_, ht, rfl, hlane 1 (by decide), hlane 2 (by decide)⟩

/-- Two bytes to the top of the space: the cursor wraps to 0, and address 0 is not written. -/
theorem witness_unpackStep : ∃ t, exec (.unpackP 2) (marshalAtTheTop 0x27) = .next t ∧ t.outAddr = 0 ∧
    t.mem.read 15 = 2 ∧ t.mem.read 0 = 0 := by
  obtain ⟨m, ht, hin, hout, -⟩ := unpackStep (marshalAtTheTop 0x27) (.unpackP 2) 2 (.inr ⟨2, rfl, by decide, rfl⟩) rfl
    (by decide) (by decide) (by decide)
  exact ⟨_, ht, rfl, hin 1 (by decide), hout 0 (by decide)⟩

end Sys2Proof.Machine

/-! PROOF. The sequencer: that the machine always goes on under the invariant, that an accepted command completes, what
the considered `CMD` write of each command does, the phase transition table, and the LOAD_IV and STORE_IV steps. -/

namespace Sys2Proof.Machine

/-! ### The invariant excludes every fault -/

/-- A step whose ranges lie in the address space happens or is stuck; it does not fault (20_memory.md R66). -/
theorem sequencerStep_goes_on {s : State} (after : State) {rd wr : Nat × Nat}
    (hr : inRange s.addrWidth rd.1 rd.2 = true) (hw : inRange s.addrWidth wr.1 wr.2 = true) :
    ∃ t, s.sequencerStep rd wr after = .next t := by
  rw [State.sequencerStep, hr, hw]
  by_cases ha : (s.admitsAll .read rd.1 rd.2 && s.admitsAll .write wr.1 wr.2) = true
  · exact ⟨after, by simp [ha]⟩
  · exact ⟨s, by simp [ha]⟩

/-- In IDLE every command is accepted or rejected (42_sequencer.md R161 to R164). -/
theorem exec_idle_goes_on (i : Instr) {s : State} (hp : s.phase = .idle) : ∃ t, exec i s = .next t := by
  obtain ⟨d, rfl⟩ | ⟨c, hi⟩ | ⟨c, hi⟩ := command_kinds i
  · exact ⟨_, exec_cbc_idle d hp⟩
  · exact ⟨_, exec_packs_idle hi hp⟩
  · exact ⟨_, exec_unpacks_idle hi hp⟩

theorem considerWrite_goes_on (w : Word) (s : State) : ∃ t, considerWrite w s = .next t := by
  unfold considerWrite
  split_ifs with hp hf
  · exact ⟨_, rfl⟩
  · exact ⟨_, rfl⟩
  · split
    · exact exec_idle_goes_on _ (not_not.1 hp)
    · exact ⟨_, rfl⟩

theorem hostWrite_goes_on (offset v : Nat) (s : State) : ∃ t, hostWrite offset v s = .next t := by
  unfold hostWrite
  split
  · exact considerWrite_goes_on _ s
  · split_ifs <;> exact ⟨_, rfl⟩
  · exact ⟨_, rfl⟩

/-- The sequencer's turn of a busy block with `fatal_in` = 0 is the step of its command (42_sequencer.md R160). -/
theorem sequencerTurn_of_busy {s : State} {i : Instr} (hb : s.busy = true) (hf : s.fatalIn = false)
    (hd : decode s.cmd = .command i) : sequencerTurn s = exec i s := by
  simp [sequencerTurn, hb, hf, hd]

theorem sequencerTurn_of_not_busy {s : State} (hb : s.busy = false) : sequencerTurn s = .next s :=
  if_pos hb

theorem sequencerTurn_of_fatal {s : State} (hb : s.busy = true) (hf : s.fatalIn = true) :
    sequencerTurn s = .next s.enterHalt := by
  simp [sequencerTurn, hb, hf]

/-- Under the invariant the sequencer has a step whenever it is its turn: the step of the accepted command, over ranges
in the address space. -/
theorem sequencerTurn_goes_on {s : State} (hs : s.Inv) : ∃ t, sequencerTurn s = .next t := by
  cases hb : s.busy with
  | false => exact ⟨s, sequencerTurn_of_not_busy hb⟩
  | true =>
    cases hf : s.fatalIn with
    | true => exact ⟨_, sequencerTurn_of_fatal hb hf⟩
    | false =>
      obtain ⟨i, hd⟩ := command_of_inv hs hb
      obtain ⟨after, hexec, hr, hw⟩ := exec_of_inv hs hb hd
      rw [sequencerTurn_of_busy hb hf hd, hexec]
      exact sequencerStep_goes_on after hr hw

theorem waitRound_goes_on {s : State} (rest : List Input) (hs : s.Inv) : ∃ t, waitRound s rest = .next t := by
  unfold waitRound
  split_ifs
  · exact sequencerTurn_goes_on ((inv_outside (.wait :: rest) (s.readOffset (regOffset .status)) s.fatalIn).2 hs)
  · exact ⟨_, rfl⟩

theorem takeInput_goes_on (e : Input) (rest : List Input) {s : State} (hs : s.Inv) :
    ∃ t, takeInput e rest s = .next t := by
  have hs' : State.Inv { s with inputs := rest } := (inv_outside rest s.rdData s.fatalIn).2 hs
  cases e with
  | hostWrite offset v => exact hostWrite_goes_on offset v _
  | wait => exact waitRound_goes_on rest hs'
  | sequencer => exact sequencerTurn_goes_on hs'
  | _ => exact ⟨_, rfl⟩

/-- Settles O48: only the sequencer's turn could fault, and the invariant gives it its step. -/
theorem noStepFaultsUnderTheInvariant : Obligations.NoStepFaultsUnderTheInvariant := by
  unfold Obligations.NoStepFaultsUnderTheInvariant
  intro s hs
  cases hi : s.inputs with
  | nil =>
    rw [step_of_no_event hi]
    exact sequencerTurn_goes_on hs
  | cons e rest =>
    rw [step_of_event hi]
    exact takeInput_goes_on e rest hs

/-! ### The steps of a command that are admitted happen -/

theorem loadIv_happens (d : Dir) {s : State} (hp : s.phase = .loadIv) (hr : inRange s.addrWidth s.ivAddr 16 = true)
    (ha : s.admitsAll .read s.ivAddr 16 = true) : exec (cbcCommand d) s = .next s.loadIvBody :=
  (exec_cbc_loadIv d hp).trans (sequencerStep_happens _ hr (inRange_empty hr) ha rfl)

theorem block_happens (d : Dir) {s : State} (hp : s.phase = .block) (hn : s.nleft ≠ 0)
    (hr : inRange s.addrWidth s.inAddr 16 = true) (hw : inRange s.addrWidth s.outAddr 16 = true)
    (har : s.admitsAll .read s.inAddr 16 = true) (haw : s.admitsAll .write s.outAddr 16 = true) :
    exec (cbcCommand d) s = .next (s.cbcPass d 16).endBlock :=
  (exec_cbc_block d hp hn).trans (sequencerStep_happens _ hr hw har haw)

theorem partialBlock_happens (d : Dir) {s : State} (hp : s.phase = .partialBlock) (hn : s.rlen ≠ 0)
    (hr : inRange s.addrWidth s.inAddr s.rlen.toNat = true) (hw : inRange s.addrWidth s.outAddr s.rlen.toNat = true)
    (har : s.admitsAll .read s.inAddr s.rlen.toNat = true) (haw : s.admitsAll .write s.outAddr s.rlen.toNat = true) :
    exec (cbcCommand d) s = .next (s.cbcPass d s.rlen.toNat).endPartial :=
  (exec_cbc_partial d hp hn).trans (sequencerStep_happens _ hr hw har haw)

theorem storeIv_happens (d : Dir) {s : State} (hp : s.phase = .storeIv) (hw : inRange s.addrWidth s.ivAddr 16 = true)
    (ha : s.admitsAll .write s.ivAddr 16 = true) : exec (cbcCommand d) s = .next s.storeIvBody :=
  (exec_cbc_storeIv d hp).trans (sequencerStep_happens _ (inRange_empty hw) hw rfl ha)

/-! ### Every step of a command brings its end nearer -/

/-- A bound on the steps a busy block still has to take (42_sequencer.md R172, 70_reset_and_hazards.md R276): one for
every block left, the PARTIAL step whether or not it comes, STORE_IV, and LOAD_IV where it is still to come. -/
def State.stepBound (s : State) : Nat :=
  match s.phase with
  | .idle => 0
  | .loadIv => s.nleft + 3
  | .block => s.nleft + 2
  | .partialBlock => 2
  | .storeIv => 1
  | .marshal => 1
  | .halt => 0

theorem stepBound_loadIv {s : State} (h : s.phase = .loadIv) : s.stepBound = s.nleft + 3 := by
  simp only [State.stepBound, h]

theorem stepBound_block {s : State} (h : s.phase = .block) : s.stepBound = s.nleft + 2 := by
  simp only [State.stepBound, h]

theorem stepBound_partialBlock {s : State} (h : s.phase = .partialBlock) : s.stepBound = 2 := by
  simp only [State.stepBound, h]

theorem stepBound_storeIv {s : State} (h : s.phase = .storeIv) : s.stepBound = 1 := by
  simp only [State.stepBound, h]

theorem stepBound_marshal {s : State} (h : s.phase = .marshal) : s.stepBound = 1 := by
  simp only [State.stepBound, h]

theorem stepBound_idle {s : State} (h : s.phase = .idle) : s.stepBound = 0 := by
  simp only [State.stepBound, h]

theorem stepBound_le (s : State) : s.stepBound ≤ s.nleft + 3 := by
  unfold State.stepBound
  split <;> omega

/-- Whichever phase `next(NLEFT, RLEN)` is, the steps from it are those of the blocks left and at most two more. -/
theorem stepBound_nextPhase {s : State} (h : s.phase = nextPhase s.nleft s.rlen) : s.stepBound ≤ s.nleft + 2 := by
  unfold nextPhase at h
  split_ifs at h
  · exact (stepBound_block h).le
  · rw [stepBound_partialBlock h]; omega
  · rw [stepBound_storeIv h]; omega

/-- Where every access is admitted the step of a CBC command happens and lowers the bound. -/
theorem cbc_step_lowers_bound (d : Dir) {s : State} (h : s.phaseInv) (hb : s.busy = true) (hm : s.phase ≠ .marshal)
    (ha : s.admitsEverything) : ∃ t, exec (cbcCommand d) s = .next t ∧ t.stepBound < s.stepBound := by
  have hall := admitsAll_of_everything ha
  obtain hp | hp | hp | hp | hp := (busy_iff s).1 hb
  · obtain ⟨-, hiv, -⟩ := (phaseInv_loadIv hp).1 h
    refine ⟨_, loadIv_happens d hp hiv (hall _ _ _), ?_⟩
    have hle : s.loadIvBody.stepBound ≤ s.nleft + 2 := stepBound_nextPhase (s := s.loadIvBody) rfl
    rw [stepBound_loadIv hp]
    omega
  · obtain ⟨-, -, ⟨-, -, hin, hout⟩, hn⟩ := (phaseInv_block hp).1 h
    refine ⟨_, block_happens d hp hn (inRange_mono hin (by omega)) (inRange_mono hout (by omega)) (hall _ _ _)
      (hall _ _ _), ?_⟩
    have hle : (s.cbcPass d 16).endBlock.stepBound ≤ s.nleft - 1 + 2 := by
      cases d <;> exact stepBound_nextPhase (s := (s.cbcPass _ 16).endBlock) rfl
    rw [stepBound_block hp]
    omega
  · obtain ⟨-, -, ⟨-, -, hin, hout⟩, -, hn⟩ := (phaseInv_partialBlock hp).1 h
    refine ⟨_, partialBlock_happens d hp hn (inRange_mono hin (by omega)) (inRange_mono hout (by omega)) (hall _ _ _)
      (hall _ _ _), ?_⟩
    rw [stepBound_partialBlock hp, stepBound_storeIv rfl]
    omega
  · obtain ⟨-, hiv, -⟩ := (phaseInv_storeIv hp).1 h
    refine ⟨_, storeIv_happens d hp hiv (hall _ _ _), ?_⟩
    rw [stepBound_storeIv hp, stepBound_idle rfl]
    omega
  · exact absurd hp hm

/-- The accepted marshaller command packs or unpacks, over a range in the address space. -/
theorem marshaller_of_runsMarshal {s : State} {i : Instr} (h : s.runsMarshal) (hd : decode s.cmd = .command i) :
    (∃ c, packs i = some c ∧ inRange s.addrWidth s.inAddr c = true) ∨
      ∃ c, unpacks i = some c ∧ inRange s.addrWidth s.outAddr c = true := by
  obtain ⟨hc, hr⟩ | ⟨cnt, hc, hr⟩ | ⟨hc, hr⟩ | ⟨cnt, hc, hr⟩ := h <;> rw [hd] at hc <;> cases hc
  · exact .inl ⟨_, rfl, hr⟩
  · exact .inl ⟨_, rfl, hr⟩
  · exact .inr ⟨_, rfl, hr⟩
  · exact .inr ⟨_, rfl, hr⟩

/-- Where every access is admitted the MARSHAL step happens and completes its command. -/
theorem marshal_step_lowers_bound {s : State} {i : Instr} (h : s.runsMarshal) (hd : decode s.cmd = .command i)
    (hp : s.phase = .marshal) (ha : s.admitsEverything) :
    ∃ t, exec i s = .next t ∧ t.stepBound < s.stepBound := by
  have hall := admitsAll_of_everything ha
  rw [stepBound_marshal hp]
  obtain ⟨c, hi, hr⟩ | ⟨c, hi, hw⟩ := marshaller_of_runsMarshal h hd
  · exact ⟨s.packBody c, (exec_packs_marshal hi hp).trans
      (sequencerStep_happens _ hr (inRange_empty hr) (hall _ _ _) rfl), Nat.zero_lt_one⟩
  · exact ⟨s.unpackBody c, (exec_unpacks_marshal hi hp).trans
      (sequencerStep_happens _ (inRange_empty hw) hw rfl (hall _ _ _)), Nat.zero_lt_one⟩

/-- In a phase of the CBC engines the accepted command is one of theirs (42_sequencer.md R172). -/
theorem cbc_of_phaseInv {s : State} {i : Instr} (h : s.phaseInv) (hb : s.busy = true) (hm : s.phase ≠ .marshal)
    (hd : decode s.cmd = .command i) : ∃ d, i = cbcCommand d := by
  have hc : s.runsCbc := by
    obtain hp | hp | hp | hp | hp := (busy_iff s).1 hb
    · exact ((phaseInv_loadIv hp).1 h).1
    · exact ((phaseInv_block hp).1 h).1
    · exact ((phaseInv_partialBlock hp).1 h).1
    · exact ((phaseInv_storeIv hp).1 h).1
    · exact absurd hp hm
  obtain hc | hc := hc <;> rw [hd] at hc <;> cases hc
  · exact ⟨.enc, rfl⟩
  · exact ⟨.dec, rfl⟩

theorem exec_lowers_bound {s : State} {i : Instr} (hs : s.Inv) (hb : s.busy = true) (ha : s.admitsEverything)
    (hd : decode s.cmd = .command i) : ∃ t, exec i s = .next t ∧ t.stepBound < s.stepBound := by
  obtain ⟨-, -, -, -, -, hphase⟩ := hs
  by_cases hp : s.phase = .marshal
  · exact marshal_step_lowers_bound ((phaseInv_marshal hp).1 hphase) hd hp ha
  · obtain ⟨d, rfl⟩ := cbc_of_phaseInv hphase hb hp hd
    exact cbc_step_lowers_bound d hphase hb hp ha

/-! ### An accepted command completes -/

/-- What AcceptedCommandCompletes asks of a state: a busy block that nothing holds up. -/
def State.underWay (s : State) : Prop :=
  s.Inv ∧ s.busy = true ∧ s.fatalIn = false ∧ s.admitsEverything ∧ s.inputs = []

/-- The command has completed, and well (42_sequencer.md R171). -/
def State.completed (s : State) : Prop := s.phase = .idle ∧ s.done = true ∧ s.err = none

/-- A step of a command under way is a step nearer to its end, and leaves it under way or completed. -/
theorem step_of_underWay {s : State} (h : s.underWay) :
    ∃ t, step s = .next t ∧ t.stepBound < s.stepBound ∧ (t.underWay ∨ t.completed) := by
  obtain ⟨hs, hb, hf, ha, hi⟩ := h
  obtain ⟨i, hd⟩ := command_of_inv hs hb
  obtain ⟨t, ht, hlt⟩ := exec_lowers_bound hs hb ha hd
  have hstep : step s = .next t := (step_of_busy hb hf hi hd).trans ht
  have heffect : ExecEffect i s t := exec_effect ht
  refine ⟨t, hstep, hlt, ?_⟩
  obtain ⟨herr, ⟨hb', -⟩ | ⟨hp', hdone⟩⟩ := running_effect_flags heffect hb
  · obtain ⟨-, -, -, -, hf', hden', hi', -⟩ := effect_keeps_surroundings heffect
    exact .inl ⟨(everyStepKeepsTheInvariant s t hs hstep).1, hb', hf'.trans hf, hden'.trans ha, hi'.trans hi⟩
  · obtain ⟨-, -, -, hflags, -⟩ := hs
    exact .inr ⟨hp', hdone, herr.trans (hflags hb).2⟩

/-- By induction on the bound: as many steps as it allows are enough. -/
theorem runs_to_completion (n : Nat) {s : State} (h : s.underWay) (hn : s.stepBound ≤ n) :
    ∃ k t, k ≤ n ∧ s.runsTo k t ∧ t.completed := by
  induction n generalizing s with
  | zero =>
    obtain ⟨t, -, hlt, -⟩ := step_of_underWay h
    omega
  | succ n ih =>
    obtain ⟨t, hstep, hlt, hrun | hdone⟩ := step_of_underWay h
    · obtain ⟨k, u, hk, hto, hu⟩ := ih hrun (by omega)
      exact ⟨k + 1, u, by omega, runsTo_succ.2 ⟨t, hstep, hto⟩, hu⟩
    · exact ⟨1, t, by omega, runsTo_succ.2 ⟨t, hstep, (runsTo_zero t t).2 rfl⟩, hdone⟩

/-- Settles O49: the bound of any state is at most `NLEFT + 3`. -/
theorem acceptedCommandCompletes : Obligations.AcceptedCommandCompletes := by
  unfold Obligations.AcceptedCommandCompletes
  intro s hs hb hf ha hi
  exact runs_to_completion (s.nleft + 3) ⟨hs, hb, hf, ha, hi⟩ (stepBound_le s)

/-! ### The considered `CMD` write of a CBC command -/

theorem xfValid_iff {P : List Context} {d : Dir} {h : Nat} :
    xfValid P d h = true ↔ ∃ c ∈ P, c.dir = d ∧ c.handle = h := by
  simp [xfValid]

/-- The three ranges that a CBC command is accepted for (42_sequencer.md R166). -/
def State.cbcRangesFit (s : State) : Prop :=
  s.inAddr + s.len ≤ 2 ^ s.addrWidth ∧ s.outAddr + s.len ≤ 2 ^ s.addrWidth ∧ s.ivAddr + 16 ≤ 2 ^ s.addrWidth

theorem cbcRangesFit_iff {s : State} : s.cbcRangesFit ↔ (inRange s.addrWidth s.inAddr s.len &&
    inRange s.addrWidth s.outAddr s.len && inRange s.addrWidth s.ivAddr 16) = true := by
  simp [State.cbcRangesFit, inRange_iff, and_assoc]

theorem commandCbc_addrRange {s : State} (h : ¬ s.cbcRangesFit) (d : Dir) (w : Word) :
    s.commandCbc d w = s.reject .addrRange w := by
  rw [cbcRangesFit_iff, Bool.not_eq_true] at h
  simp only [State.commandCbc, h, Bool.not_false, if_true]

theorem commandCbc_badCtx {s : State} (h : s.cbcRangesFit) {d : Dir} (hv : xfValid s.contexts d s.ctx = false)
    (w : Word) : s.commandCbc d w = s.reject .badCtx w := by
  simp [State.commandCbc, cbcRangesFit_iff.1 h, hv]

theorem commandCbc_accept {s : State} (h : s.cbcRangesFit) {d : Dir} (hv : xfValid s.contexts d s.ctx = true)
    (w : Word) : s.commandCbc d w =
      { s.accept w .loadIv with nleft := blockCount s.len, rlen := remainder s.len } := by
  simp [State.commandCbc, cbcRangesFit_iff.1 h, hv]

/-- Settles O25: the ranges, then the context, decide. -/
theorem cbcAcceptOrReject : Obligations.CbcAcceptOrReject := by
  unfold Obligations.CbcAcceptOrReject
  intro d s hp fits valid w
  have hw : encode (cbcCommand d) = w := by cases d <;> rfl
  rw [exec_cbc_idle d hp, hw]
  refine ⟨fun hfits => ?_, fun hfits hvalid => ?_, fun hfits hvalid => ?_⟩
  · rw [commandCbc_addrRange hfits]; rfl
  · rw [commandCbc_badCtx hfits (Bool.eq_false_iff.2 fun hv => hvalid (xfValid_iff.1 hv))]; rfl
  · rw [commandCbc_accept hfits (xfValid_iff.2 hvalid)]; rfl

/-! ### The considered `CMD` write of a marshaller command -/

/-- The cursor a marshaller command starts from and its byte count (42_sequencer.md R166). -/
def marshalRange (s : State) (i : Instr) (a c : Nat) : Prop :=
  packs i = some c ∧ a = s.inAddr ∨ unpacks i = some c ∧ a = s.outAddr

theorem exec_marshaller_idle {s : State} {i : Instr} {a c : Nat} (h : marshalRange s i a c) (hp : s.phase = .idle) :
    exec i s = .next (s.commandMarshal i.wf a c (encode i)) := by
  obtain ⟨hi, rfl⟩ | ⟨hi, rfl⟩ := h
  · exact exec_packs_idle hi hp
  · exact exec_unpacks_idle hi hp

/-- A marshaller command is well-formed exactly if its byte count is 1 to 16 (30_encoding.md R92). -/
theorem wf_iff_count {s : State} {i : Instr} {a c : Nat} (h : marshalRange s i a c) :
    i.wf = true ↔ 1 ≤ c ∧ c ≤ 16 := by
  obtain ⟨hi, -⟩ | ⟨hi, -⟩ := h
  · cases i <;> cases hi
    · simp [Instr.wf]
    · exact countLegal_iff
  · cases i <;> cases hi
    · simp [Instr.wf]
    · exact countLegal_iff

theorem commandMarshal_badCount (s : State) (a c : Nat) (w : Word) :
    s.commandMarshal false a c w = s.reject .badCount w :=
  rfl

theorem commandMarshal_addrRange {s : State} {a c : Nat} (h : inRange s.addrWidth a c = false) (w : Word) :
    s.commandMarshal true a c w = s.reject .addrRange w := by
  simp [State.commandMarshal, h]

theorem commandMarshal_accept {s : State} {a c : Nat} (h : inRange s.addrWidth a c = true) (w : Word) :
    s.commandMarshal true a c w = s.accept w .marshal := by
  simp [State.commandMarshal, h]

/-- Settles O26: the count, then the range, decide. -/
theorem marshallerAcceptOrReject : Obligations.MarshallerAcceptOrReject := by
  unfold Obligations.MarshallerAcceptOrReject
  intro s i a c hp hform
  have hrange : marshalRange s i a c := by
    obtain ⟨rfl, ha, rfl⟩ | ⟨cnt, rfl, ha, rfl⟩ | ⟨rfl, ha, rfl⟩ | ⟨cnt, rfl, ha, rfl⟩ := hform
    · exact .inl ⟨rfl, ha⟩
    · exact .inl ⟨rfl, ha⟩
    · exact .inr ⟨rfl, ha⟩
    · exact .inr ⟨rfl, ha⟩
  have hwf := wf_iff_count hrange
  rw [exec_marshaller_idle hrange hp]
  refine ⟨fun hc => ?_, fun h1 h16 hlong => ?_, fun h1 h16 hfits => ?_⟩
  · have hill : i.wf = false := Bool.eq_false_iff.2 fun h => by have := hwf.1 h; omega
    rw [hill, commandMarshal_badCount]; rfl
  · have hout : inRange s.addrWidth a c = false := Bool.eq_false_iff.2 fun h => by have := inRange_iff.1 h; omega
    rw [hwf.2 ⟨h1, h16⟩, commandMarshal_addrRange hout]; rfl
  · rw [hwf.2 ⟨h1, h16⟩, commandMarshal_accept (inRange_iff.2 hfits)]; rfl

/-! ### The phase transition table (42_sequencer.md R172) -/

/-- In IDLE a command is rejected, or its checks pass and it starts in the first phase of its kind. -/
theorem idle_effect_phase {i : Instr} {s t : State} (h : ExecEffect i s t) (hp : s.phase = .idle) :
    (∃ code, t = s.reject code (encode i)) ∨ (t.phase = .loadIv ∧ ∃ d, i = cbcCommand d ∧ s.cbcChecksPass d) ∨
      t.phase = .marshal ∧ s.marshalReady i := by
  cases h with
  | nothing hne => exact absurd hp hne
  | rejected _ code => exact .inl ⟨code, rfl⟩
  | acceptedCbc _ d hi hc => exact .inr (.inl ⟨rfl, d, hi, hc⟩)
  | acceptedMarshal _ hr => exact .inr (.inr ⟨rfl, hr⟩)
  | _ => simp_all

/-- A considered write with `fatal_in` = 0 keeps IDLE or takes the row of its command. -/
theorem phaseEdge_of_write {i : Instr} {s t : State} {v : Nat} {rest : List Input} (hp : s.phase = .idle)
    (hf : s.fatalIn = false) (hi : s.inputs = wr .cmd v :: rest) (hd : decode (BitVec.ofNat 32 v) = .command i)
    (h : ExecEffect i { s with inputs := rest } t) : t.phase = s.phase ∨ PhaseEdge s t.phase := by
  obtain ⟨code, rfl⟩ | ⟨ht, d, rfl, hc⟩ | ⟨ht, hr⟩ := idle_effect_phase (s := { s with inputs := rest }) h hp
  · exact .inl rfl
  · rw [ht]
    exact .inr (.acceptCbc v rest d hp hf hi hd hc)
  · rw [ht]
    exact .inr (.acceptMarshal v rest i hp hf hi hd (by cases i <;> exact hr))

/-- A sequencer step with `fatal_in` = 0 keeps the phase (the block is stuck) or takes the row of its phase. -/
theorem phaseEdge_of_running {i : Instr} {s t : State} {v : Nat} {rest : List Input} (hb : s.busy = true)
    (hf : s.fatalIn = false) (hi : s.sequencerMoves) (h : ExecEffect i { s with inputs := rest, rdData := v } t) :
    t.phase = s.phase ∨ PhaseEdge s t.phase := by
  have hidle : s.phase ≠ .idle := not_idle_of_busy hb
  cases h with
  | nothing => exact .inl rfl
  | rejected hp => exact absurd hp hidle
  | acceptedCbc hp => exact absurd hp hidle
  | acceptedMarshal hp => exact absurd hp hidle
  | loadedIv hp => exact .inr (.loadIv hp hf hi)
  | block hp d _ hn => cases d <;> exact .inr (.block hp hf hi hn)
  | partialBlock hp => exact .inr (.partialBlock hp hf hi)
  | storedIv hp => exact .inr (.storeIv hp hf hi)
  | packed hp => exact .inr (.marshal hp hf hi)
  | unpacked hp => exact .inr (.marshal hp hf hi)

/-- Settles O29: effect by effect of the machine's turn. -/
theorem phaseTransitionsAreTheTable : Obligations.PhaseTransitionsAreTheTable := by
  unfold Obligations.PhaseTransitionsAreTheTable
  intro s t h
  cases turn_effect h with
  | haltedStep _ _ hb hf hi => exact .inr (.fatalStep hb hf hi)
  | haltedWrite rest v hp hf hi => exact .inr (.fatalWrite v rest hp hf hi)
  | wrote _ _ _ _ hp hf hi hd ht => exact phaseEdge_of_write hp hf hi hd ht
  | stepped _ _ _ _ hb hf hi _ ht => exact phaseEdge_of_running hb hf hi ht
  | register _ r v => exact .inl (phase_writeReg _ r v)
  | reset rest hi => exact .inr (.reset rest hi)
  | _ => exact .inl rfl

/-! ### The LOAD_IV and STORE_IV steps -/

/-- `next(n, r)` by the numbers (42_sequencer.md R169). -/
theorem nextPhase_eq (n : Nat) (r : BitVec 4) :
    nextPhase n r = if n > 0 then .block else if r.toNat ≠ 0 then .partialBlock else .storeIv := by
  have hr : r ≠ 0 ↔ r.toNat ≠ 0 := not_congr BitVec.toNat_eq
  simp only [nextPhase, hr, Nat.pos_iff_ne_zero]

/-- Settles O30. -/
theorem loadIvStep : Obligations.LoadIvStep := by
  unfold Obligations.LoadIvStep
  refine ⟨fun d s hp hr ha => ?_, fun d s t hp ht herr => ?_⟩
  · rw [loadIv_happens d hp (inRange_iff.2 hr) ha, State.loadIvBody, nextPhase_eq]
  · obtain ⟨code, rfl⟩ | ⟨hphase, -⟩ | ⟨-, hr⟩ := idle_effect_phase (exec_effect ht) hp
    · cases herr
    · exact hphase
    · cases d <;> exact hr.elim

/-- The first `c` bytes of a quad read back from where they were stored. -/
theorem readBytes_writeBytes_unpack {aw : Nat} {m : Memory} {a c : Nat} (q : Quad) (h : m.wf aw = true)
    (hw : inRange aw a c = true) : (m.writeBytes a (unpack q c)).readBytes a c = unpack q c := by
  have hl : (unpack q c).length = c := length_unpack q c
  have hback := Memory.readBytes_writeBytes h (s := unpack q c) (hl.symm ▸ inRange_iff.1 hw)
  rwa [hl] at hback

theorem read_writeBytes_unpack_outside (m : Memory) (q : Quad) {a c x : Nat} (hx : ¬ (a ≤ x ∧ x < a + c)) :
    (m.writeBytes a (unpack q c)).read x = m.read x :=
  Memory.read_writeBytes_outside m a _ (by rwa [length_unpack])

/-- Settles O31: the step happens, and memory is what storing the 16 bytes of `CV` makes of it. -/
theorem storeIvStep : Obligations.StoreIvStep := by
  unfold Obligations.StoreIvStep
  intro d s hp hw ha hm
  have hiv : inRange s.addrWidth s.ivAddr 16 = true := inRange_iff.2 hw
  refine ⟨s.storeIvBody, storeIv_happens d hp hiv ha, rfl, ?_⟩
  rw [State.storeIvBody_mem, State.storeIvBody_addrWidth]
  exact ⟨readBytes_writeBytes_unpack s.cv hm hiv, fun x hx => read_writeBytes_unpack_outside s.mem s.cv hx,
    wf_writeBytes_unpack s.cv hm hiv⟩

/-! ### The XOR unit -/

/-- Settles O10, word by word. -/
theorem xorUnitIsWordWise : Obligations.XorUnitIsWordWise := by
  unfold Obligations.XorUnitIsWordWise
  intro p q i hi
  match i, hi with
  | 0, _ => rfl
  | 1, _ => rfl
  | 2, _ => rfl
  | 3, _ => rfl

/-! ### Whose turn it is (42_sequencer.md R160, R161) -/

/-- A considered write of a word that decodes to a command runs the command. -/
theorem considerWrite_command {s : State} {w : Word} {i : Instr} (hp : s.phase = .idle) (hf : s.fatalIn = false)
    (hd : decode w = .command i) : considerWrite w s = exec i s := by
  simp [considerWrite, hp, hf, hd]

theorem decode_of_decodeTableWord {nbits w : Nat} {i : Instr} (h : decodeTableWord nbits w = some i) :
    decode (tableWord nbits w) = .command i := by
  unfold decodeTableWord at h
  split at h
  · next j hd => exact hd.trans (congrArg _ (Option.some.inj h))
  · cases h

/-- Settles O21. -/
theorem commandWriteRunsTheCommand : Obligations.CommandWriteRunsTheCommand := by
  unfold Obligations.CommandWriteRunsTheCommand
  refine ⟨fun s v rest i hp hf hi hd => ?_, fun s nbits w i hw => ?_⟩
  · exact (step_wr_cmd hi).trans (considerWrite_command (s := { s with inputs := rest }) hp hf hd)
  · have hd : decode (BitVec.ofNat 32 (tableWord nbits w).toNat) = .command i := by
      rw [BitVec.ofNat_toNat, BitVec.setWidth_eq]
      exact decode_of_decodeTableWord hw
    have hstep := step_wr_cmd (s := s.withFetchWord nbits w) (v := (tableWord nbits w).toNat) (rest := s.inputs) rfl
    exact hstep.trans (considerWrite_command rfl rfl hd)

/-- Settles O22: each event form is a sequencer's turn. -/
theorem sequencerRunsTheAcceptedCommand : Obligations.SequencerRunsTheAcceptedCommand := by
  unfold Obligations.SequencerRunsTheAcceptedCommand
  intro s i rest hb hf hd
  refine ⟨fun hi => step_of_busy hb hf hi hd, fun hi => ?_, fun hi => ?_⟩
  · exact (step_of_event hi).trans (sequencerTurn_of_busy (s := { s with inputs := rest }) hb hf hd)
  · have hround : takeInput .wait rest s =
        sequencerTurn { s with inputs := .wait :: rest, rdData := s.status.toNat } := if_pos hb
    rw [step_of_event hi, hround, ← hi]
    exact sequencerTurn_of_busy (s := { s with rdData := s.status.toNat }) hb hf hd

/-- Settles O23. -/
theorem noEnabledStepNoChange : Obligations.NoEnabledStepNoChange := by
  unfold Obligations.NoEnabledStepNoChange
  intro s hp hi
  have hb : s.busy = false := by obtain hp | hp := hp <;> rw [State.busy, hp] <;> rfl
  exact (step_of_no_event hi).trans (sequencerTurn_of_not_busy hb)

/-! ### The hypotheses can be met -/

/-- A PARTIAL step. -/
theorem witness_noStepFaultsUnderTheInvariant :
    ∃ s, step lastBlockLeft = .next s ∧ s.phase = .partialBlock ∧ ∃ t, step s = .next t := by
  obtain ⟨s, hs, hp, hinv, -⟩ := witness_everyStepKeepsTheInvariant
  exact ⟨s, hs, hp, noStepFaultsUnderTheInvariant s hinv⟩

/-- From PARTIAL, with no full block left: the two last steps of a command. -/
theorem witness_acceptedCommandCompletes :
    ∃ s, step lastBlockLeft = .next s ∧ s.phase = .partialBlock ∧
      ∃ k t, k ≤ 3 ∧ s.runsTo k t ∧ t.phase = .idle ∧ t.done = true ∧ t.err = none := by
  obtain ⟨s, hs, hp, hinv, -⟩ := witness_everyStepKeepsTheInvariant
  cases hs
  exact ⟨_, rfl, rfl, acceptedCommandCompletes _ hinv rfl rfl rfl rfl⟩

/-- 33 bytes: past the top of the space, without a context of the direction, and accepted. -/
theorem witness_cbcAcceptOrReject :
    exec .cbcEnc { twoBlocksAndAByte with inAddr := 2 ^ 64 - 32 } =
      .next { twoBlocksAndAByte with inAddr := 2 ^ 64 - 32, err := some .addrRange, errInfo := 1 } ∧
    exec .cbcDec twoBlocksAndAByte = .next { twoBlocksAndAByte with err := some .badCtx, errInfo := 2 } ∧
    exec .cbcEnc twoBlocksAndAByte =
      .next { twoBlocksAndAByte with cmd := 1, phase := .loadIv, nleft := 2, rlen := 1 } :=
  ⟨(cbcAcceptOrReject .enc { twoBlocksAndAByte with inAddr := 2 ^ 64 - 32 } rfl).1 (by decide),
    (cbcAcceptOrReject .dec twoBlocksAndAByte rfl).2.1 (by decide) (by decide),
    (cbcAcceptOrReject .enc twoBlocksAndAByte rfl).2.2 (by decide) (by decide)⟩

/-- An idle block of 16 bytes of memory, its input cursor two bytes from the top. -/
def idleAtTheTop : State := { State.reset with addrWidth := 4, inAddr := 14 }

/-- A count past 16, one byte too many, and a range up to the top. -/
theorem witness_marshallerAcceptOrReject :
    exec (.packP 17) idleAtTheTop = .next { idleAtTheTop with err := some .badCount, errInfo := 0x115 } ∧
    exec (.packP 3) idleAtTheTop = .next { idleAtTheTop with err := some .addrRange, errInfo := 0x35 } ∧
    exec (.packP 2) idleAtTheTop = .next { idleAtTheTop with cmd := 0x25, phase := .marshal } := by
  have hall (cnt : BitVec 5) :=
    marshallerAcceptOrReject idleAtTheTop (.packP cnt) 14 cnt.toNat rfl (.inr (.inl ⟨cnt, rfl, rfl, rfl⟩))
  exact ⟨(hall 17).1 (by decide), (hall 3).2.1 (by decide) (by decide) (by decide),
    (hall 2).2.2 (by decide) (by decide) (by decide)⟩

/-- The row from BLOCK to PARTIAL. -/
theorem witness_phaseTransitionsAreTheTable : PhaseEdge lastBlockLeft .partialBlock := by
  obtain ⟨t, ht, hp, -⟩ := witness_everyStepKeepsTheInvariant
  obtain hkeep | hedge := phaseTransitionsAreTheTable lastBlockLeft t ht
  · exact absurd (hp.symm.trans hkeep) nofun
  · exact hp ▸ hedge

/-- `CBC.ENC` before its LOAD_IV step, with one block to follow and the IV at the top of the space. -/
def topIvToLoad : State := { ivToLoad with ivAddr := 2 ^ 64 - 16, mem := [(2 ^ 64 - 1, 7)] }

/-- `CBC.ENC` before its STORE_IV step, with the IV to go to the top of the space. -/
def topIvToStore : State := { ivToStore with ivAddr := 2 ^ 64 - 16, cv := ⟨0, 0, 0, 7⟩ }

/-- The step of an accepted command, and an acceptance. -/
theorem witness_loadIvStep :
    exec .cbcEnc topIvToLoad = .next { topIvToLoad with cv := ⟨0, 0, 0, 7⟩, phase := .block } ∧
      ∃ t, exec .cbcEnc twoBlocksAndAByte = .next t ∧ t.phase = .loadIv := by
  obtain ⟨hload, haccept⟩ := loadIvStep
  have hcv : pack (topIvToLoad.mem.readBytes topIvToLoad.ivAddr 16) = ⟨0, 0, 0, 7⟩ := by decide
  have hstep := hload .enc topIvToLoad rfl (by decide) (by decide)
  rw [hcv] at hstep
  obtain ⟨t, ht, herr⟩ : ∃ t, exec .cbcEnc twoBlocksAndAByte = .next t ∧ t.err = none := ⟨_, rfl, rfl⟩
  exact ⟨hstep, t, ht, haccept .enc _ t rfl ht herr⟩

theorem witness_storeIvStep : ∃ t, exec .cbcEnc topIvToStore = .next t ∧
    t.mem.readBytes (2 ^ 64 - 16) 16 = unpack ⟨0, 0, 0, 7⟩ 16 ∧ t.mem.read 0 = 0 := by
  obtain ⟨t, ht, -, hiv, hother, -⟩ := storeIvStep .enc topIvToStore rfl (by decide) (by decide) (by decide)
  exact ⟨t, ht, hiv, hother 0 (by decide)⟩

/-- The last word of two quads. -/
theorem witness_xorUnitIsWordWise : (Quad.xor ⟨0, 0, 0, 0xFF00FF00⟩ ⟨0, 0, 0, 0x0FF00FF0⟩).get 3 = 0xF0F0F0F0 :=
  (xorUnitIsWordWise _ _ 3 (by decide)).trans (by decide)

/-- `PACK.P 5`, written to `CMD`, and placed there as a table word. -/
theorem witness_commandWriteRunsTheCommand :
    step { State.reset with inputs := [wr .cmd 0x55] } = exec (.packP 5) State.reset ∧
      step (State.reset.withFetchWord 32 0x55) = exec (.packP 5) State.reset :=
  ⟨commandWriteRunsTheCommand.1 { State.reset with inputs := [wr .cmd 0x55] } 0x55 [] _ rfl rfl rfl (by decide),
    commandWriteRunsTheCommand.2 State.reset 32 0x55 _ (by decide)⟩

/-- A BLOCK step with no event listed, at the sequencer's event, and in a `wait`. -/
theorem witness_sequencerRunsTheAcceptedCommand :
    step lastBlockLeft = exec .cbcEnc lastBlockLeft ∧
    step { lastBlockLeft with inputs := [.sequencer] } = exec .cbcEnc lastBlockLeft ∧
    step { lastBlockLeft with inputs := [.wait] } =
      exec .cbcEnc { lastBlockLeft with inputs := [.wait], rdData := 0x201 } := by
  have hd : decode lastBlockLeft.cmd = .command .cbcEnc := by decide
  have hall (inputs : List Input) :=
    sequencerRunsTheAcceptedCommand { lastBlockLeft with inputs := inputs } .cbcEnc [] rfl rfl hd
  exact ⟨(hall []).1 rfl, (hall [.sequencer]).2.1 rfl, (hall [.wait]).2.2 rfl⟩

theorem witness_noEnabledStepNoChange :
    step State.reset = .next State.reset ∧
      step { State.reset with phase := .halt } = .next { State.reset with phase := .halt } :=
  ⟨noEnabledStepNoChange _ (.inl rfl) rfl, noEnabledStepNoChange _ (.inr rfl) rfl⟩

end Sys2Proof.Machine

/-! PROOF. The encryption engine: what its BLOCK and its PARTIAL step leave, in full. -/

namespace Sys2Proof.Machine

/-! ### The pass and the two steps -/

/-- The provider's answer in an encryption step over `c` input bytes (43_cbc_encrypt.md R191, R192). -/
def State.encAnswer (s : State) (c : Nat) : Block × List Byte :=
  Config.xfEnc s.contexts s.ctx (quadBlock ((pack (s.mem.readBytes s.inAddr c)).xor s.cv))

/-- A pass of the encryption engine: the first `c` bytes of the answer are written, all of it is carried. -/
theorem encPass_eq (s : State) {c : Nat} (hc : c ≤ 16) : s.encPass c =
    { s with
      tin := pack (s.mem.readBytes s.inAddr c), inAddr := (s.inAddr + c) % 2 ^ s.addrWidth
      tout := pack (s.encAnswer c).1.bytes, contexts := setContext s.contexts .enc s.ctx (s.encAnswer c).2
      mem := s.mem.writeBytes s.outAddr ((s.encAnswer c).1.bytes.take c)
      outAddr := (s.outAddr + c) % 2 ^ s.addrWidth, cv := pack (s.encAnswer c).1.bytes } := by
  rw [← unpack_pack_block_take _ hc]
  rfl

/-- A store of the first `c` bytes of a block is read back there, and nowhere else. -/
theorem writeBytes_block_take {aw : Nat} {m : Memory} (b : Block) {a c : Nat} (hc : c ≤ 16) (h : m.wf aw = true)
    (hw : inRange aw a c = true) : (m.writeBytes a (b.bytes.take c)).readBytes a c = b.bytes.take c ∧
      ∀ x, ¬ (a ≤ x ∧ x < a + c) → (m.writeBytes a (b.bytes.take c)).read x = m.read x := by
  rw [← unpack_pack_block_take b hc]
  exact ⟨readBytes_writeBytes_unpack _ h hw, fun x hx => read_writeBytes_unpack_outside m _ hx⟩

/-- Settles O32: the step is the engine's pass over 16 bytes. -/
theorem encryptBlockStep : Obligations.EncryptBlockStep := by
  unfold Obligations.EncryptBlockStep
  intro s hp hn hin hout har haw hm tin y
  have hw : inRange s.addrWidth s.outAddr 16 = true := inRange_iff.2 hout
  obtain ⟨hback, hother⟩ := writeBytes_block_take y.1 le_rfl hm hw
  have hfull : y.1.bytes.take 16 = y.1.bytes := List.take_of_length_le y.1.length_eq.le
  rw [hfull] at hback hother
  refine ⟨_, (block_happens .enc hp hn (inRange_iff.2 hin) hw har haw).trans ?_, rfl, hback, unpack_pack_block _,
    hother⟩
  have hpass := encPass_eq s (c := 16) le_rfl
  have hanswer : s.encAnswer 16 = y := rfl
  rw [hanswer, hfull] at hpass
  rw [State.cbcPass, hpass, ← nextPhase_eq]
  rfl

/-- Settles O33: the step is the engine's pass over `RLEN` bytes, on a message block padded with zeros. -/
theorem encryptPartialStep : Obligations.EncryptPartialStep := by
  unfold Obligations.EncryptPartialStep
  intro s hp hn r hin hout har haw hm tin x y
  have hr : r ≤ 16 := s.rlen.isLt.le
  have hw : inRange s.addrWidth s.outAddr r = true := inRange_iff.2 hout
  obtain ⟨hback, hother⟩ := writeBytes_block_take y.1 hr hm hw
  have hxor (k : Nat) (hk : k < 16) : (unpack x 16).getD k 0 =
      (if k < r then s.mem.read (s.inAddr + k) else 0) ^^^ (unpack s.cv 16).getD k 0 := by
    rw [getD_unpack _ hk, getD_unpack _ hk, quadByte_xor, quadByte_pack_readBytes _ _ _ hk]
  refine ⟨_, (partialBlock_happens .enc hp hn (inRange_iff.2 hin) hw har haw).trans ?_, rfl, hxor, hback,
    unpack_pack_block _, hother⟩
  rw [State.cbcPass, encPass_eq s hr]
  rfl

/-! ### The hypotheses can be met -/

/-- The last full block, with five bytes to follow. -/
theorem witness_encryptBlockStep : ∃ t, exec .cbcEnc lastBlockLeft = .next t ∧ t.phase = .partialBlock ∧
    t.inAddr = 16 ∧ unpack t.cv 16 = t.mem.readBytes 0 16 := by
  obtain ⟨t, hstep, ht, hback, hcv, -⟩ :=
    encryptBlockStep lastBlockLeft rfl (by decide) (by decide) (by decide) (by decide) (by decide) (by decide)
  exact ⟨t, hstep, by rw [ht]; rfl, by rw [ht]; rfl, hcv.trans hback.symm⟩

/-- `CBC.ENC` before its PARTIAL step of five bytes, with a byte of another's after them. -/
def fiveBytesLeft : State := { lastBlockLeft with phase := .partialBlock, nleft := 0, mem := [(5, 7)] }

/-- The PARTIAL step leaves the byte after its output alone. -/
theorem witness_encryptPartialStep : ∃ t, exec .cbcEnc fiveBytesLeft = .next t ∧ t.phase = .storeIv ∧
    t.outAddr = 5 ∧ t.mem.readBytes 0 5 = (unpack t.cv 16).take 5 ∧ t.mem.read 5 = 7 := by
  obtain ⟨t, hstep, ht, -, hback, hcv, hother⟩ :=
    encryptPartialStep fiveBytesLeft rfl (by decide) (by decide) (by decide) (by decide) (by decide) (by decide)
  exact ⟨t, hstep, by rw [ht], by rw [ht]; rfl, by rw [hcv]; exact hback, hother 5 (by decide)⟩

end Sys2Proof.Machine

/-! PROOF. A whole CBC command: the passes of either engine as one chain over the bytes left, from the acceptance to the
STORE_IV step. -/

namespace Sys2Proof.Machine

/-! ### Ranges that a cursor has advanced into -/

/-- The bytes of the rest of a range are read from the advanced cursor, whether or not any is left. -/
theorem readBytes_advance {aw n m : Nat} {a : Nat} (h : inRange aw a (n + m) = true) (mem : Memory) :
    mem.readBytes (advance aw a n) m = mem.readBytes (a + n) m := by
  rcases Nat.eq_zero_or_pos m with rfl | hm
  · rfl
  · rw [advance_eq h hm]

/-- The rest of a range is written from the advanced cursor, whether or not any is left. -/
theorem writeBytes_advance {aw n : Nat} {a : Nat} {out : List Byte} (h : inRange aw a (n + out.length) = true)
    (mem : Memory) : mem.writeBytes (advance aw a n) out = mem.writeBytes (a + n) out := by
  cases out with
  | nil => rfl
  | cons b out => rw [advance_eq h (Nat.succ_pos _)]

/-- A read of bytes apart from those written does not see the write. -/
theorem readBytes_writeBytes_apart (mem : Memory) {a b n : Nat} {out : List Byte}
    (h : a + n ≤ b ∨ b + out.length ≤ a) : (mem.writeBytes b out).readBytes a n = mem.readBytes a n :=
  Memory.readBytes_congr fun k hk => Memory.read_writeBytes_outside mem b out (by omega)

/-- With an output cursor `o` and an input cursor `i`, writes trail reads for the next `n` bytes (20_memory.md R77 (a),
(b)). -/
def trails (o i n : Nat) : Prop := o ≤ i ∨ i + n ≤ o

theorem trails_advance {aw o i n m : Nat} (h : trails o i (n + m)) (ho : inRange aw o (n + m) = true)
    (hi : inRange aw i (n + m) = true) : trails (advance aw o n) (advance aw i n) m := by
  unfold trails at *
  rcases Nat.eq_zero_or_pos m with rfl | hm
  · omega
  · rw [advance_eq ho hm, advance_eq hi hm]
    omega

/-! ### The chain of passes up to STORE_IV -/

/-- The bytes of its message that a CBC command has still to process (10_state.md R39, R40). -/
def State.bytesLeft (s : State) : Nat := 16 * s.nleft + s.rlen.toNat

/-- A CBC command of direction `d` under way, its chaining value loaded and no PARTIAL step behind it. -/
def State.chaining (s : State) (d : Dir) : Prop :=
  s.underWay ∧ s.cmd = encode (cbcCommand d) ∧ s.phase = nextPhase s.nleft s.rlen ∧
  trails s.outAddr s.inAddr s.bytesLeft

/-- `t` is `s` in STORE_IV, after passes over `n` bytes whose chain left `r`. -/
def State.chainedTo (s : State) (n : Nat) (r : ChainResult) (t : State) : Prop :=
  r.output.length = n ∧ unpack t.cv 16 = r.carry ∧ t.phase = .storeIv ∧
  t = { s with
    phase := t.phase, inAddr := advance s.addrWidth s.inAddr n, outAddr := advance s.addrWidth s.outAddr n
    mem := s.mem.writeBytes s.outAddr r.output, contexts := r.contexts
    cv := t.cv, tin := t.tin, tout := t.tout, nleft := t.nleft }

theorem chain_nil (d : Dir) (h : Nat) (v : List Byte) (P : List Context) : chain d h [] v P = ⟨[], v, P⟩ := by
  cases d <;> rfl

/-- The registers and the memory that a pass of either engine changes, and how far it moves the cursors. -/
theorem cbcPass_frame (s : State) (d : Dir) (c : Nat) : s.cbcPass d c =
    { s with
      inAddr := advance s.addrWidth s.inAddr c, outAddr := advance s.addrWidth s.outAddr c
      mem := (s.cbcPass d c).mem, contexts := (s.cbcPass d c).contexts
      cv := (s.cbcPass d c).cv, tin := (s.cbcPass d c).tin, tout := (s.cbcPass d c).tout } := by
  cases d <;> rfl

/-- In STORE_IV no pass is left. -/
theorem chainedTo_refl {s : State} (hp : s.phase = .storeIv) (hv : s.valuesFit) :
    s.chainedTo 0 ⟨[], unpack s.cv 16, s.contexts⟩ s := by
  obtain ⟨hin, hout, -⟩ := hv
  refine ⟨rfl, rfl, hp, ?_⟩
  rw [advance_zero hin, advance_zero hout]
  rfl

/-- A pass over `c` bytes puts one link before the chain of the passes that follow it. -/
theorem chainedTo_of_pass {s t : State} {d : Dir} {c m n : Nat} {p : Phase} {segs : List (List Byte)} (hc : c ≤ 16)
    (hout : inRange s.addrWidth s.outAddr (c + m) = true)
    (h : State.chainedTo { s.cbcPass d c with nleft := n, phase := p } m
      (chain d s.ctx segs (unpack (s.cbcPass d c).cv 16) (s.cbcPass d c).contexts) t) :
    s.chainedTo (c + m) (chain d s.ctx (s.mem.readBytes s.inAddr c :: segs) (unpack s.cv 16) s.contexts) t := by
  obtain ⟨out, hlen, hmem, hlink⟩ := pass_is_link s d hc
  obtain ⟨hl, hcarry, hp, ht⟩ := h
  simp only [hlink]
  refine ⟨by rw [List.length_append, hlen, hl], hcarry, hp, ht.trans ?_⟩
  rw [cbcPass_frame]
  simp only [hmem, advance_advance, Memory.writeBytes_append, hlen]
  rw [writeBytes_advance (by rw [hl]; exact hout)]

/-- The input bytes that follow a pass are unchanged by it where its writes trail its reads. -/
theorem readBytes_after_pass {s : State} (d : Dir) {c m : Nat} (hc : c ≤ 16)
    (hin : inRange s.addrWidth s.inAddr (c + m) = true) (ht : trails s.outAddr s.inAddr (c + m)) :
    (s.cbcPass d c).mem.readBytes (advance s.addrWidth s.inAddr c) m = s.mem.readBytes (s.inAddr + c) m := by
  obtain ⟨out, hlen, hmem, -⟩ := pass_is_link s d hc
  unfold trails at ht
  rw [hmem, readBytes_advance hin]
  exact readBytes_writeBytes_apart _ (by omega)

theorem segments_succ (n : Nat) {a : List Byte} (ha : a.length = 16) (b : List Byte) :
    segments (n + 1) (a ++ b) = a :: segments n b := by
  rw [segments, List.take_left' ha, List.drop_left' ha]

theorem segments_zero {a : List Byte} (ha : a.length ≠ 0) : segments 0 a = [a] :=
  if_neg fun h => ha (congrArg List.length h)

theorem underWay_of_step {s t : State} (h : s.underWay) (hstep : step s = .next t) (hb : t.busy = true) :
    t.underWay := by
  obtain ⟨hs, hbusy, hf, ha, hi⟩ := h
  obtain ⟨i, hd⟩ := command_of_inv hs hbusy
  obtain ⟨-, -, -, -, hf', hden, hi', -⟩ :=
    effect_keeps_surroundings (exec_effect ((step_of_busy hbusy hf hi hd).symm.trans hstep))
  exact ⟨(everyStepKeepsTheInvariant s t hs hstep).1, hb, hf'.trans hf, hden.trans ha, hi'.trans hi⟩

/-- The next step of a CBC command under way. -/
theorem step_of_cbc_underWay {s : State} {d : Dir} (h : s.underWay) (hc : s.cmd = encode (cbcCommand d)) :
    step s = exec (cbcCommand d) s := by
  obtain ⟨-, hb, hf, -, hi⟩ := h
  exact step_of_busy hb hf hi (by rw [hc]; exact decode_encode (by cases d <;> rfl))

/-- With a full block left the phase is BLOCK, and the bytes left lie in the address space. -/
theorem chaining_block {s : State} {d : Dir} (h : s.chaining d) (hn : s.nleft ≠ 0) :
    s.phase = .block ∧ inRange s.addrWidth s.inAddr s.bytesLeft = true ∧
      inRange s.addrWidth s.outAddr s.bytesLeft = true := by
  obtain ⟨⟨⟨-, -, -, -, -, hinv⟩, -⟩, -, hp, -⟩ := h
  rw [nextPhase, if_pos hn] at hp
  obtain ⟨-, -, ⟨-, -, hin, hout⟩, -⟩ := (phaseInv_block hp).1 hinv
  exact ⟨hp, hin, hout⟩

/-- A BLOCK step leaves the command where the passes over one block less begin. -/
theorem chaining_step_block {s : State} {d : Dir} (h : s.chaining d) (hn : s.nleft ≠ 0) :
    step s = .next (s.cbcPass d 16).endBlock ∧ (s.cbcPass d 16).endBlock.chaining d := by
  obtain ⟨hp, hin, hout⟩ := chaining_block h hn
  obtain ⟨hw, hc, -, ht⟩ := h
  obtain ⟨-, -, -, ha, -⟩ := id hw
  have hall := admitsAll_of_everything ha
  have hleft : s.bytesLeft = 16 + (16 * (s.nleft - 1) + s.rlen.toNat) := by unfold State.bytesLeft; omega
  have hstep : step s = .next (s.cbcPass d 16).endBlock := (step_of_cbc_underWay hw hc).trans
    (block_happens d hp hn (inRange_mono hin (by omega)) (inRange_mono hout (by omega)) (hall _ _ _) (hall _ _ _))
  have hw' := underWay_of_step hw hstep (by cases d <;> exact busy_nextPhase _)
  rw [hleft] at hin hout ht
  have ht' := trails_advance ht hout hin
  refine ⟨hstep, hw', ?_⟩
  cases d <;> exact ⟨hc, rfl, ht'⟩

/-- A PARTIAL step is the last pass of a command. -/
theorem chaining_step_partial {s : State} {d : Dir} (h : s.chaining d) (hn : s.nleft = 0) (hr : s.rlen ≠ 0) :
    step s = .next (s.cbcPass d s.rlen.toNat).endPartial ∧ (s.cbcPass d s.rlen.toNat).endPartial.underWay ∧
      inRange s.addrWidth s.outAddr s.rlen.toNat = true := by
  obtain ⟨hw, hc, hp, -⟩ := h
  obtain ⟨⟨-, -, -, -, -, hinv⟩, -, -, ha, -⟩ := id hw
  have hall := admitsAll_of_everything ha
  rw [nextPhase, if_neg (not_not.2 hn), if_pos hr] at hp
  obtain ⟨-, -, ⟨-, -, hin, hout⟩, -⟩ := (phaseInv_partialBlock hp).1 hinv
  have hout' : inRange s.addrWidth s.outAddr s.rlen.toNat = true := inRange_mono hout (by omega)
  have hstep : step s = .next (s.cbcPass d s.rlen.toNat).endPartial := (step_of_cbc_underWay hw hc).trans
    (partialBlock_happens d hp hr (inRange_mono hin (by omega)) hout' (hall _ _ _) (hall _ _ _))
  exact ⟨hstep, underWay_of_step hw hstep rfl, hout'⟩

/-- The PARTIAL step that a remainder of `r` bytes takes, if any (42_sequencer.md R169). -/
def partialSteps (r : BitVec 4) : Nat := if r = 0 then 0 else 1

/-- What the chain over the bytes left leaves. -/
def State.chainLeft (s : State) (d : Dir) : ChainResult :=
  chain d s.ctx (segments s.nleft (s.mem.readBytes s.inAddr s.bytesLeft)) (unpack s.cv 16) s.contexts

/-- With no full block left: a PARTIAL step, or none. -/
theorem passes_run_zero {s : State} {d : Dir} (h : s.chaining d) (hn : s.nleft = 0) :
    ∃ t, s.runsTo (partialSteps s.rlen) t ∧ t.underWay ∧ s.chainedTo s.bytesLeft (s.chainLeft d) t := by
  have hleft : s.bytesLeft = s.rlen.toNat := by unfold State.bytesLeft; omega
  rw [State.chainLeft, hleft, hn]
  by_cases hr : s.rlen = 0
  · obtain ⟨hw, -, hp, -⟩ := h
    rw [nextPhase, if_neg (not_not.2 hn), if_neg (not_not.2 hr)] at hp
    obtain ⟨⟨-, hv, -⟩, -⟩ := id hw
    have hnil : segments 0 (s.mem.readBytes s.inAddr 0) = [] := rfl
    have h0 : s.rlen.toNat = 0 := congrArg BitVec.toNat hr
    rw [partialSteps, if_pos hr, h0, hnil, chain_nil]
    exact ⟨s, (runsTo_zero s s).2 rfl, hw, chainedTo_refl hp hv⟩
  · obtain ⟨hstep, hw, hout⟩ := chaining_step_partial h hn hr
    obtain ⟨⟨-, hv, -⟩, -⟩ := id hw
    have hr' : s.rlen.toNat ≠ 0 := fun h0 => hr (BitVec.eq_of_toNat_eq h0)
    rw [partialSteps, if_neg hr, segments_zero (by rwa [Memory.length_readBytes])]
    refine ⟨_, runsTo_succ.2 ⟨_, hstep, (runsTo_zero _ _).2 rfl⟩, hw, ?_⟩
    refine chainedTo_of_pass (m := 0) (n := (s.cbcPass d s.rlen.toNat).nleft) (p := .storeIv) s.rlen.isLt.le hout ?_
    rw [chain_nil]
    exact chainedTo_refl rfl hv

/-- The chain over the bytes left is the link of a BLOCK step and the chain over those left after it. -/
theorem chainedTo_of_block {s t : State} {d : Dir} (h : s.chaining d) (hn : s.nleft ≠ 0)
    (ht : (s.cbcPass d 16).endBlock.chainedTo (s.cbcPass d 16).endBlock.bytesLeft
      ((s.cbcPass d 16).endBlock.chainLeft d) t) : s.chainedTo s.bytesLeft (s.chainLeft d) t := by
  obtain ⟨-, hin, hout⟩ := chaining_block h hn
  obtain ⟨-, -, -, htrail⟩ := h
  have hleft : s.bytesLeft = 16 + (16 * (s.nleft - 1) + s.rlen.toNat) := by unfold State.bytesLeft; omega
  have hsegs : segments s.nleft (s.mem.readBytes s.inAddr s.bytesLeft) = s.mem.readBytes s.inAddr 16 ::
      segments (s.nleft - 1) (s.mem.readBytes (s.inAddr + 16) (16 * (s.nleft - 1) + s.rlen.toNat)) := by
    rw [hleft, Memory.readBytes_add, ← segments_succ _ (Memory.length_readBytes _ _ _), Nat.sub_add_cancel (by omega)]
  rw [hleft] at hin hout htrail
  rw [State.chainLeft, hsegs, hleft]
  refine chainedTo_of_pass (n := s.nleft - 1) (p := nextPhase (s.nleft - 1) s.rlen) le_rfl hout ?_
  rw [← readBytes_after_pass d le_rfl hin htrail]
  cases d <;> exact ht

/-- The passes over the bytes left, by induction on the full blocks among them. -/
theorem passes_run (n : Nat) {s : State} {d : Dir} (h : s.chaining d) (hn : s.nleft = n) :
    ∃ t, s.runsTo (n + partialSteps s.rlen) t ∧ t.underWay ∧ s.chainedTo s.bytesLeft (s.chainLeft d) t := by
  induction n generalizing s with
  | zero => rw [Nat.zero_add]; exact passes_run_zero h hn
  | succ n ih =>
    have hn0 : s.nleft ≠ 0 := by omega
    obtain ⟨hstep, h'⟩ := chaining_step_block h hn0
    have hframe : (s.cbcPass d 16).endBlock.nleft = s.nleft - 1 ∧ (s.cbcPass d 16).endBlock.rlen = s.rlen := by
      cases d <;> exact ⟨rfl, rfl⟩
    obtain ⟨hnleft, hrlen⟩ := hframe
    obtain ⟨t, hto, hw, hchain⟩ := ih h' (by omega)
    rw [hrlen] at hto
    exact ⟨t, by rw [Nat.succ_add]; exact runsTo_succ.2 ⟨_, hstep, hto⟩, hw, chainedTo_of_block h hn0 hchain⟩

/-! ### The whole command -/

/-- The state that the acceptance of a CBC command of direction `d` leaves, with `rest` of the list of events
(42_sequencer.md R164). -/
def State.acceptedCbc (s : State) (d : Dir) (rest : List Input) : State :=
  { s.accept (encode (cbcCommand d)) .loadIv with
    nleft := blockCount s.len, rlen := remainder s.len, inputs := rest }

theorem cbcRangesFit_of_checks {s : State} {d : Dir} (h : s.cbcChecksPass d) : s.cbcRangesFit := by
  obtain ⟨hin, hout, hiv, -⟩ := h
  exact ⟨inRange_iff.1 hin, inRange_iff.1 hout, inRange_iff.1 hiv⟩

theorem decode_command (d : Dir) :
    decode (BitVec.ofNat 32 (encode (cbcCommand d)).toNat) = .command (cbcCommand d) := by
  rw [BitVec.ofNat_toNat, BitVec.setWidth_eq]
  exact decode_encode (by cases d <;> rfl)

/-- A considered write of a CBC command whose checks pass is its acceptance. -/
theorem step_acceptCbc {s : State} {d : Dir} {rest : List Input} (hp : s.phase = .idle) (hf : s.fatalIn = false)
    (hc : s.cbcChecksPass d) (hi : s.inputs = command (cbcCommand d) :: rest) :
    step s = .next (s.acceptedCbc d rest) := by
  have hfits : State.cbcRangesFit { s with inputs := rest } := cbcRangesFit_of_checks hc
  obtain ⟨-, -, -, hv⟩ := hc
  calc step s = exec (cbcCommand d) { s with inputs := rest } :=
        (step_wr_cmd hi).trans (considerWrite_command (s := { s with inputs := rest }) hp hf (decode_command d))
    _ = .next (State.commandCbc { s with inputs := rest } d (encode (cbcCommand d))) := exec_cbc_idle d hp
    _ = .next (s.acceptedCbc d rest) := congrArg _ (commandCbc_accept hfits hv _)

/-- What a CBC command needs of the state it is accepted in, whatever events follow. -/
def State.fitForCbc (s : State) (d : Dir) : Prop :=
  s.phase = .idle ∧ s.fatalIn = false ∧ s.mem.wf s.addrWidth = true ∧ s.valuesFit ∧ s.cbcChecksPass d ∧
  s.admitsEverything ∧ s.writesTrailReads

theorem acceptedCbc_underWay {s : State} {d : Dir} (h : s.fitForCbc d) : (s.acceptedCbc d []).underWay := by
  obtain ⟨-, hf, hm, ⟨h1, h2, h3, h4, h5, -, h7⟩, ⟨hin, hout, hiv, -⟩, ha, -⟩ := h
  have hd : decode (encode (cbcCommand d)) = .command (cbcCommand d) := decode_encode (by cases d <;> rfl)
  have hinv : (s.acceptedCbc d []).phaseInv :=
    (phaseInv_loadIv rfl).2 ⟨runsCbc_accepted (d := d) rfl, hiv, fits_accepted hin hout rfl rfl⟩
  exact ⟨⟨hm, ⟨h1, h2, h3, h4, h5, blockCount_lt h4, h7⟩, nofun, fun _ => ⟨rfl, rfl⟩, .inr ⟨_, hd⟩, hinv⟩,
    rfl, hf, ha, rfl⟩

theorem unpack_pack_readBytes (m : Memory) (a : Nat) : unpack (pack (m.readBytes a 16)) 16 = m.readBytes a 16 := by
  have hl : (m.readBytes a 16).length = 16 := Memory.length_readBytes m a 16
  rw [unpack_pack_pad _ hl.le, padBlock_full _ hl]

theorem chainLeft_loadIv (s : State) (d : Dir) :
    (s.acceptedCbc d []).loadIvBody.bytesLeft = s.len ∧
      (s.acceptedCbc d []).loadIvBody.chainLeft d = s.closedForm d := by
  have hlen : (s.acceptedCbc d []).loadIvBody.bytesLeft = s.len := by
    show 16 * blockCount s.len + (remainder s.len).toNat = s.len
    rw [toNat_remainder]
    exact Nat.div_add_mod s.len 16
  refine ⟨hlen, ?_⟩
  rw [State.chainLeft, hlen, State.loadIvBody_cv, unpack_pack_readBytes]
  rfl

/-- LOAD_IV leaves the whole message to the chain, from the IV bytes (42_sequencer.md R168). -/
theorem step_loadIv_accepted {s : State} {d : Dir} (h : s.fitForCbc d) :
    step (s.acceptedCbc d []) = .next (s.acceptedCbc d []).loadIvBody ∧ (s.acceptedCbc d []).loadIvBody.chaining d := by
  have hw := acceptedCbc_underWay h
  obtain ⟨-, -, -, -, ⟨-, -, hiv, -⟩, ha, ht⟩ := h
  have hstep : step (s.acceptedCbc d []) = .next (s.acceptedCbc d []).loadIvBody :=
    (step_of_cbc_underWay hw rfl).trans
      (loadIv_happens d (s := s.acceptedCbc d []) rfl hiv (admitsAll_of_everything ha _ _ _))
  refine ⟨hstep, underWay_of_step hw hstep (busy_nextPhase _), rfl, rfl, ?_⟩
  rw [(chainLeft_loadIv s d).1]
  exact ht

theorem cbcSteps_eq (len : Nat) : cbcSteps len = 1 + (blockCount len + partialSteps (remainder len)) + 1 := by
  have hr : remainder len = 0 ↔ len % 16 = 0 := by rw [BitVec.toNat_eq, toNat_remainder]; rfl
  simp only [cbcSteps, partialSteps, hr, blockCount]
  omega

/-- `t` is what a CBC command of direction `d` leaves of the state `s` it is accepted in, with `rest` of the list of
events and `v` at the host's read port. -/
def State.cbcResult (s : State) (d : Dir) (rest : List Input) (v : Nat) (t : State) : Prop :=
  (s.closedForm d).output.length = s.len ∧ (s.closedForm d).carry.length = 16 ∧
  t = { s with
    phase := .idle, cmd := encode (cbcCommand d), done := true, err := none
    inAddr := advance s.addrWidth s.inAddr s.len, outAddr := advance s.addrWidth s.outAddr s.len
    mem := (s.mem.writeBytes s.outAddr (s.closedForm d).output).writeBytes s.ivAddr (s.closedForm d).carry
    contexts := (s.closedForm d).contexts, inputs := rest
    cv := t.cv, tin := t.tin, tout := t.tout, nleft := t.nleft, rlen := remainder s.len, rdData := v }

/-- From its acceptance a CBC command runs to its closed form. -/
theorem acceptedCbc_runs {s : State} {d : Dir} (h : s.fitForCbc d) :
    ∃ t, (s.acceptedCbc d []).runsTo (cbcSteps s.len) t ∧ t.Inv ∧ s.cbcResult d [] s.rdData t := by
  obtain ⟨hload, hchain⟩ := step_loadIv_accepted h
  obtain ⟨hleft, hform⟩ := chainLeft_loadIv s d
  obtain ⟨t, hto, hw, hto'⟩ := passes_run _ hchain rfl
  rw [hleft, hform] at hto'
  obtain ⟨hlen, hcarry, hp, ht⟩ := hto'
  have hcmd : t.cmd = encode (cbcCommand d) := by rw [ht]; rfl
  obtain ⟨hinv, -, -, ha, -⟩ := id hw
  obtain ⟨-, -, -, -, -, hphase⟩ := id hinv
  obtain ⟨-, hiv, -⟩ := (phaseInv_storeIv hp).1 hphase
  have hstore : step t = .next t.storeIvBody :=
    (step_of_cbc_underWay hw hcmd).trans (storeIv_happens d hp hiv (admitsAll_of_everything ha _ _ _))
  refine ⟨t.storeIvBody, ?_, (everyStepKeepsTheInvariant _ _ hinv hstore).1, hlen,
    by rw [← hcarry, length_unpack], ?_⟩
  · rw [cbcSteps_eq]
    exact runsTo_add (runsTo_add (runsTo_succ.2 ⟨_, hload, (runsTo_zero _ _).2 rfl⟩) hto)
      (runsTo_succ.2 ⟨_, hstore, (runsTo_zero _ _).2 rfl⟩)
  · have hstored : t.storeIvBody =
        { t with mem := t.mem.writeBytes t.ivAddr (s.closedForm d).carry, phase := .idle, done := true } := by
      rw [← hcarry]
      rfl
    rw [hstored]
    conv_lhs => rw [ht]
    rfl

/-! ### The closed form as the statement has it -/

theorem readyForCbc_iff {s : State} {d : Dir} :
    s.readyForCbc d ↔ s.fitForCbc d ∧ s.inputs = [command (cbcCommand d)] := by
  simp only [State.readyForCbc, State.fitForCbc, and_assoc]

/-- Settles O50: the acceptance, LOAD_IV, the passes over the message, and STORE_IV. -/
theorem cbcCommandClosedForm : Obligations.CbcCommandClosedForm := by
  unfold Obligations.CbcCommandClosedForm
  intro d s h
  obtain ⟨hfit, hi⟩ := readyForCbc_iff.1 h
  obtain ⟨t, hto, -, hlen, hcarry, ht⟩ := acceptedCbc_runs hfit
  obtain ⟨hp, hf, -, -, hc, -⟩ := hfit
  refine ⟨hlen, hcarry, t, ?_, by rw [ht], ?_⟩
  · rw [Nat.add_comm]
    exact runsTo_succ.2 ⟨_, step_acceptCbc hp hf hc hi, hto⟩
  · rw [ht, ← hp]
    rfl

/-! ### Memory after a store -/

/-- The byte at every address after a store of a byte sequence (20_memory.md R63). -/
theorem Memory.read_writeBytes {aw : Nat} {m : Memory} (h : m.wf aw = true) {a : Nat} {out : List Byte}
    (ha : a + out.length ≤ 2 ^ aw) (x : Nat) : (m.writeBytes a out).read x =
      if a ≤ x ∧ x < a + out.length then out.getD (x - a) 0 else m.read x := by
  split_ifs with hx
  · have hin := Memory.read_writeBytes_inside h ha (k := x - a) (by omega)
    rwa [Nat.add_sub_cancel' hx.1] at hin
  · exact Memory.read_writeBytes_outside m a out hx

/-- Storing the bytes that a range holds changes nothing. -/
theorem Memory.writeBytes_readBytes {aw : Nat} {m : Memory} (h : m.wf aw = true) {a n : Nat}
    (ha : a + n ≤ 2 ^ aw) : m.writeBytes a (m.readBytes a n) = m := by
  have hl : a + (m.readBytes a n).length ≤ 2 ^ aw := by rwa [Memory.length_readBytes]
  refine Memory.ext (Memory.wf_writeBytes h _ hl) h fun x => ?_
  rw [Memory.read_writeBytes h hl, Memory.length_readBytes]
  split_ifs with hx
  · rw [Memory.getD_readBytes m a (by omega), Nat.add_sub_cancel' hx.1]
  · rfl

/-- Of two stores to one range the first is lost, whatever is stored between them. -/
theorem Memory.writeBytes_overwritten {aw : Nat} {m : Memory} (h : m.wf aw = true) {a b : Nat}
    {old new out : List Byte} (hl : old.length = new.length) (ha : a + new.length ≤ 2 ^ aw)
    (hb : b + out.length ≤ 2 ^ aw) :
    ((m.writeBytes a old).writeBytes b out).writeBytes a new = (m.writeBytes b out).writeBytes a new := by
  have hold : (m.writeBytes a old).wf aw = true := Memory.wf_writeBytes h _ (hl ▸ ha)
  have hboth := Memory.wf_writeBytes hold out hb
  have hout := Memory.wf_writeBytes h out hb
  refine Memory.ext (Memory.wf_writeBytes hboth _ ha) (Memory.wf_writeBytes hout _ ha) fun x => ?_
  rw [Memory.read_writeBytes hboth ha, Memory.read_writeBytes hout ha]
  split_ifs with hx
  · rfl
  · rw [Memory.read_writeBytes hold hb, Memory.read_writeBytes h hb,
      Memory.read_writeBytes_outside m a old (hl ▸ hx)]

/-! ### A message of no bytes -/

/-- Settles O51: the closed form of no segment is the IV that was read, which is stored back. -/
theorem zeroLengthLeavesMemory : Obligations.ZeroLengthLeavesMemory := by
  unfold Obligations.ZeroLengthLeavesMemory
  intro d s h hlen
  obtain ⟨-, -, t, hto, hmem, ht⟩ := cbcCommandClosedForm d s h
  obtain ⟨⟨hp, -, hm, ⟨hin, hout, -⟩, ⟨-, -, hiv, -⟩, -⟩, -⟩ := readyForCbc_iff.1 h
  have hform : s.closedForm d = ⟨[], s.mem.readBytes s.ivAddr 16, s.contexts⟩ := by
    rw [State.closedForm, hlen]
    exact chain_nil d _ _ _
  rw [hform] at hmem ht
  rw [hlen] at hto ht
  refine ⟨t, hto, hmem.trans (Memory.writeBytes_readBytes hm (inRange_iff.1 hiv)), ?_⟩
  rw [ht]
  exact ⟨rfl, Nat.mod_eq_of_lt hin, Nat.mod_eq_of_lt hout, hp, rfl, rfl⟩

/-! ### The hypotheses can be met -/

/-- 33 bytes to encrypt in place, the IV after them. -/
def messageToEncrypt : State := { twoBlocksAndAByte with ivAddr := 64, inputs := [command .cbcEnc] }

theorem messageToEncrypt_ready : messageToEncrypt.readyForCbc .enc :=
  ⟨rfl, rfl, by decide, by unfold State.valuesFit; decide, ⟨by decide, by decide, by decide, by decide⟩, rfl,
    .inl (by decide), rfl⟩

/-- Two BLOCK steps and a PARTIAL step between the acceptance, LOAD_IV and STORE_IV. -/
theorem witness_cbcCommandClosedForm : ∃ t, messageToEncrypt.runsTo 6 t ∧ t.inAddr = 33 ∧ t.done = true ∧
    t.contexts = (messageToEncrypt.closedForm .enc).contexts := by
  obtain ⟨-, -, t, hto, -, ht⟩ := cbcCommandClosedForm .enc messageToEncrypt messageToEncrypt_ready
  exact ⟨t, hto, by rw [ht]; rfl, by rw [ht], by rw [ht]⟩

/-- No byte to encrypt. -/
def nothingToEncrypt : State := { messageToEncrypt with len := 0 }

theorem nothingToEncrypt_ready : nothingToEncrypt.readyForCbc .enc :=
  ⟨rfl, rfl, by decide, by unfold State.valuesFit; decide, ⟨by decide, by decide, by decide, by decide⟩, rfl,
    .inl (by decide), rfl⟩

theorem witness_zeroLengthLeavesMemory : ∃ t, nothingToEncrypt.runsTo 3 t ∧ t.mem = [] ∧ t.done = true := by
  obtain ⟨t, hto, hmem, -, -, -, -, hdone, -⟩ :=
    zeroLengthLeavesMemory .enc nothingToEncrypt nothingToEncrypt_ready rfl
  exact ⟨t, hto, hmem, hdone⟩

end Sys2Proof.Machine

/-! PROOF. Commands one after another: a `wait` runs what the sequencer runs with no event listed, and two commands
split at a block boundary leave what one leaves. -/

namespace Sys2Proof.Machine

/-! ### A `wait` runs what the sequencer runs -/

/-- `s` with another list of events, and `v` at the host's read port. -/
def State.withEvents (s : State) (rest : List Input) (v : Nat) : State := { s with inputs := rest, rdData := v }

theorem sequencerStep_withEvents {s after t : State} {rd wr : Nat × Nat} (rest : List Input) (v : Nat)
    (h : s.sequencerStep rd wr after = .next t) :
    (s.withEvents rest v).sequencerStep rd wr (after.withEvents rest v) = .next (t.withEvents rest v) := by
  unfold State.sequencerStep at h
  split_ifs at h with hr ha <;> cases h
  · exact (if_pos hr).trans (if_pos ha)
  · exact (if_pos hr).trans (if_neg ha)

theorem cbcPass_withEvents (s : State) (d : Dir) (c : Nat) (rest : List Input) (v : Nat) :
    (s.withEvents rest v).cbcPass d c = (s.cbcPass d c).withEvents rest v := by
  cases d <;> rfl

theorem exec_cbc_withEvents {d : Dir} {s t : State} (hb : s.busy = true) (h : exec (cbcCommand d) s = .next t)
    (rest : List Input) (v : Nat) : exec (cbcCommand d) (s.withEvents rest v) = .next (t.withEvents rest v) := by
  obtain hp | hp | hp | hp | hp := (busy_iff s).1 hb
  · rw [exec_cbc_loadIv d hp] at h
    exact (exec_cbc_loadIv d (s := s.withEvents rest v) hp).trans (sequencerStep_withEvents rest v h)
  · have hn : s.nleft ≠ 0 := fun hn => by rw [exec_cbc_block_none d hp hn] at h; cases h
    rw [exec_cbc_block d hp hn] at h
    rw [exec_cbc_block d (s := s.withEvents rest v) hp hn, cbcPass_withEvents]
    exact sequencerStep_withEvents rest v h
  · have hr : s.rlen ≠ 0 := fun hr => by rw [exec_cbc_partial_none d hp hr] at h; cases h
    rw [exec_cbc_partial d hp hr] at h
    rw [exec_cbc_partial d (s := s.withEvents rest v) hp hr, cbcPass_withEvents]
    exact sequencerStep_withEvents rest v h
  · rw [exec_cbc_storeIv d hp] at h
    exact (exec_cbc_storeIv d (s := s.withEvents rest v) hp).trans (sequencerStep_withEvents rest v h)
  · rw [exec_cbc_marshal d hp] at h
    cases h

theorem exec_marshaller_withEvents {i : Instr} (hi : ∀ d, i ≠ cbcCommand d) {s t : State} (hb : s.busy = true)
    (h : exec i s = .next t) (rest : List Input) (v : Nat) :
    exec i (s.withEvents rest v) = .next (t.withEvents rest v) := by
  have hp : s.phase = .marshal := by
    by_contra hp
    rw [exec_marshaller_fault hi hb hp] at h
    cases h
  obtain ⟨d, rfl⟩ | ⟨c, hc⟩ | ⟨c, hc⟩ := command_kinds i
  · exact absurd rfl (hi d)
  · rw [exec_packs_marshal hc hp] at h
    exact (exec_packs_marshal hc (s := s.withEvents rest v) hp).trans (sequencerStep_withEvents rest v h)
  · rw [exec_unpacks_marshal hc hp] at h
    exact (exec_unpacks_marshal hc (s := s.withEvents rest v) hp).trans (sequencerStep_withEvents rest v h)

/-- No step of a command reads the list of events or the host's read port. -/
theorem exec_withEvents {i : Instr} {s t : State} (hb : s.busy = true) (h : exec i s = .next t) (rest : List Input)
    (v : Nat) : exec i (s.withEvents rest v) = .next (t.withEvents rest v) := by
  by_cases hi : ∃ d, i = cbcCommand d
  · obtain ⟨d, rfl⟩ := hi
    exact exec_cbc_withEvents hb h rest v
  · exact exec_marshaller_withEvents (not_exists.1 hi) hb h rest v

/-- The turn of a busy block's sequencer: the halt, or the step of its command. -/
theorem sequencerTurn_busy_cases {s t : State} (hb : s.busy = true) (h : sequencerTurn s = .next t) :
    (s.fatalIn = true ∧ t = s.enterHalt) ∨
      s.fatalIn = false ∧ ∃ i, decode s.cmd = .command i ∧ exec i s = .next t := by
  unfold sequencerTurn at h
  rw [if_neg (by simp [hb])] at h
  split_ifs at h with hf
  · cases h
    exact .inl ⟨hf, rfl⟩
  · split at h
    · next i hd => exact .inr ⟨by simpa using hf, i, hd, h⟩
    · cases h

theorem sequencerTurn_withEvents {s t : State} (hb : s.busy = true) (h : sequencerTurn s = .next t)
    (rest : List Input) (v : Nat) : sequencerTurn (s.withEvents rest v) = .next (t.withEvents rest v) := by
  obtain ⟨hf, rfl⟩ | ⟨hf, i, hd, hexec⟩ := sequencerTurn_busy_cases hb h
  · exact sequencerTurn_of_fatal (s := s.withEvents rest v) hb hf
  · exact (sequencerTurn_of_busy (s := s.withEvents rest v) hb hf hd).trans (exec_withEvents hb hexec rest v)

theorem sequencerTurn_keeps_inputs {s t : State} (hb : s.busy = true) (h : sequencerTurn s = .next t) :
    t.inputs = s.inputs := by
  obtain ⟨-, rfl⟩ | ⟨-, i, -, hexec⟩ := sequencerTurn_busy_cases hb h
  · rfl
  · obtain ⟨-, -, -, -, -, -, hi, -⟩ := effect_keeps_surroundings (exec_effect hexec)
    exact hi

/-- A round of `wait` while BUSY is the sequencer's turn, with `STATUS` at the host's read port. -/
theorem step_wait_busy {s : State} (hb : s.busy = true) (rest : List Input) (v : Nat) :
    step (s.withEvents (.wait :: rest) v) = sequencerTurn (s.withEvents (.wait :: rest) s.status.toNat) := by
  rw [step_of_event rfl]
  exact if_pos hb

/-- A `wait` is over once BUSY = 0 (30_encoding.md R101). -/
theorem step_wait_done {s : State} (hb : s.busy = false) (rest : List Input) (v : Nat) :
    step (s.withEvents (.wait :: rest) v) = .next (s.withEvents rest s.status.toNat) := by
  rw [step_of_event rfl]
  exact if_neg (Bool.eq_false_iff.1 hb)

/-- What the sequencer reaches with no event listed, its command at an end, a `wait` reaches. -/
theorem wait_runs {k : Nat} {s t : State} (hi : s.inputs = []) (h : s.runsTo k t) (ht : t.busy = false)
    (rest : List Input) (v : Nat) : ∃ j v', (s.withEvents (.wait :: rest) v).runsTo j (t.withEvents rest v') := by
  induction k generalizing s v with
  | zero =>
    obtain rfl := (runsTo_zero s t).1 h
    exact ⟨1, _, runsTo_succ.2 ⟨_, step_wait_done ht rest v, (runsTo_zero _ _).2 rfl⟩⟩
  | succ k ih =>
    obtain ⟨s', hstep, hto⟩ := runsTo_succ.1 h
    rw [step_of_no_event hi] at hstep
    cases hb : s.busy with
    | true =>
      obtain ⟨j, v', hj⟩ := ih ((sequencerTurn_keeps_inputs hb hstep).trans hi) hto s.status.toNat
      have hwait := (step_wait_busy hb rest v).trans (sequencerTurn_withEvents hb hstep _ _)
      exact ⟨j + 1, v', runsTo_succ.2 ⟨_, hwait, hj⟩⟩
    | false =>
      rw [sequencerTurn_of_not_busy hb] at hstep
      cases hstep
      exact ih hi hto v

/-! ### One command of a host program -/

theorem continueCbc_eq (d : Dir) (n : Nat) : continueCbc d n = [wr .len n, command (cbcCommand d), .wait] := by
  cases d <;> rfl

/-- `s` with `LEN` = `n`. -/
def State.withLen (s : State) (n : Nat) : State := { s with len := n }

theorem step_wr_len {s : State} {n : Nat} {rest : List Input} (hp : s.phase = .idle) (hn : n < 2 ^ s.addrWidth)
    (hi : s.inputs = wr .len n :: rest) : step s = .next { s.withLen n with inputs := rest } := by
  have hfit : fit s.addrWidth n = n := fit_of_lt hn
  rw [step_wr_reg .len (by decide) hp hi]
  exact congrArg (fun k => Host.Outcome.next { s.withLen k with inputs := rest }) hfit

/-- `continue_cbc` of `n` bytes leaves what a CBC command with `LEN` = `n` leaves, and the events after it. -/
theorem continueCbc_runs {s : State} {d : Dir} {n : Nat} {rest : List Input} (h : (s.withLen n).fitForCbc d)
    (hi : s.inputs = continueCbc d n ++ rest) :
    ∃ j v t, s.runsTo j t ∧ t.Inv ∧ (s.withLen n).cbcResult d rest v t := by
  obtain ⟨t, hto, hinv, hlen, hcarry, ht⟩ := acceptedCbc_runs h
  have hb : t.busy = false := by rw [ht]; rfl
  obtain ⟨j, v, hwait⟩ := wait_runs (s := (s.withLen n).acceptedCbc d []) rfl hto hb rest s.rdData
  obtain ⟨hp, hf, -, ⟨-, -, -, hn, -⟩, hc, -⟩ := h
  rw [continueCbc_eq] at hi
  have hwrite : step s = .next _ := step_wr_len hp hn hi
  have haccept := step_acceptCbc (s := { s.withLen n with inputs := command (cbcCommand d) :: .wait :: rest }) hp hf hc
    rfl
  exact ⟨j + 1 + 1, v, t.withEvents rest v, runsTo_succ.2 ⟨_, hwrite, runsTo_succ.2 ⟨_, haccept, hwait⟩⟩,
    (inv_outside rest v t.fatalIn).2 hinv, hlen, hcarry, congrArg (State.withEvents · rest v) ht⟩

/-! ### Two commands and one -/

section Split

variable {s t u q : State} {d : Dir} {n n1 n2 v w : Nat} {rest : List Input}

/-- What a state must meet to be fit for a CBC command with `LEN` = `n`. -/
theorem fitForCbc_withLen : (s.withLen n).fitForCbc d ↔ s.phase = .idle ∧ s.fatalIn = false ∧
    s.mem.wf s.addrWidth = true ∧ (s.withLen n).valuesFit ∧
    (inRange s.addrWidth s.inAddr n = true ∧ inRange s.addrWidth s.outAddr n = true ∧
      inRange s.addrWidth s.ivAddr 16 = true ∧ xfValid s.contexts d s.ctx = true) ∧
    s.admitsEverything ∧ trails s.outAddr s.inAddr n :=
  Iff.rfl

theorem valuesFit_withLen (h : s.valuesFit) (hn : n < 2 ^ s.addrWidth) : (s.withLen n).valuesFit := by
  obtain ⟨hin, hout, hiv, -, hrest⟩ := h
  exact ⟨hin, hout, hiv, hn, hrest⟩

/-- A state fit for a command is fit for a shorter one. -/
theorem fitForCbc_shorter (h : (s.withLen (n1 + n2)).fitForCbc d) : (s.withLen n1).fitForCbc d := by
  obtain ⟨hp, hf, hm, hv, ⟨hin, hout, hc⟩, ha, ht⟩ := fitForCbc_withLen.1 h
  obtain ⟨-, -, -, hlen, -⟩ := id hv
  have hle : n1 ≤ n1 + n2 := Nat.le_add_right n1 n2
  exact fitForCbc_withLen.2 ⟨hp, hf, hm, valuesFit_withLen (s := s.withLen (n1 + n2)) hv (lt_of_le_of_lt hle hlen),
    ⟨inRange_mono hin hle, inRange_mono hout hle, hc⟩, ha, ht.imp id fun ht => by omega⟩

/-- What a command leaves as it was. -/
theorem cbcResult_keeps (ht : (s.withLen n).cbcResult d rest v t) : t.addrWidth = s.addrWidth ∧
    t.ivAddr = s.ivAddr ∧ t.ctx = s.ctx ∧ t.fatalIn = s.fatalIn ∧ t.denied = s.denied := by
  obtain ⟨-, -, ht⟩ := ht
  rw [ht]
  exact ⟨rfl, rfl, rfl, rfl, rfl⟩

/-- The control state and the cursors that a command leaves. -/
theorem cbcResult_leaves (ht : (s.withLen n).cbcResult d rest v t) : t.phase = .idle ∧ t.done = true ∧
    t.inputs = rest ∧ t.inAddr = advance s.addrWidth s.inAddr n ∧ t.outAddr = advance s.addrWidth s.outAddr n := by
  obtain ⟨-, -, ht⟩ := ht
  rw [ht]
  exact ⟨rfl, rfl, rfl, rfl, rfl⟩

/-- The memory and the provider's state that a command leaves. -/
theorem cbcResult_outside (ht : (s.withLen n).cbcResult d rest v t) :
    t.mem = (s.mem.writeBytes s.outAddr ((s.withLen n).closedForm d).output).writeBytes s.ivAddr
      ((s.withLen n).closedForm d).carry ∧ t.contexts = ((s.withLen n).closedForm d).contexts := by
  obtain ⟨-, -, ht⟩ := ht
  rw [ht]
  exact ⟨rfl, rfl⟩

theorem cbcResult_lengths (ht : (s.withLen n).cbcResult d rest v t) :
    ((s.withLen n).closedForm d).output.length = n ∧ ((s.withLen n).closedForm d).carry.length = 16 := by
  obtain ⟨hlen, hcarry, -⟩ := ht
  exact ⟨hlen, hcarry⟩

variable (h : (s.withLen (n1 + n2)).fitForCbc d) (ht : (s.withLen n1).cbcResult d rest v t)

include h ht

/-- After a first command over `n1` bytes the state is fit for one over the `n2` bytes that follow them. -/
theorem fitForCbc_rest (hinv : t.Inv) : (t.withLen n2).fitForCbc d := by
  obtain ⟨haw, hiv, hctx, hf', hden⟩ := cbcResult_keeps ht
  obtain ⟨hp', -, -, hin', hout'⟩ := cbcResult_leaves ht
  obtain ⟨-, hctxs⟩ := cbcResult_outside ht
  obtain ⟨-, hf, -, ⟨-, -, -, hlen, -⟩, ⟨hin, hout, hivr, hvalid⟩, ha, htrail⟩ := fitForCbc_withLen.1 h
  obtain ⟨hm, hv, -⟩ := hinv
  have hv' : (t.withLen n2).valuesFit :=
    valuesFit_withLen hv (by rw [haw]; exact lt_of_le_of_lt (Nat.le_add_left n2 n1) hlen)
  refine fitForCbc_withLen.2 ⟨hp', hf'.trans hf, hm, hv', ?_, hden.trans ha, ?_⟩
  · rw [haw, hin', hout', hiv, hctx, hctxs]
    exact ⟨inRange_advance hin, inRange_advance hout, hivr, (xfValid_chain ..).trans hvalid⟩
  · rw [hin', hout']
    exact trails_advance htrail hout hin

/-- The output of the first command lies in the address space, so memory keeps its canonical form. -/
theorem wf_first_output :
    (s.mem.writeBytes s.outAddr ((s.withLen n1).closedForm d).output).wf s.addrWidth = true := by
  obtain ⟨hlen, -⟩ := cbcResult_lengths ht
  obtain ⟨-, -, hm, -, ⟨-, hout, -⟩, -⟩ := fitForCbc_withLen.1 h
  exact Memory.wf_writeBytes hm _ (by rw [hlen]; exact inRange_iff.1 (inRange_mono hout (Nat.le_add_right n1 n2)))

/-- The second command takes the IV that the first has stored, and the input bytes that the first has left alone. -/
theorem closedForm_rest (hapart : s.ivApartFrom s.inAddr (n1 + n2)) : (t.withLen n2).closedForm d =
    chain d s.ctx (segments (n2 / 16) (s.mem.readBytes (s.inAddr + n1) n2))
      ((s.withLen n1).closedForm d).carry ((s.withLen n1).closedForm d).contexts := by
  obtain ⟨-, hiv, hctx, -⟩ := cbcResult_keeps ht
  obtain ⟨-, -, -, hin', -⟩ := cbcResult_leaves ht
  obtain ⟨hmem, hctxs⟩ := cbcResult_outside ht
  obtain ⟨hlen, hcarry⟩ := cbcResult_lengths ht
  obtain ⟨-, -, -, -, ⟨hin, -, hivr, -⟩, -, htrail⟩ := fitForCbc_withLen.1 h
  have hcv : t.mem.readBytes t.ivAddr 16 = ((s.withLen n1).closedForm d).carry := by
    rw [hmem, hiv, ← hcarry]
    exact Memory.readBytes_writeBytes (wf_first_output h ht) (by rw [hcarry]; exact inRange_iff.1 hivr)
  have hdata : t.mem.readBytes t.inAddr n2 = s.mem.readBytes (s.inAddr + n1) n2 := by
    unfold State.ivApartFrom at hapart
    unfold trails at htrail
    rw [hmem, hin', readBytes_advance hin, readBytes_writeBytes_apart _ (by omega),
      readBytes_writeBytes_apart _ (by omega)]
  calc (t.withLen n2).closedForm d
      = chain d t.ctx (segments (n2 / 16) (t.mem.readBytes t.inAddr n2)) (t.mem.readBytes t.ivAddr 16) t.contexts := rfl
    _ = _ := by rw [hctx, hcv, hdata, hctxs]

/-- The closed form of the whole is that of its parts, one after the other. -/
theorem closedForm_split (h16 : n1 % 16 = 0) (hapart : s.ivApartFrom s.inAddr (n1 + n2)) :
    (s.withLen (n1 + n2)).closedForm d =
      ⟨((s.withLen n1).closedForm d).output ++ ((t.withLen n2).closedForm d).output,
        ((t.withLen n2).closedForm d).carry, ((t.withLen n2).closedForm d).contexts⟩ := by
  have hblocks : (n1 + n2) / 16 = n1 / 16 + n2 / 16 := by omega
  have hfirst : (s.mem.readBytes s.inAddr n1).length = 16 * (n1 / 16) := by rw [Memory.length_readBytes]; omega
  have hsegs : segments ((n1 + n2) / 16) (s.mem.readBytes s.inAddr (n1 + n2)) =
      segments (n1 / 16) (s.mem.readBytes s.inAddr n1) ++
        segments (n2 / 16) (s.mem.readBytes (s.inAddr + n1) n2) := by
    rw [Memory.readBytes_add, hblocks, segments_append _ _ _ _ hfirst]
  calc (s.withLen (n1 + n2)).closedForm d
      = chain d s.ctx (segments ((n1 + n2) / 16) (s.mem.readBytes s.inAddr (n1 + n2)))
          (s.mem.readBytes s.ivAddr 16) s.contexts := rfl
    _ = _ := by rw [hsegs, chain_append, closedForm_rest h ht hapart]; rfl

variable {rest2 : List Input} (hu : (t.withLen n2).cbcResult d rest2 w u)

include hu

/-- The second output follows the first, and the second last chaining value takes the place of the first. -/
theorem mem_split : u.mem = (s.mem.writeBytes s.outAddr
      (((s.withLen n1).closedForm d).output ++ ((t.withLen n2).closedForm d).output)).writeBytes s.ivAddr
        ((t.withLen n2).closedForm d).carry := by
  obtain ⟨-, hiv, -⟩ := cbcResult_keeps ht
  obtain ⟨-, -, -, -, hout'⟩ := cbcResult_leaves ht
  obtain ⟨hmem, -⟩ := cbcResult_outside ht
  obtain ⟨hmem', -⟩ := cbcResult_outside hu
  obtain ⟨hlen1, hcarry1⟩ := cbcResult_lengths ht
  obtain ⟨hlen2, hcarry2⟩ := cbcResult_lengths hu
  obtain ⟨-, -, -, -, ⟨-, hout, hivr, -⟩, -⟩ := fitForCbc_withLen.1 h
  rw [inRange_iff] at hivr
  rw [← hlen2] at hout
  rw [hmem', hmem, hout', hiv, writeBytes_advance hout, Memory.writeBytes_append, hlen1]
  rw [inRange_iff, ← Nat.add_assoc] at hout
  exact Memory.writeBytes_overwritten (wf_first_output h ht) (hcarry1.trans hcarry2.symm) (by omega) hout

/-- Two commands, the first over whole blocks, leave what one command over the bytes of both leaves. -/
theorem cbcResult_split (h16 : n1 % 16 = 0) (hapart : s.ivApartFrom s.inAddr (n1 + n2)) {rest3 : List Input} {y : Nat}
    (hq : (s.withLen (n1 + n2)).cbcResult d rest3 y q) :
    u.mem = q.mem ∧ u.inAddr = q.inAddr ∧ u.outAddr = q.outAddr ∧ u.contexts = q.contexts := by
  obtain ⟨haw, -⟩ := cbcResult_keeps ht
  obtain ⟨-, -, -, hin1, hout1⟩ := cbcResult_leaves ht
  obtain ⟨-, -, -, hin2, hout2⟩ := cbcResult_leaves hu
  obtain ⟨-, -, -, hin, hout⟩ := cbcResult_leaves hq
  obtain ⟨-, hctxs2⟩ := cbcResult_outside hu
  obtain ⟨hmem, hctxs⟩ := cbcResult_outside hq
  rw [closedForm_split h ht h16 hapart] at hmem hctxs
  refine ⟨(mem_split h ht hu).trans hmem.symm, ?_, ?_, hctxs2.trans hctxs.symm⟩
  · rw [hin2, hin1, haw, advance_advance, hin]
  · rw [hout2, hout1, haw, advance_advance, hout]

end Split

theorem overWell_of_done {t : State} (hp : t.phase = .idle) (hd : t.done = true) (hi : t.inputs = []) :
    t.overWell = true := by
  simp [State.overWell, State.over, State.fatal, hp, hd, hi]

/-- Settles O53: each `continue_cbc` leaves its closed form, and the two closed forms make up the one. -/
theorem continuityAtBlockBoundaries : Obligations.ContinuityAtBlockBoundaries := by
  unfold Obligations.ContinuityAtBlockBoundaries
  intro d s n1 n2 hp hf hm ha hvalid h16 hlen hv hin hout hiv htrail hapart
  have h : (s.withLen (n1 + n2)).fitForCbc d := fitForCbc_withLen.2
    ⟨hp, hf, hm, valuesFit_withLen hv hlen, ⟨inRange_iff.2 hin, inRange_iff.2 hout, inRange_iff.2 hiv, hvalid⟩, ha,
      htrail⟩
  obtain ⟨j1, v, t, hto1, hinv, ht⟩ := continueCbc_runs (n := n1) (rest := continueCbc d n2)
    (s := { s with inputs := continueCbc d n1 ++ continueCbc d n2 }) (fitForCbc_shorter h) rfl
  have ht : (s.withLen n1).cbcResult d (continueCbc d n2) v t := ht
  obtain ⟨-, -, hi, -⟩ := cbcResult_leaves ht
  obtain ⟨j2, w, u, hto2, -, hu⟩ := continueCbc_runs (rest := []) (fitForCbc_rest h ht hinv)
    (by rw [hi, List.append_nil])
  obtain ⟨k, x, q, hto, -, hq⟩ := continueCbc_runs (rest := [])
    (s := { s with inputs := continueCbc d (n1 + n2) }) h (List.append_nil _).symm
  have hq : (s.withLen (n1 + n2)).cbcResult d [] x q := hq
  obtain ⟨hup, hud, hui, -⟩ := cbcResult_leaves hu
  obtain ⟨hqp, hqd, hqi, -⟩ := cbcResult_leaves hq
  exact ⟨j1 + j2, k, u, q, runsTo_add hto1 hto2, hto, overWell_of_done hup hud hui, overWell_of_done hqp hqd hqi, hui,
    hqi, cbcResult_split h ht hu h16 hapart hq⟩

/-! ### The hypotheses can be met -/

/-- 33 bytes to encrypt in place: one block, then a block and a byte. -/
theorem witness_continuityAtBlockBoundaries : ∃ j k t u,
    State.runsTo { messageToEncrypt with inputs := continueCbc .enc 16 ++ continueCbc .enc 17 } j t ∧
    State.runsTo { messageToEncrypt with inputs := continueCbc .enc 33 } k u ∧ t.mem = u.mem := by
  obtain ⟨-, -, -, hv, -⟩ := messageToEncrypt_ready
  obtain ⟨j, k, t, u, ht, hu, -, -, -, -, hmem, -⟩ := continuityAtBlockBoundaries .enc messageToEncrypt 16 17 rfl rfl
    (by decide) rfl (by decide) (by decide) (by decide) hv (by decide) (by decide) (by decide) (.inl (by decide))
    (.inr (by decide))
  exact ⟨j, k, t, u, ht, hu, hmem⟩

end Sys2Proof.Machine

/-! PROOF. The decryption engine: what its BLOCK and its PARTIAL step leave, in full. -/

namespace Sys2Proof.Machine

/-! ### The pass and the two steps -/

/-- The provider's answer in a decryption step over `c` input bytes (44_cbc_decrypt.md R211, R212). -/
def State.decAnswer (s : State) (c : Nat) : Block × List Byte :=
  Config.xfDec s.contexts s.ctx (quadBlock (pack (s.mem.readBytes s.inAddr c)))

/-- The first `c` bytes of a block XORed with the chaining value. -/
theorem unpack_block_xor (b : Block) (q : Quad) {c : Nat} (hc : c ≤ 16) :
    unpack ((pack b.bytes).xor q) c = (xorBytes b.bytes (unpack q 16)).take c := by
  rw [← take_unpack _ hc, unpack_xor, unpack_pack_block]

/-- A pass of the decryption engine: the first `c` bytes of the answer XORed with the chaining value are written, the
padded ciphertext is carried. -/
theorem decPass_eq (s : State) {c : Nat} (hc : c ≤ 16) : s.decPass c =
    { s with
      tin := pack (s.mem.readBytes s.inAddr c), inAddr := (s.inAddr + c) % 2 ^ s.addrWidth
      tout := pack (s.decAnswer c).1.bytes, contexts := setContext s.contexts .dec s.ctx (s.decAnswer c).2
      mem := s.mem.writeBytes s.outAddr ((xorBytes (s.decAnswer c).1.bytes (unpack s.cv 16)).take c)
      outAddr := (s.outAddr + c) % 2 ^ s.addrWidth, cv := pack (s.mem.readBytes s.inAddr c) } := by
  rw [← unpack_block_xor _ _ hc]
  rfl

/-- A store of the first `c` plaintext bytes is read back there, and nowhere else. -/
theorem writeBytes_block_xor_take {aw : Nat} {m : Memory} (b : Block) (q : Quad) {a c : Nat} (hc : c ≤ 16)
    (h : m.wf aw = true) (hw : inRange aw a c = true) :
    let p := (xorBytes b.bytes (unpack q 16)).take c
    (m.writeBytes a p).readBytes a c = p ∧ ∀ x, ¬ (a ≤ x ∧ x < a + c) → (m.writeBytes a p).read x = m.read x := by
  rw [← unpack_block_xor b q hc]
  exact ⟨readBytes_writeBytes_unpack _ h hw, fun x hx => read_writeBytes_unpack_outside m _ hx⟩

/-- Settles O34: the step is the engine's pass over 16 bytes. -/
theorem decryptBlockStep : Obligations.DecryptBlockStep := by
  unfold Obligations.DecryptBlockStep
  intro s hp hn hin hout har haw hm c y p
  have hw : inRange s.addrWidth s.outAddr 16 = true := inRange_iff.2 hout
  obtain ⟨hback, hother⟩ := writeBytes_block_xor_take y.1 s.cv le_rfl hm hw
  have hfull : p.take 16 = p :=
    List.take_of_length_le (by rw [length_xorBytes, y.1.length_eq, length_unpack, Nat.min_self])
  rw [hfull] at hback hother
  refine ⟨_, (block_happens .dec hp hn (inRange_iff.2 hin) hw har haw).trans ?_, rfl, hback,
    unpack_pack_readBytes _ _, hother⟩
  have hpass := decPass_eq s (c := 16) le_rfl
  have hanswer : s.decAnswer 16 = y := rfl
  rw [hanswer, hfull] at hpass
  rw [State.cbcPass, hpass, ← nextPhase_eq]
  rfl

/-- Settles O35: the step is the engine's pass over `RLEN` bytes, on a ciphertext block padded with zeros. -/
theorem decryptPartialStep : Obligations.DecryptPartialStep := by
  unfold Obligations.DecryptPartialStep
  intro s hp hn r hin hout har haw hm c y p
  have hr : r ≤ 16 := s.rlen.isLt.le
  have hw : inRange s.addrWidth s.outAddr r = true := inRange_iff.2 hout
  obtain ⟨hback, hother⟩ := writeBytes_block_xor_take y.1 s.cv hr hm hw
  have hc : c.length = r := Memory.length_readBytes _ _ _
  have hpad : unpack (pack c) 16 = c ++ List.replicate (16 - r) 0 := by
    rw [unpack_pack_pad _ (hc.trans_le hr), padBlock, hc]
  refine ⟨_, (partialBlock_happens .dec hp hn (inRange_iff.2 hin) hw har haw).trans ?_, rfl, hpad, hback, hpad, hother⟩
  rw [State.cbcPass, decPass_eq s hr]
  rfl

/-! ### The hypotheses can be met -/

/-- The last full block to decrypt: the message of `lastBlockLeft` under `CBC.DEC`, with a ciphertext byte. -/
def lastBlockToDecrypt : State := { lastBlockLeft with cmd := 2, outAddr := 64, mem := [(3, 7)] }

/-- The chaining value is the ciphertext, which the step leaves in place. -/
theorem witness_decryptBlockStep : ∃ t, exec .cbcDec lastBlockToDecrypt = .next t ∧ t.phase = .partialBlock ∧
    t.outAddr = 80 ∧ unpack t.cv 16 = lastBlockToDecrypt.mem.readBytes 0 16 ∧ t.mem.read 3 = 7 := by
  obtain ⟨t, hstep, ht, -, hcv, hother⟩ :=
    decryptBlockStep lastBlockToDecrypt rfl (by decide) (by decide) (by decide) (by decide) (by decide) (by decide)
  exact ⟨t, hstep, by rw [ht]; rfl, by rw [ht]; rfl, hcv, hother 3 (by decide)⟩

/-- `CBC.DEC` before its PARTIAL step of five bytes. -/
def fiveBytesToDecrypt : State := { lastBlockToDecrypt with phase := .partialBlock, nleft := 0 }

/-- Byte 3 of the chaining value is the ciphertext's, byte 5 is padding. -/
theorem witness_decryptPartialStep : ∃ t, exec .cbcDec fiveBytesToDecrypt = .next t ∧ t.phase = .storeIv ∧
    t.outAddr = 69 ∧ unpack t.cv 16 = [0, 0, 0, 7, 0] ++ List.replicate 11 0 ∧ t.mem.read 69 = 0 := by
  obtain ⟨t, hstep, ht, -, -, hcv, hother⟩ :=
    decryptPartialStep fiveBytesToDecrypt rfl (by decide) (by decide) (by decide) (by decide) (by decide) (by decide)
  exact ⟨t, hstep, by rw [ht], by rw [ht]; rfl, hcv, hother 69 (by decide)⟩

end Sys2Proof.Machine

/-! PROOF. The round trip for whole blocks: the decryption chain undoes the encryption chain link by link, and the two
commands leave what the two chains do. -/

namespace Sys2Proof.Machine

/-! ### What a CBC command leaves in memory and at the provider -/

/-- With its IV apart from its output a command leaves the bytes of its closed form readable, each in its range. -/
theorem readyForCbc_leaves {s : State} {d : Dir} (h : s.readyForCbc d) (hapart : s.ivApartFrom s.outAddr s.len) :
    ∃ t, s.runsTo (1 + cbcSteps s.len) t ∧ t.mem.readBytes s.outAddr s.len = (s.closedForm d).output ∧
      t.mem.readBytes s.ivAddr 16 = (s.closedForm d).carry ∧ t.contexts = (s.closedForm d).contexts := by
  obtain ⟨hlen, hcarry, t, hto, hmem, ht⟩ := cbcCommandClosedForm d s h
  obtain ⟨⟨-, -, hm, -, ⟨-, hout, hiv, -⟩, -⟩, -⟩ := readyForCbc_iff.1 h
  rw [inRange_iff] at hout hiv
  unfold State.ivApartFrom at hapart
  have hm' := Memory.wf_writeBytes hm (s.closedForm d).output (by rwa [hlen])
  refine ⟨t, hto, ?_, ?_, by rw [ht]⟩
  · rw [hmem, readBytes_writeBytes_apart _ (by omega), ← hlen]
    exact Memory.readBytes_writeBytes hm (by rwa [hlen])
  · rw [hmem, ← hcarry]
    exact Memory.readBytes_writeBytes hm' (by rwa [hcarry])

/-! ### One link over a full block -/

/-- A link of the encryption chain (43_cbc_encrypt.md R193) whose segment is a block. -/
theorem chain_enc_full (h : Nat) {p v : List Byte} {segs : List (List Byte)} {P : List Context} (hp : p.length = 16) :
    chain .enc h (p :: segs) v P =
      let x := asBlock (xorBytes p v)
      let c := (xf .enc P h x).1.bytes
      let r := chain .enc h segs c (afterXf .enc P h x)
      ⟨c ++ r.output, r.carry, r.contexts⟩ := by
  simp only [chain, encChain, padBlock_full p hp, hp]
  rw [List.take_of_length_le (Block.length_eq _).le]

/-- A link of the decryption chain (44_cbc_decrypt.md R213) whose segment is a block. -/
theorem chain_dec_full (h : Nat) (b : Block) {v : List Byte} {segs : List (List Byte)} {Q : List Context} :
    chain .dec h (b.bytes :: segs) v Q =
      let r := chain .dec h segs b.bytes (afterXf .dec Q h b)
      ⟨xorBytes (xf .dec Q h b).1.bytes v ++ r.output, r.carry, r.contexts⟩ := by
  have hb : asBlock b.bytes = b := block_ext (asBlock_full _ b.length_eq)
  have hl (g : Block) : (xorBytes g.bytes v).length ≤ b.bytes.length := by
    rw [length_xorBytes, g.length_eq, b.length_eq]
    exact Nat.min_le_left _ _
  simp only [chain, decChain, padBlock_full _ b.length_eq, hb]
  rw [List.take_of_length_le (hl _)]

/-! ### Providers that undo one another -/

/-- A decrypt transaction of the provider in state `Q` undoes an encrypt transaction of it in state `P`. -/
def undoes (Q : List Context) (hd : Nat) (P : List Context) (he : Nat) : Prop :=
  ∀ x, (xf .dec Q hd (xf .enc P he x).1).1 = x

/-- Transactions on either side leave the one undoing the other, where both handles are XF_READONLY. -/
theorem undoes_afterXf {P Q : List Context} {he hd : Nat} (hE : XfReadonly .enc he) (hD : XfReadonly .dec hd)
    (h : undoes Q hd P he) (x y : Block) : undoes (afterXf .dec Q hd y) hd (afterXf .enc P he x) he := by
  intro z
  rw [hE, hD]
  exact h z

/-- A chain changes no context but that of its handle and direction. -/
theorem contextState_chain {d d' : Dir} {h h' : Nat} (hne : d' ≠ d ∨ h' ≠ h) (segs : List (List Byte))
    (v : List Byte) (P : List Context) :
    contextState (chain d h segs v P).contexts d' h' = contextState P d' h' := by
  induction segs generalizing v P with
  | nil => rw [chain_nil]
  | cons t rest ih => cases d <;> exact (ih _ _).trans (contextState_setContext P _ hne)

/-- XF_LOCAL carries XF_INVERSE over the transactions of an encryption (40_transform_port.md R124). -/
theorem undoes_after_encryption {P : List Context} {he hd : Nat} (hlocal : XfLocal .dec hd) (h : XfInverse P he hd)
    (segs : List (List Byte)) (v : List Byte) : undoes (chain .enc he segs v P).contexts hd P he := by
  intro x
  have hdec : contextState (chain .enc he segs v P).contexts .dec hd = contextState P .dec hd :=
    contextState_chain (.inl (by decide)) segs v P
  exact (hlocal _ P _ hdec).trans (h x)

/-! ### The two chains -/

/-- Decrypting block by block what was encrypted block by block: each plaintext block is the XOR of the undone
transaction with the value that the encryption chained (44_cbc_decrypt.md R215 (a)). -/
theorem chain_dec_enc {he hd : Nat} (hE : XfReadonly .enc he) (hD : XfReadonly .dec hd) (n : Nat) {data v : List Byte}
    {P Q : List Context} (hdata : data.length = 16 * n) (hv : v.length = 16) (h : undoes Q hd P he) :
    let r := chain .enc he (segments n data) v P
    let q := chain .dec hd (segments n r.output) v Q
    q.output = data ∧ q.carry = r.carry := by
  induction n generalizing data v P Q with
  | zero =>
    obtain rfl : data = [] := List.length_eq_zero_iff.1 hdata
    exact ⟨rfl, rfl⟩
  | succ n ih =>
    have hp : (data.take 16).length = 16 := by rw [List.length_take]; omega
    have hrest : (data.drop 16).length = 16 * n := by rw [List.length_drop]; omega
    have hx : (asBlock (xorBytes (data.take 16) v)).bytes = xorBytes (data.take 16) v :=
      asBlock_full _ (by rw [length_xorBytes, hp, hv, Nat.min_self])
    obtain ⟨hout, hcarry⟩ := ih hrest (Block.length_eq (xf .enc P he (asBlock (xorBytes (data.take 16) v))).1)
      (undoes_afterXf hE hD h _ _)
    simp only [segments, chain_enc_full he hp]
    rw [List.take_left' (Block.length_eq _), List.drop_left' (Block.length_eq _), chain_dec_full]
    refine ⟨?_, hcarry⟩
    simp only [h _, hx, hout]
    rw [xorBytes_cancel _ _ (hp.trans hv.symm), List.take_append_drop]

/-- Settles O52: the second command's chain is over the first's output, from the first's IV and provider. -/
theorem wholeBlocksRoundTrip : Obligations.WholeBlocksRoundTrip := by
  unfold Obligations.WholeBlocksRoundTrip
  intro s t u hs h16 hsapart hto hu hlen huapart hctxs hdata hiv hlocal hE hD hinv
  obtain ⟨t', hto', hout, hcarry, hctxs'⟩ := readyForCbc_leaves hs hsapart
  obtain rfl := runsTo_unique hto' hto
  obtain ⟨v, hto, hout', hcarry', -⟩ := readyForCbc_leaves hu huapart
  rw [hlen, hout] at hdata
  rw [hctxs'] at hctxs
  have hform : u.closedForm .dec = chain .dec u.ctx (segments (s.len / 16) (s.closedForm .enc).output)
      (s.mem.readBytes s.ivAddr 16) (s.closedForm .enc).contexts := by
    rw [State.closedForm, hlen, hdata, hiv, hctxs]
  obtain ⟨hplain, hlast⟩ := chain_dec_enc hE hD (s.len / 16) (data := s.mem.readBytes s.inAddr s.len)
    (by rw [Memory.length_readBytes]; omega) (Memory.length_readBytes s.mem s.ivAddr 16)
    (undoes_after_encryption hlocal hinv _ _)
  refine ⟨v, hto, ?_, ?_⟩
  · rw [hout', hform]
    exact hplain
  · rw [hcarry', hform, hcarry]
    exact hlast

/-! ### The hypotheses can be met -/

/-- One block to encrypt in place, with a context of handle 0 for either direction, and the IV at 64. -/
def blockToEncrypt : State :=
  { messageToEncrypt with len := 16, contexts := [⟨.enc, 0, []⟩, ⟨.dec, 0, []⟩], mem := [(3, 7)] }

theorem blockToEncrypt_ready : blockToEncrypt.readyForCbc .enc :=
  ⟨rfl, rfl, by decide, by unfold State.valuesFit; decide, ⟨by decide, by decide, by decide, by decide⟩, rfl,
    .inl (by decide), rfl⟩

/-- The decryption in place of the block that a command has left at 0, with the bytes at 128 as IV: zero, as those that
`blockToEncrypt` chains from. -/
def State.decryptingBack (t : State) : State :=
  { t with inAddr := 0, outAddr := 0, ivAddr := 128, len := 16, ctx := 0, inputs := [command .cbcDec] }

section DecryptingBack

variable {t : State} {v : Nat} (ht : (blockToEncrypt.withLen 16).cbcResult .enc [] v t)

include ht

theorem decryptingBack_ready (hinv : t.Inv) : t.decryptingBack.readyForCbc .dec := by
  obtain ⟨hp, -⟩ := cbcResult_leaves ht
  obtain ⟨haw, -, -, hf, ha⟩ := cbcResult_keeps ht
  obtain ⟨-, hctxs⟩ := cbcResult_outside ht
  obtain ⟨hm, ⟨-, -, -, -, -, hn, hh⟩, -⟩ := hinv
  have haw : t.addrWidth = 64 := haw
  have hvalid : xfValid t.contexts .dec 0 = true := by
    rw [hctxs]
    exact (xfValid_chain ..).trans (by decide)
  have hin : inRange t.addrWidth 0 16 = true := by rw [haw]; decide
  have hiv : inRange t.addrWidth 128 16 = true := by rw [haw]; decide
  have h0 : 0 < 2 ^ t.addrWidth := Nat.two_pow_pos _
  have h16 : 16 < 2 ^ t.addrWidth := by rw [haw]; decide
  have h128 : 128 < 2 ^ t.addrWidth := by rw [haw]; decide
  exact ⟨hp, hf, hm, ⟨h0, h0, h128, h16, h0, hn, hh⟩, ⟨hin, hin, hiv, hvalid⟩, ha, .inl le_rfl, rfl⟩

/-- The bytes at 128 lie outside what the command has written. -/
theorem decryptingBack_iv : t.mem.readBytes 128 16 = blockToEncrypt.mem.readBytes blockToEncrypt.ivAddr 16 := by
  obtain ⟨hmem, -⟩ := cbcResult_outside ht
  obtain ⟨hlen, hcarry⟩ := cbcResult_lengths ht
  have hout : blockToEncrypt.outAddr + 16 ≤ 128 := by decide
  have hiv : blockToEncrypt.ivAddr + 16 ≤ 128 := by decide
  rw [hmem, readBytes_writeBytes_apart _ (.inr (by rwa [hcarry])),
    readBytes_writeBytes_apart _ (.inr (by rwa [hlen]))]
  decide

end DecryptingBack

/-- The plaintext block comes back, whatever provider has the named properties. -/
theorem witness_wholeBlocksRoundTrip (hlocal : XfLocal .dec 0) (hE : XfReadonly .enc 0) (hD : XfReadonly .dec 0)
    (hinverse : XfInverse blockToEncrypt.contexts 0 0) : ∃ t v, blockToEncrypt.runsTo 4 t ∧
      t.decryptingBack.runsTo 4 v ∧ v.mem.readBytes 0 16 = blockToEncrypt.mem.readBytes 0 16 := by
  obtain ⟨hfit, hi⟩ := readyForCbc_iff.1 blockToEncrypt_ready
  obtain ⟨t, hto, hinv, ht⟩ := acceptedCbc_runs hfit
  obtain ⟨hp, hf, -, -, hc, -⟩ := hfit
  have ht : (blockToEncrypt.withLen 16).cbcResult .enc [] blockToEncrypt.rdData t := ht
  have hto : blockToEncrypt.runsTo 4 t := runsTo_succ.2 ⟨_, step_acceptCbc hp hf hc hi, hto⟩
  obtain ⟨v, hv, hplain, -⟩ := wholeBlocksRoundTrip blockToEncrypt t t.decryptingBack blockToEncrypt_ready rfl
    (.inr (by decide)) hto (decryptingBack_ready ht hinv) rfl (.inr (show 0 + 16 ≤ 128 by decide)) rfl rfl
    (decryptingBack_iv (t := t) ht) hlocal hE hD hinverse
  have hsteps : 1 + cbcSteps 16 = 4 := by decide
  exact ⟨t, v, hto, hsteps ▸ hv, hplain⟩

end Sys2Proof.Machine

/-! PROOF. The abnormal outcomes: the rejection, the entry to the fatal halt, and what a step does in HALT. -/

namespace Sys2Proof.Machine

/-! ### Rejection (60_exceptions.md R233) -/

/-- A considered write of a word that decodes to no command is the decoder's rejection. -/
theorem considerWrite_reject {s : State} {w : Word} {code : ErrCode} (hp : s.phase = .idle) (hf : s.fatalIn = false)
    (hd : decode w = .reject code) : considerWrite w s = .next (s.reject code w) := by
  simp [considerWrite, hp, hf, hd]

/-- ERR tells a command's rejection in IDLE from its acceptance, which clears it. -/
theorem idle_effect_of_err {i : Instr} {s t : State} {code : ErrCode} (h : ExecEffect i s t) (hp : s.phase = .idle)
    (herr : t.err = some code) : t = s.reject code (encode i) := by
  obtain ⟨code', rfl⟩ | ⟨-, -, -, -, hnone⟩ := idle_effect h hp
  · rw [Option.some.inj herr]
  · rw [hnone] at herr
    cases herr

/-- Settles O24: `State.reject` is the whole effect, by the decoder as by a command's checks. -/
theorem rejectionEffect : Obligations.RejectionEffect := by
  unfold Obligations.RejectionEffect
  refine ⟨fun s v rest code hp hf hi hd => ?_, fun s t i code hp ht herr => ?_⟩
  · exact (step_wr_cmd hi).trans (considerWrite_reject (s := { s with inputs := rest }) hp hf hd)
  · exact idle_effect_of_err (exec_effect ht) hp herr

/-! ### Entry to HALT (60_exceptions.md R240) -/

theorem considerWrite_fatal {s : State} (hp : s.phase = .idle) (hf : s.fatalIn = true) (w : Word) :
    considerWrite w s = .next s.enterHalt := by
  simp [considerWrite, hp, hf]

/-- A `wait` while BUSY has read `STATUS` when the sequencer takes its turn. -/
theorem step_of_wait_busy {s : State} {rest : List Input} (hi : s.inputs = .wait :: rest) (hb : s.busy = true) :
    step s = sequencerTurn { s with rdData := s.status.toNat } := by
  have h := step_wait_busy hb rest s.rdData
  rw [← hi] at h
  exact h

theorem step_of_wait_done {s : State} {rest : List Input} (hi : s.inputs = .wait :: rest) (hb : s.busy = false) :
    step s = .next { s with inputs := rest, rdData := s.status.toNat } := by
  have h := step_wait_done hb rest s.rdData
  rw [← hi] at h
  exact h

/-- Settles O27: each form of the sequencer's turn, and the considered write, enters HALT. -/
theorem fatalInputHalts : Obligations.FatalInputHalts := by
  unfold Obligations.FatalInputHalts
  intro s rest hf
  refine ⟨fun hb hi => ?_, fun hb hi => ?_, fun hb hi => ?_, fun v hp hi => ?_, fun hp hi => ?_⟩
  · exact (step_of_no_event hi).trans (sequencerTurn_of_fatal hb hf)
  · exact (step_of_event hi).trans (sequencerTurn_of_fatal (s := { s with inputs := rest }) hb hf)
  · exact (step_of_wait_busy hi hb).trans (sequencerTurn_of_fatal (s := { s with rdData := s.status.toNat }) hb hf)
  · exact (step_wr_cmd hi).trans (considerWrite_fatal (s := { s with inputs := rest }) hp hf _)
  · exact noEnabledStepNoChange s (.inl hp) hi

/-! ### In HALT (60_exceptions.md R241, R242) -/

theorem not_busy_of_halt {s : State} (hp : s.phase = .halt) : s.busy = false := by
  rw [State.busy, hp]
  rfl

theorem step_reset_phase {s t : State} {rest : List Input} (hi : s.inputs = .reset :: rest) (h : step s = .next t) :
    t.phase = .idle := by
  rw [step_of_event hi] at h
  cases h
  rfl

/-- In HALT no effect but the reset's reaches the phase, the flags or a register: the considered write and the register
write need IDLE, the sequencer's step a busy block. -/
theorem halt_effect_keeps {s t : State} (hp : s.phase = .halt) (h : TurnEffect s t)
    (hne : ∀ rest, s.inputs ≠ .reset :: rest) :
    t.phase = .halt ∧ t.cmd = s.cmd ∧ t.status = s.status ∧ t.inAddr = s.inAddr ∧ t.outAddr = s.outAddr ∧
      t.ivAddr = s.ivAddr ∧ t.len = s.len ∧ t.ctx = s.ctx ∧ t.errInfo = s.errInfo ∧ t.w = s.w := by
  have hidle : s.phase ≠ .idle := by simp [hp]
  have hbusy : ¬ s.busy = true := by simp [not_busy_of_halt hp]
  cases h with
  | haltedStep _ _ hb => exact absurd hb hbusy
  | stepped _ _ _ _ hb => exact absurd hb hbusy
  | haltedWrite _ _ hi => exact absurd hi hidle
  | badWord _ _ _ hi => exact absurd hi hidle
  | wrote _ _ _ _ hi => exact absurd hi hidle
  | register _ _ _ hi => exact absurd hi hidle
  | reset rest hi => exact absurd hi (hne rest)
  | _ => exact ⟨hp, rfl, rfl, rfl, rfl, rfl, rfl, rfl, rfl, rfl⟩

/-- In HALT neither the sequencer nor a host access does more than take its event and return a value read. -/
theorem step_halt_silent {s : State} (hp : s.phase = .halt) (he : s.inputs = [] ∨ ∃ e rest, s.inputs = e :: rest ∧
      (e = .sequencer ∨ e = .wait ∨ (∃ o, e = .hostRead o) ∨ ∃ o v, e = .hostWrite o v)) :
    ∃ rest v, step s = .next { s with inputs := rest, rdData := v } := by
  have hb : s.busy = false := not_busy_of_halt hp
  obtain hi | ⟨_, rest, hi, rfl | rfl | ⟨o, rfl⟩ | ⟨o, v, rfl⟩⟩ := he
  · exact ⟨s.inputs, s.rdData, noEnabledStepNoChange s (.inr hp) hi⟩
  · exact ⟨rest, s.rdData, (step_of_event hi).trans (sequencerTurn_of_not_busy (s := { s with inputs := rest }) hb)⟩
  · exact ⟨rest, _, step_of_wait_done hi hb⟩
  · exact ⟨rest, _, step_hostRead hi⟩
  · exact ⟨rest, s.rdData, step_hostWrite_not_idle (by simp [hp]) hi⟩

/-- Settles O28. -/
theorem haltLeftOnlyByReset : Obligations.HaltLeftOnlyByReset := by
  unfold Obligations.HaltLeftOnlyByReset
  intro s t hp h
  refine ⟨fun ⟨rest, hi⟩ => step_reset_phase hi h, halt_effect_keeps hp (turn_effect h), fun he => ?_⟩
  obtain ⟨rest, v, hs⟩ := step_halt_silent hp he
  rw [hs] at h
  cases h
  rfl

/-! ### The hypotheses can be met -/

/-- A word of no opcode, and a CBC command that names no context. -/
theorem witness_rejectionEffect :
    step { State.reset with inputs := [wr .cmd 3] } =
      .next { State.reset with err := some .illegalOp, errInfo := 3 } ∧
    ∃ t, exec .cbcEnc { State.reset with done := true } = .next t ∧
      t = { State.reset with err := some .badCtx, errInfo := 1 } := by
  obtain ⟨t, ht, herr⟩ : ∃ t, exec .cbcEnc { State.reset with done := true } = .next t ∧ t.err = some .badCtx :=
    ⟨_, rfl, rfl⟩
  exact ⟨rejectionEffect.1 { State.reset with inputs := [wr .cmd 3] } 3 [] _ rfl rfl rfl (by decide), t, ht,
    rejectionEffect.2 _ t .cbcEnc _ rfl ht herr⟩

/-- A BLOCK step in a `wait`, and the write of `CBC.ENC`. -/
theorem witness_fatalInputHalts :
    step { lastBlockLeft with fatalIn := true, inputs := [.wait] } =
      .next { lastBlockLeft with fatalIn := true, inputs := [.wait], phase := .halt, rdData := 0x201 } ∧
    step { State.reset with fatalIn := true, inputs := [wr .cmd 1] } =
      .next { State.reset with fatalIn := true, phase := .halt } := by
  obtain ⟨-, -, hwait, -⟩ := fatalInputHalts { lastBlockLeft with fatalIn := true, inputs := [.wait] } [] rfl
  obtain ⟨-, -, -, hwrite, -⟩ := fatalInputHalts { State.reset with fatalIn := true, inputs := [wr .cmd 1] } [] rfl
  exact ⟨hwait rfl rfl, hwrite 1 rfl rfl⟩

/-- In HALT a command is written, the adapter is reset, and the block is reset. -/
theorem witness_haltLeftOnlyByReset :
    (∃ t, step { State.reset with phase := .halt, inputs := [wr .cmd 1] } = .next t ∧
      t = { State.reset with phase := .halt, inputs := t.inputs, rdData := t.rdData }) ∧
    (∃ t, step { lastBlockLeft with phase := .halt, fatalIn := true, inputs := [.adapterReset] } = .next t ∧
      t.phase = .halt ∧ t.cmd = 1) ∧
    ∃ t, step { lastBlockLeft with phase := .halt, inputs := [.reset] } = .next t ∧ t.phase = .idle := by
  obtain ⟨t, ht⟩ : ∃ t, step { State.reset with phase := .halt, inputs := [wr .cmd 1] } = .next t := ⟨_, rfl⟩
  obtain ⟨u, hu⟩ : ∃ u, step { lastBlockLeft with phase := .halt, fatalIn := true, inputs := [.adapterReset] } =
    .next u := ⟨_, rfl⟩
  obtain ⟨v, hv⟩ : ∃ v, step { lastBlockLeft with phase := .halt, inputs := [.reset] } = .next v := ⟨_, rfl⟩
  obtain ⟨-, -, hsilent⟩ := haltLeftOnlyByReset _ t rfl ht
  obtain ⟨-, hkeeps, -⟩ := haltLeftOnlyByReset _ u rfl hu
  obtain ⟨hleaves, -⟩ := haltLeftOnlyByReset _ v rfl hv
  obtain ⟨hphase, hcmd, -⟩ := hkeeps nofun
  exact ⟨⟨t, ht, hsilent (.inr ⟨_, [], rfl, .inr (.inr (.inr ⟨_, _, rfl⟩))⟩)⟩, ⟨u, hu, hphase, hcmd⟩,
    v, hv, hleaves ⟨[], rfl⟩⟩

end Sys2Proof.Machine

/-! PROOF. The reset event and the end of a run. -/

namespace Sys2Proof.Machine

/-! ### The reset event (70_reset_and_hazards.md R260) -/

/-- What the event leaves free or untouched, no register shows. -/
theorem readReg_resetEvent (s : State) (r : Reg) : s.resetEvent.readReg r = State.reset.readReg r := by
  cases r <;> rfl

theorem step_reset {s : State} {rest : List Input} (h : s.inputs = .reset :: rest) :
    step s = .next { s with inputs := rest }.resetEvent :=
  step_of_event h

/-- Settles O20: the registers read as those of the reset state, which read 0. -/
theorem resetEventEffect : Obligations.ResetEventEffect := by
  unfold Obligations.ResetEventEffect
  intro s rest hi
  have hread (r : Reg) : { s with inputs := rest }.resetEvent.readReg r = 0 :=
    (readReg_resetEvent _ r).trans (resetStateReadsZero.1 r)
  exact ⟨_, step_reset hi, hread, rfl, rfl, rfl, rfl, rfl, rfl, rfl, rfl, rfl⟩

/-! ### The end of a run (70_reset_and_hazards.md R279) -/

/-- The events that are not the host's (log 26). -/
theorem byHost_eq_false_iff (e : Input) : e.byHost = false ↔
    e = .sequencer ∨ e = .reset ∨ e = .fatalRise ∨ e = .adapterReset ∨ ∃ a b, e = .agentWrite a b := by
  cases e <;> simp [Input.byHost]

theorem over_iff (s : State) : s.over = true ↔ s.phase = .idle ∧ ∀ e ∈ s.inputs, e.byHost = false := by
  simp [State.over, and_comm]

theorem overWell_iff (s : State) : s.overWell = true ↔ s.over = true ∧ s.fatal = false ∧ s.done = true := by
  simp [State.overWell, and_assoc]

theorem overWell_of_not_idle {s : State} (h : s.phase ≠ .idle) : s.overWell = false := by
  rw [Bool.eq_false_iff]
  intro hw
  obtain ⟨hover, -⟩ := (overWell_iff s).1 hw
  exact h ((over_iff s).1 hover).1

/-- Settles O54: HALT and a busy block are excluded by the phase alone, whatever `STATUS` shows. -/
theorem runIsOverWhenTheHostHasNoFurtherAction : Obligations.RunIsOverWhenTheHostHasNoFurtherAction := by
  unfold Obligations.RunIsOverWhenTheHostHasNoFurtherAction
  intro s
  obtain ⟨hfatal, -, hdone, -⟩ := getLsbD_status_flags s
  refine ⟨?_, ?_, fun hp => overWell_of_not_idle (by simp [hp]), fun hb => overWell_of_not_idle (not_idle_of_busy hb)⟩
  · simp only [over_iff, byHost_eq_false_iff]
  · rw [hfatal, hdone]
    exact overWell_iff s

/-! ### The hypotheses can be met -/

/-- A reset in the middle of a command. -/
theorem witness_resetEventEffect :
    ∃ t, step { lastBlockLeft with inputs := [.reset, .wait] } = .next t ∧ t.readReg .status = 0 ∧
      t.phase = .idle ∧ t.mem = lastBlockLeft.mem ∧ t.inputs = [.wait] := by
  obtain ⟨t, ht, hread, hphase, -, -, hmem, -, -, -, hinputs, -⟩ :=
    resetEventEffect { lastBlockLeft with inputs := [.reset, .wait] } [.wait] rfl
  exact ⟨t, ht, hread .status, hphase, hmem, hinputs⟩

/-- With the reset and another agent's store still to come a run is over, but never one in HALT or in a command. -/
theorem witness_runIsOver :
    { State.reset with inputs := [.reset, .agentWrite 0 1] }.over = true ∧
      { State.reset with phase := .halt }.overWell = false ∧ lastBlockLeft.overWell = false := by
  obtain ⟨hover, -⟩ := runIsOverWhenTheHostHasNoFurtherAction { State.reset with inputs := [.reset, .agentWrite 0 1] }
  obtain ⟨-, -, hhalt, -⟩ := runIsOverWhenTheHostHasNoFurtherAction { State.reset with phase := .halt }
  obtain ⟨-, -, -, hbusy⟩ := runIsOverWhenTheHostHasNoFurtherAction lastBlockLeft
  exact ⟨hover.2 ⟨rfl, by simp⟩, hhalt rfl, hbusy rfl⟩

end Sys2Proof.Machine
